-- ==== Sys2Proof/Word.lean ====
section
/-! DEFINITION. The word type of the core and its two readings (spec/00_scope.md R8, R10, R11).
Bit 0 is the least significant bit. `BitVec.toNat` is the spec's `u(v)`, `BitVec.toInt` its `s(v)`,
`BitVec.ofNat 32` and `BitVec.ofInt 32` its `u32(n)`. -/

namespace Sys2Proof

/-- A register, a memory word or an instruction word: 32 bits (R8 `WORD_BITS`). -/
abbrev Word := BitVec 32

/-- The value of the opcode field `w[31:24]` (R8 `OPCODE_BITS`). -/
abbrev OpByte := BitVec 8

/-- The index of one of a thread's registers R0 to R15; a register field has 4 bits, so an
instruction cannot name another index (R8 `NUM_REGS`, R17). -/
abbrev RegIdx := Fin 16

end Sys2Proof
end

