-- ==== Sys2Proof/Syntax.lean ====
section
/-! DEFINITION. The instructions: one constructor per row of spec/opcode_table.json
(spec/30_encoding.md R75, R76, R79). -/

namespace Sys2Proof

/-- The names that the opcode map numbers, in the document's order (R76). -/
inductive Opcode where
  | nop | const | add | sub | mul | div | and | or | xor
  | ldr | str | br | brz | brnz | brn | brp | cmp | ret
deriving DecidableEq, Repr

/-- Every opcode, in the document's order (R76). -/
def Opcode.all : List Opcode :=
  [.nop, .const, .add, .sub, .mul, .div, .and, .or, .xor,
   .ldr, .str, .br, .brz, .brnz, .brn, .brp, .cmp, .ret]

/-- An instruction with the operands that the decoder of R79 gives it. `imm` is the 16-bit
immediate after its sign extension to 32 bits (R74). The six `nopU` constructors are the table's
rows for unassigned opcode bytes: all of them are NOPs (R77; DESIGN CHOICE, safe,
notes/assumptions/1.md). -/
inductive Instr where
  /-- No operation (R100). -/
  | nop
  /-- `CONST Rd, #imm` (R101). -/
  | const (rd : RegIdx) (imm : Word)
  /-- `ADD Rd, Rs1, Rs2` (R105). -/
  | add (rd rs1 rs2 : RegIdx)
  /-- `SUB Rd, Rs1, Rs2` (R106). -/
  | sub (rd rs1 rs2 : RegIdx)
  /-- `MUL Rd, Rs1, Rs2` (R107). -/
  | mul (rd rs1 rs2 : RegIdx)
  /-- `DIV Rd, Rs1, Rs2` (R108). -/
  | div (rd rs1 rs2 : RegIdx)
  /-- `AND Rd, Rs1, Rs2` (R109). -/
  | and (rd rs1 rs2 : RegIdx)
  /-- `OR Rd, Rs1, Rs2` (R110). -/
  | or (rd rs1 rs2 : RegIdx)
  /-- `XOR Rd, Rs1, Rs2` (R111). -/
  | xor (rd rs1 rs2 : RegIdx)
  /-- `LDR Rd, [Rs1+imm]` (R115). -/
  | ldr (rd rs1 : RegIdx) (imm : Word)
  /-- `STR [Rs1+imm], Rd`: the `rd` field names the data register (R116, D15). -/
  | str (rd rs1 : RegIdx) (imm : Word)
  /-- `BR #imm` (R120). -/
  | br (imm : Word)
  /-- `BRz Rs1, #imm` (R121). -/
  | brz (rs1 : RegIdx) (imm : Word)
  /-- `BRnz Rs1, #imm` (R122). -/
  | brnz (rs1 : RegIdx) (imm : Word)
  /-- `BRn Rs1, #imm` (R123). -/
  | brn (rs1 : RegIdx) (imm : Word)
  /-- `BRp Rs1, #imm` (R124). -/
  | brp (rs1 : RegIdx) (imm : Word)
  /-- `CMP Rs1, Rs2` (R112). -/
  | cmp (rs1 rs2 : RegIdx)
  /-- `RET` (R125). -/
  | ret
  /-- An unassigned opcode byte 0x12 or 0x13 (R77). -/
  | nopU12
  /-- An unassigned opcode byte 0x14 to 0x17 (R77). -/
  | nopU14
  /-- An unassigned opcode byte 0x18 to 0x1F (R77). -/
  | nopU18
  /-- An unassigned opcode byte 0x20 to 0x3F (R77). -/
  | nopU20
  /-- An unassigned opcode byte 0x40 to 0x7F (R77). -/
  | nopU40
  /-- An unassigned opcode byte 0x80 to 0xFF (R77). -/
  | nopU80
deriving DecidableEq, Repr

end Sys2Proof
end

