-- ==== Sys2Proof/Config.lean ====
section
/-! DEFINITION. What an implementation fixes (spec/00_scope.md R8, the rows marked OPEN, host or
parameter) and the model's two free values. The parameters are plain data that State holds, so that a
statement about every state holds for every value of them (notes/assumptions/2.md, 3.md). -/

namespace Sys2Proof

/-- The two readings of BRnz (R118, R122, D17). -/
inductive BrnzReading where
  /-- Taken when the value is not zero (the spec's default). -/
  | notZero
  /-- Taken when the value is negative or zero. -/
  | negOrZero
deriving DecidableEq, Repr

/-- `OPCODE_MAP`: the opcode byte of each of the 18 instructions (R8, R76, D13). -/
structure OpcodeMap where
  nop : OpByte
  const : OpByte
  add : OpByte
  sub : OpByte
  mul : OpByte
  div : OpByte
  and : OpByte
  or : OpByte
  xor : OpByte
  ldr : OpByte
  str : OpByte
  br : OpByte
  brz : OpByte
  brnz : OpByte
  brn : OpByte
  brp : OpByte
  cmp : OpByte
  ret : OpByte
deriving DecidableEq, Repr

/-- The byte that the map gives an opcode. -/
def OpcodeMap.byteOf (m : OpcodeMap) : Opcode → OpByte
  | .nop => m.nop
  | .const => m.const
  | .add => m.add
  | .sub => m.sub
  | .mul => m.mul
  | .div => m.div
  | .and => m.and
  | .or => m.or
  | .xor => m.xor
  | .ldr => m.ldr
  | .str => m.str
  | .br => m.br
  | .brz => m.brz
  | .brnz => m.brnz
  | .brn => m.brn
  | .brp => m.brp
  | .cmp => m.cmp
  | .ret => m.ret

/-- The bytes the map assigns, in the document's order of the instructions. -/
def OpcodeMap.assigned (m : OpcodeMap) : List OpByte := Opcode.all.map m.byteOf

/-- No byte is given to two instructions, so `OPCODE_MAP⁻¹` is a function (R79). -/
def OpcodeMap.wf (m : OpcodeMap) : Bool := decide m.assigned.Nodup

/-- The parameters fixed at construction (R8, R33, R141). `maxCycles` is not among them: the host may
set it between cycles (D7), so it is a field of State. -/
structure Config where
  /-- `MEM_WORDS`, 1 to 2^31 (D3). -/
  memWords : Nat
  /-- `L = log2(CACHE_LINES)`: the cache has `2^L` lines (D4, R47). -/
  lineBits : Nat
  /-- `BRNZ_READING` (D17). -/
  brnzReading : BrnzReading
  /-- `OPCODE_MAP` (D13). -/
  opcodeMap : OpcodeMap
deriving DecidableEq, Repr

/-- `CACHE_LINES` (D4): a power of two, at least 1. -/
def Config.cacheLines (c : Config) : Nat := 2 ^ c.lineBits

/-- The bounds of R8: `1 ≤ MEM_WORDS ≤ 2^31`, and an opcode map with no byte used twice. -/
def Config.wf (c : Config) : Bool :=
  decide (1 ≤ c.memWords) && decide (c.memWords ≤ 2 ^ 31) && c.opcodeMap.wf

/-- FREE VALUE (R65; spec/93_implementation_defined.md U1; notes/assumptions/4.md): which of the words
left open a load returns whose word another lane stores to in the same cycle. It has no body: nothing
can be proved of its value. The arguments are the engine's cycle counter and the loading thread. -/
opaque Config.racingLoad (cycle threadId : Nat) : Nat

/-- FREE VALUE (R66; spec/93_implementation_defined.md U2; notes/assumptions/4.md): which of the words
that two or more lanes store to one address in a cycle is the final one. It has no body: nothing can
be proved of its value. The arguments are the engine's cycle counter and the address. -/
opaque Config.racingStore (cycle address : Nat) : Nat

end Sys2Proof
end

