-- ==== Sys2Proof/WellFormed.lean ====
section
/-! DEFINITION. Which terms of `Instr` stand for an encoding (spec/30_encoding.md R73, R74, R77).
Register operands are in range by their type; an immediate must be the sign extension of 16 bits, and
a row for unassigned opcode bytes must not meet a byte that the opcode map assigns. -/

namespace Sys2Proof

/-- R74: the range of an immediate is −32768 to +32767. -/
def immWellFormed (imm : Word) : Bool :=
  decide (-32768 ≤ imm.toInt) && decide (imm.toInt ≤ 32767)

/-- The lowest opcode byte of a row for unassigned bytes is indeed unassigned (R77). -/
def unassignedWellFormed (m : OpcodeMap) (b : OpByte) : Bool := !m.assigned.contains b

/-- The instruction has an encoding under the opcode map `m`. -/
def Instr.wellFormed (m : OpcodeMap) : Instr → Bool
  | .nop => true
  | .const _ imm => immWellFormed imm
  | .add _ _ _ => true
  | .sub _ _ _ => true
  | .mul _ _ _ => true
  | .div _ _ _ => true
  | .and _ _ _ => true
  | .or _ _ _ => true
  | .xor _ _ _ => true
  | .ldr _ _ imm => immWellFormed imm
  | .str _ _ imm => immWellFormed imm
  | .br imm => immWellFormed imm
  | .brz _ imm => immWellFormed imm
  | .brnz _ imm => immWellFormed imm
  | .brn _ imm => immWellFormed imm
  | .brp _ imm => immWellFormed imm
  | .cmp _ _ => true
  | .ret => true
  | .nopU12 => unassignedWellFormed m 0x12
  | .nopU14 => unassignedWellFormed m 0x14
  | .nopU18 => unassignedWellFormed m 0x18
  | .nopU20 => unassignedWellFormed m 0x20
  | .nopU40 => unassignedWellFormed m 0x40
  | .nopU80 => unassignedWellFormed m 0x80

end Sys2Proof
end

