-- ==== Sys2Proof/Decode.lean ====
section
/-! DEFINITION. The decoder and the encoder (spec/30_encoding.md R72 to R80). The decoder is total and
never rejects: an opcode byte that the map does not assign is a NOP (R77). The unit of instruction
memory is the 32-bit word, so there is no byte order to choose (R42, D10). -/

namespace Sys2Proof

/-! ### Fields of an instruction word (R73) -/

/-- `op = w[31:24]`. -/
def opField (w : Word) : OpByte := w.extractLsb' 24 8

/-- `rd = w[23:20]`. -/
def rdField (w : Word) : RegIdx := (w.extractLsb' 20 4).toFin

/-- `rs1 = w[19:16]`. -/
def rs1Field (w : Word) : RegIdx := (w.extractLsb' 16 4).toFin

/-- `rs2 = w[15:12]`. -/
def rs2Field (w : Word) : RegIdx := (w.extractLsb' 12 4).toFin

/-- `imm16 = w[15:0]`. -/
def imm16Field (w : Word) : BitVec 16 := w.extractLsb' 0 16

/-- `imm = sext_32(w[15:0])` (R74): bit 15 is the sign bit. -/
def immField (w : Word) : Word := (imm16Field w).signExtend 32

/-! ### The opcode map (R76) -/

/-- The default `OPCODE_MAP`: the document's list numbered from 0x00 (R76, D13). -/
def defaultOpcodeMap : OpcodeMap :=
  { nop := 0x00, const := 0x01, add := 0x02, sub := 0x03, mul := 0x04, div := 0x05, and := 0x06,
    or := 0x07, xor := 0x08, ldr := 0x09, str := 0x0A, br := 0x0B, brz := 0x0C, brnz := 0x0D,
    brn := 0x0E, brp := 0x0F, cmp := 0x10, ret := 0x11 }

/-- `OPCODE_MAP⁻¹`: the opcode that has the byte, if one has (R79). -/
def OpcodeMap.opOf? (m : OpcodeMap) (b : OpByte) : Option Opcode :=
  Opcode.all.find? fun op => m.byteOf op == b

/-- The NOP that an unassigned opcode byte is (R77), under the constructor of the table's row that
the byte falls into. Bytes below 0x12 are unassigned only under a map that is not the default one. -/
def unassignedNop (b : OpByte) : Instr :=
  if b.toNat < 0x12 then .nop
  else if b.toNat < 0x14 then .nopU12
  else if b.toNat < 0x18 then .nopU14
  else if b.toNat < 0x20 then .nopU18
  else if b.toNat < 0x40 then .nopU20
  else if b.toNat < 0x80 then .nopU40
  else .nopU80

/-! ### The decoder -/

/-- The instruction with the given opcode and the operands that its class takes from the word
(R75, R79); the bits it does not take are ignored (R78). -/
def decodeOp (op : Opcode) (w : Word) : Instr :=
  match op with
  | .nop => .nop
  | .const => .const (rdField w) (immField w)
  | .add => .add (rdField w) (rs1Field w) (rs2Field w)
  | .sub => .sub (rdField w) (rs1Field w) (rs2Field w)
  | .mul => .mul (rdField w) (rs1Field w) (rs2Field w)
  | .div => .div (rdField w) (rs1Field w) (rs2Field w)
  | .and => .and (rdField w) (rs1Field w) (rs2Field w)
  | .or => .or (rdField w) (rs1Field w) (rs2Field w)
  | .xor => .xor (rdField w) (rs1Field w) (rs2Field w)
  | .ldr => .ldr (rdField w) (rs1Field w) (immField w)
  | .str => .str (rdField w) (rs1Field w) (immField w)
  | .br => .br (immField w)
  | .brz => .brz (rs1Field w) (immField w)
  | .brnz => .brnz (rs1Field w) (immField w)
  | .brn => .brn (rs1Field w) (immField w)
  | .brp => .brp (rs1Field w) (immField w)
  | .cmp => .cmp (rs1Field w) (rs2Field w)
  | .ret => .ret

/-- `decode(word)` (R79) under the opcode map `m`. -/
def decode (m : OpcodeMap) (w : Word) : Instr :=
  match m.opOf? (opField w) with
  | some op => decodeOp op w
  | none => unassignedNop (opField w)

/-- The instruction that the decoder reads, under the default opcode map, from a word whose low
`nbits` bits are those of `w` and whose other bits are 0. An instruction is one word (R72), and the
decoder never refuses one (R77). -/
def decodeTableWord (nbits w : Nat) : Option Instr :=
  some (decode defaultOpcodeMap (BitVec.ofNat 32 (w % 2 ^ nbits)))

/-! ### The encoder (R80) -/

/-- R80, class R: `(op << 24) | (rd << 20) | (rs1 << 16) | (rs2 << 12)`; the fields do not overlap,
so the sum is the bitwise OR. -/
def encodeR (op : OpByte) (rd rs1 rs2 : RegIdx) : Word :=
  BitVec.ofNat 32 (op.toNat * 2 ^ 24 + rd.val * 2 ^ 20 + rs1.val * 2 ^ 16 + rs2.val * 2 ^ 12)

/-- R80, class I: `(op << 24) | (rd << 20) | (rs1 << 16) | (imm mod 2^16)`. -/
def encodeI (op : OpByte) (rd rs1 : RegIdx) (imm : Word) : Word :=
  BitVec.ofNat 32 (op.toNat * 2 ^ 24 + rd.val * 2 ^ 20 + rs1.val * 2 ^ 16 + imm.toNat % 2 ^ 16)

/-- R80, class N: `op << 24`. -/
def encodeN (op : OpByte) : Word := BitVec.ofNat 32 (op.toNat * 2 ^ 24)

/-- The word of an instruction under the opcode map `m`, ignored fields 0 (R80). A row for unassigned
bytes is written with its lowest byte. -/
def encode (m : OpcodeMap) : Instr → Word
  | .nop => encodeN m.nop
  | .const rd imm => encodeI m.const rd 0 imm
  | .add rd rs1 rs2 => encodeR m.add rd rs1 rs2
  | .sub rd rs1 rs2 => encodeR m.sub rd rs1 rs2
  | .mul rd rs1 rs2 => encodeR m.mul rd rs1 rs2
  | .div rd rs1 rs2 => encodeR m.div rd rs1 rs2
  | .and rd rs1 rs2 => encodeR m.and rd rs1 rs2
  | .or rd rs1 rs2 => encodeR m.or rd rs1 rs2
  | .xor rd rs1 rs2 => encodeR m.xor rd rs1 rs2
  | .ldr rd rs1 imm => encodeI m.ldr rd rs1 imm
  | .str rd rs1 imm => encodeI m.str rd rs1 imm
  | .br imm => encodeI m.br 0 0 imm
  | .brz rs1 imm => encodeI m.brz 0 rs1 imm
  | .brnz rs1 imm => encodeI m.brnz 0 rs1 imm
  | .brn rs1 imm => encodeI m.brn 0 rs1 imm
  | .brp rs1 imm => encodeI m.brp 0 rs1 imm
  | .cmp rs1 rs2 => encodeR m.cmp 0 rs1 rs2
  | .ret => encodeN m.ret
  | .nopU12 => encodeN 0x12
  | .nopU14 => encodeN 0x14
  | .nopU18 => encodeN 0x18
  | .nopU20 => encodeN 0x20
  | .nopU40 => encodeN 0x40
  | .nopU80 => encodeN 0x80

end Sys2Proof
end

