-- ==== Sys2Proof/Machine/Parameters.lean ====
section
/-! DEFINITION. The literals of the spec as named constants (spec/93_implementation_defined.md,
section 3) and the configuration of the machine after construction with the default values. -/

namespace Sys2Proof.Machine

/-- `WARP_SIZE`: the most threads a warp holds (R8, R26, R86). -/
def warpSize : Nat := 32

/-- `LINE_WORDS`: the words of a cache line (R8, R29, C1, D5). -/
def lineWords : Nat := 4

/-- `COALESCE_WINDOW` in words (R8, R59, D30). -/
def coalesceWindow : Nat := 4

/-- The thread multiplier of a response id (R8, R60). -/
def responseThreadFactor : Nat := 1000000

/-- The block multiplier of a response id (R8, R60). -/
def responseBlockFactor : Nat := 10000

/-- The default of `maxCycles` (R8, R28). -/
def defaultMaxCycles : Nat := 1000000

/-- The exclusive bound of `IMEM_LEN` (R8, D6). -/
def imemBound : Nat := 2 ^ 32

/-- The configuration of `State.reset`. DESIGN CHOICE, unsafe (notes/assumptions/2.md): the spec
leaves `MEM_WORDS` and `CACHE_LINES` open; 1024 and 16 are the values of its test vectors. The
reading of BRnz and the opcode map are the spec's defaults (D13, D17; notes/assumptions/3.md). -/
def defaultConfig : Config :=
  { memWords := 1024, lineBits := 4, brnzReading := .notZero, opcodeMap := defaultOpcodeMap }

end Sys2Proof.Machine
end

