-- ==== Sys2Proof/Machine/State.lean ====
section
/-! DEFINITION. The state of the core (spec/10_state.md, the record `CoreState`) as plain data, the
reasons a step can stop, and the state after reset (R36, R141). -/

namespace Sys2Proof.Machine

/-- A table of values by natural-number key: at most one entry a key, keys strictly rising. -/
abbrev Table (α : Type) := List (Nat × α)

/-- Global memory (R31, R39): the words that are not 0, by word address. The smallest unit the core
addresses is the 32-bit word (R37, R42), so a cell is a word and no byte order is chosen
(notes/assumptions/6.md). -/
abbrev Memory := Table Word

/-- The 16 registers of one thread (R14). -/
abbrev RegBank := Vector Word 16

/-- 16 zeros: what `initializeThread` allocates and what an unallocated thread reads (R16, R17). -/
def zeroBank : RegBank := Vector.replicate 16 0

/-- `ThreadState` (R20 to R24). -/
structure Thread where
  threadId : Nat
  blockId : Nat
  /-- A word index into instruction memory (R21). -/
  pc : Word
  /-- The snapshot of the register file, refreshed after each execution (R24). -/
  regs : RegBank
  active : Bool
deriving DecidableEq, Repr

/-- A block: identity plus its threads in lane order (R25). -/
structure Block where
  blockId : Nat
  threads : List Thread
deriving DecidableEq, Repr

/-- Where a thread stands: the index of its block and its index in that block (R26, `members`). -/
structure ThreadRef where
  block : Nat
  thread : Nat
deriving DecidableEq, Repr

/-- A warp (R26). `active` and `pc` are bookkeeping that no rule reads to decide what runs (R87). -/
structure Warp where
  warpId : Nat
  members : List ThreadRef
  active : Bool
  pc : Word
deriving DecidableEq, Repr

/-- A VALID cache line (R29). A line with `valid` = false is one that the cache's table does not
list; its tag and data are never read (H5, notes/assumptions/7.md). -/
structure Line where
  dirty : Bool
  tag : Word
  data : Vector Word 4
deriving DecidableEq, Repr

/-- The cache (R29): the valid lines by line index, and the two counters. -/
structure Cache where
  lines : Table Line
  hits : Nat
  misses : Nat
deriving DecidableEq, Repr

/-- A request in the memory controller's queue (R30, R57). -/
structure MemoryRequest where
  address : Word
  data : Option Word
  write : Bool
  threadId : Nat
  blockId : Nat
deriving DecidableEq, Repr

/-- What draining a request produces; it is discarded (R30, R58, D31). -/
structure MemoryResponse where
  id : Nat
  data : Word
  valid : Bool
deriving DecidableEq, Repr

/-- The memory controller's statistics (R30, R59). -/
structure ControllerStats where
  requests : Nat
  groups : Nat
deriving DecidableEq, Repr

/-- The execution context of the thread being stepped (R94, R12). It is the model's own field
(notes/assumptions/5.md): loaded from the thread before its instruction executes and written back
after it. While the instruction executes, `pc` is its own address; then it is the next PC. -/
structure ExecContext where
  threadId : Nat
  blockId : Nat
  pc : Word
  active : Bool
deriving DecidableEq, Repr

/-- No thread is being stepped. DESIGN CHOICE (notes/assumptions/5.md). -/
def ExecContext.idle : ExecContext := { threadId := 0, blockId := 0, pc := 0, active := false }

/-- The whole state of the core. -/
structure State where
  /-- The parameters fixed at construction (R8, R33, R141). -/
  cfg : Config
  /-- Instruction memory (R28, R38). -/
  imem : List Word
  /-- Global memory (R31, R39). -/
  mem : Memory
  /-- The register file, by thread id (R14). -/
  rf : Table RegBank
  /-- The blocks in the host's order (R25, R85). -/
  blocks : List Block
  /-- The warps in formation order (R27, R86). -/
  warps : List Warp
  /-- The scheduler's round-robin index (R27). -/
  rr : Nat
  /-- The scheduler's instrumentation counter (R27). -/
  ticks : Nat
  /-- The engine's cycle counter (R28, R135). -/
  cycle : Nat
  /-- The engine's safety bound (R28). -/
  maxCycles : Nat
  /-- The cache (R29). -/
  cache : Cache
  /-- The memory controller's queue, empty between cycles (R30). -/
  mcQueue : List MemoryRequest
  /-- The memory controller's statistics (R30). -/
  mcStats : ControllerStats
  /-- The model's own: the thread being stepped (R94). -/
  ctx : ExecContext
deriving DecidableEq, Repr

/-- The faults of the core: none. "No instruction and no engine step raises a synchronous exception"
(R126, D42), so no constructor exists and nobody raises one. -/
inductive Fault where
deriving DecidableEq, Repr

/-- Why an input is refused. None of them is raised by a step (R126). -/
inductive Refusal where
  /-- Raised by an arm of `exec` for an instruction without a meaning; no arm does. Safe. -/
  | notModelled (mnemonic : String)
  /-- Raised by `initializeBlocks` for a launch that gives two threads the same id (R85, D37, H1).
  Safe: the spec refuses the launch. -/
  | duplicateThreadId (threadId : Nat)
  /-- Raised by `loadInstructions` for 2^32 words or more, which the host may not send (R145, D6;
  notes/assumptions/11.md). Safe. -/
  | programTooLong (length : Nat)
deriving DecidableEq, Repr

/-- What a step or a host operation answers. -/
abbrev Result := Host.Outcome State Fault Refusal

/-- The state right after construction (R36 "power-on", R141, D38). -/
def State.powerOn (cfg : Config) (maxCycles : Nat) : State :=
  { cfg := cfg
    imem := []
    mem := []
    rf := []
    blocks := []
    warps := []
    rr := 0
    ticks := 0
    cycle := 0
    maxCycles := maxCycles
    cache := { lines := [], hits := 0, misses := 0 }
    mcQueue := []
    mcStats := { requests := 0, groups := 0 }
    ctx := ExecContext.idle }

/-- The machine right after power-on, which is also what `reset()` leaves of it (R36, R141, R142). -/
def State.reset : State := State.powerOn defaultConfig defaultMaxCycles

end Sys2Proof.Machine
end

