-- ==== Sys2Proof/Machine/Ops.lean ====
section
/-! DEFINITION. The named operations over tables, global memory, the register file, the threads and
the execution context. Taking an exception and returning from one do not exist on this core
(spec/60_exceptions.md R126, R129, R130), so there is no operation for them. -/

namespace Sys2Proof.Machine

/-! ### Tables -/

/-- The value under a key. -/
def Table.get? {α : Type} : Table α → Nat → Option α
  | [], _ => none
  | (k, v) :: t, a => if k = a then some v else Table.get? t a

/-- The table with the value under the key, in its place. -/
def Table.put {α : Type} : Table α → Nat → α → Table α
  | [], a, v => [(a, v)]
  | (k, w) :: t, a, v =>
    if a < k then (a, v) :: (k, w) :: t
    else if k = a then (a, v) :: t
    else (k, w) :: Table.put t a v

/-- The table without the key. -/
def Table.del {α : Type} (t : Table α) (a : Nat) : Table α := t.filter fun e => e.1 != a

/-- The keys rise strictly: the canonical form of a table. -/
abbrev Table.Sorted {α : Type} (t : Table α) : Prop := t.Pairwise fun e f => e.1 < f.1

/-! ### Global memory -/

/-- The word at an index; a word that nothing has written is 0 (R36, R142: memory is zeroed). -/
def Memory.read (m : Memory) (a : Nat) : Word := (Table.get? m a).getD 0

/-- Writing 0 removes the entry, so that equal memories are equal data. -/
def Memory.write (m : Memory) (a : Nat) (v : Word) : Memory :=
  if v = 0 then Table.del m a else Table.put m a v

/-- The canonical form: word addresses strictly rising, no entry equal to what an unlisted word
reads as. -/
abbrev Memory.wf (m : Memory) : Prop := Table.Sorted m ∧ ∀ e ∈ m, e.2 ≠ 0

/-- A read of a memory of `n` words: "reads return 0" out of range (R41). -/
def Memory.load (n : Nat) (m : Memory) (a : Nat) : Word := if a < n then Memory.read m a else 0

/-- A write to a memory of `n` words: "writes are dropped" out of range (R41). -/
def Memory.store (n : Nat) (m : Memory) (a : Nat) (v : Word) : Memory :=
  if a < n then Memory.write m a v else m

/-- The address is in range (R40). -/
def inRange (s : State) (a : Word) : Bool := decide (a.toNat < s.cfg.memWords)

/-- Global memory word `a`, 0 out of range (R41, R61). -/
def globalRead (s : State) (a : Nat) : Word := Memory.load s.cfg.memWords s.mem a

/-- Global memory with word `a` written, unchanged out of range (R41, R61). -/
def globalWrite (s : State) (a : Nat) (v : Word) : State :=
  { s with mem := Memory.store s.cfg.memWords s.mem a v }

/-! ### The register file -/

/-- The 16 registers of a thread; 16 zeros for a thread that has none (R17, R19). -/
def bankOf (rf : Table RegBank) (tid : Nat) : RegBank := (Table.get? rf tid).getD zeroBank

/-- `RF[tid][r]` (R14). -/
def readReg (s : State) (tid : Nat) (r : RegIdx) : Word := (bankOf s.rf tid)[r.val]

/-- `RF[tid][r] <- v` (R18). A thread whose registers the host has cleared gets 16 zeros first
(DESIGN CHOICE, notes/assumptions/10.md). -/
def writeReg (s : State) (tid : Nat) (r : RegIdx) (v : Word) : State :=
  { s with rf := Table.put s.rf tid ((bankOf s.rf tid).set r.val v) }

/-- `read(threadId, reg)` with any index: "returns 0 for an uninitialized thread or an out-of-range
register index" (R17). -/
def registerRead (s : State) (tid i : Nat) : Word :=
  if h : i < 16 then readReg s tid ⟨i, h⟩ else 0

/-- `write(threadId, reg, value)` with any index: "a no-op for an out-of-range index" (R18). DESIGN
CHOICE: called by the host, it leaves the snapshot `Thread.regs` as it is (notes/assumptions/19.md). -/
def registerWrite (s : State) (tid i : Nat) (v : Word) : State :=
  if h : i < 16 then writeReg s tid ⟨i, h⟩ v else s

/-- `initializeThread(id)`: 16 zeroed registers if absent, idempotent (R16). -/
def initializeThread (s : State) (tid : Nat) : State :=
  match Table.get? s.rf tid with
  | some _ => s
  | none => { s with rf := Table.put s.rf tid zeroBank }

/-! ### Threads -/

/-- The thread at a place. -/
def threadAt? (s : State) (r : ThreadRef) : Option Thread :=
  match s.blocks[r.block]? with
  | some b => b.threads[r.thread]?
  | none => none

/-- The state with the thread at a place changed. -/
def updateThread (s : State) (r : ThreadRef) (f : Thread → Thread) : State :=
  { s with blocks := s.blocks.modify r.block fun b =>
      { b with threads := b.threads.modify r.thread f } }

/-- Some thread stands at the place and it is active. -/
def threadActive (s : State) (r : ThreadRef) : Bool :=
  match threadAt? s r with
  | some t => t.active
  | none => false

/-! ### The executing thread (R12, R94) -/

/-- `x[r]`: register `r` of the executing thread. -/
def x (s : State) (r : RegIdx) : Word := readReg s s.ctx.threadId r

/-- `x[r] <- v`. -/
def writeX (s : State) (r : RegIdx) (v : Word) : State := writeReg s s.ctx.threadId r v

/-- `next_pc <- v`. -/
def setPc (s : State) (v : Word) : State := { s with ctx := { s.ctx with pc := v } }

/-- `next_pc <- pc + 1` (R21). -/
def advance (s : State) : State := setPc s (s.ctx.pc + 1)

/-- `deactivate()` (R12, R23, R125). -/
def deactivate (s : State) : State := { s with ctx := { s.ctx with active := false } }

/-- `Enqueue(req)`: appends a request to the controller's queue (R57). -/
def enqueue (s : State) (r : MemoryRequest) : State := { s with mcQueue := s.mcQueue ++ [r] }

/-! ### Outcomes -/

/-- Goes on with the next state; a stop stays a stop. -/
def andThen (o : Result) (f : State → Result) : Result :=
  match o with
  | .next s => f s
  | .fault r => .fault r
  | .refused r => .refused r

end Sys2Proof.Machine
end

