-- ==== Sys2Proof/Machine/CacheUnit.lean ====
section
/-! DEFINITION. The direct-mapped, write-through, write-allocate cache in front of global memory
(spec/20_memory.md R47 to R56). It serves LDR and STR only; fetch does not use it (C3). -/

namespace Sys2Proof.Machine

/-! ### Geometry (R47) -/

/-- `index(a) = (u(a) >> 2) mod CACHE_LINES`. -/
def cacheIndex (c : Config) (a : Word) : Nat := a.toNat / 4 % c.cacheLines

/-- `tag(a) = u(a) >> (2 + L)`. -/
def cacheTag (c : Config) (a : Word) : Word := BitVec.ofNat 32 (a.toNat / 2 ^ (2 + c.lineBits))

/-- `offset(a) = u(a) mod LINE_WORDS`. -/
def cacheOffset (a : Word) : Fin 4 := ⟨a.toNat % 4, Nat.mod_lt _ (by decide)⟩

/-- `base(tag, index) = (tag << (2 + L)) + (index << 2)`: the first word of the memory line. -/
def lineBase (c : Config) (tag : Word) (index : Nat) : Nat :=
  tag.toNat * 2 ^ (2 + c.lineBits) + index * 4

/-! ### Lines -/

/-- Line `index` if it is valid (R29). -/
def lineAt? (s : State) (index : Nat) : Option Line := Table.get? s.cache.lines index

/-- The line that holds address `a`, if the access hits (R48). -/
def residentLine? (s : State) (a : Word) : Option Line :=
  match lineAt? s (cacheIndex s.cfg a) with
  | some l => if l.tag = cacheTag s.cfg a then some l else none
  | none => none

/-- The cache with line `index` valid and equal to `l`. -/
def setLine (s : State) (index : Nat) (l : Line) : State :=
  { s with cache := { s.cache with lines := Table.put s.cache.lines index l } }

/-- A hit adds 1 to `hits` (R48). -/
def countHit (s : State) : State :=
  { s with cache := { s.cache with hits := s.cache.hits + 1 } }

/-- A miss adds 1 to `misses` (R48). -/
def countMiss (s : State) : State :=
  { s with cache := { s.cache with misses := s.cache.misses + 1 } }

/-- The words of a line, in order. -/
def lineOffsets : List (Fin 4) := [0, 1, 2, 3]

/-- Writes a line's words to "their original (tag-derived) addresses", in order, those out of range
dropped (R49). -/
def writeBack (s : State) (index : Nat) (l : Line) : State :=
  lineOffsets.foldl (fun s k => globalWrite s (lineBase s.cfg l.tag index + k.val) l.data[k.val]) s

/-- The write-back of the resident line before a miss is filled: only of a valid dirty line (R49). -/
def evict (s : State) (index : Nat) : State :=
  match lineAt? s index with
  | some l => if l.dirty then writeBack s index l else s
  | none => s

/-- The line that a miss on `a` loads word by word, out-of-range words 0 (R50). -/
def filledLine (s : State) (a : Word) : Line :=
  { dirty := false
    tag := cacheTag s.cfg a
    data := #v[globalRead s (a.toNat - a.toNat % 4), globalRead s (a.toNat - a.toNat % 4 + 1),
      globalRead s (a.toNat - a.toNat % 4 + 2), globalRead s (a.toNat - a.toNat % 4 + 3)] }

/-! ### Accesses -/

/-- An access to an in-range address after which its line is resident: the line, the hit indicator,
and the state with the counters updated and, on a miss, the victim written back and the line filled
(R48, R49, R50). Reads and writes share it (D25). -/
structure Residency where
  state : State
  line : Line
  hit : Bool

/-- Makes the line of an in-range address resident (R48, R49, R50). -/
def makeResident (s : State) (a : Word) : Residency :=
  match residentLine? s a with
  | some l => { state := countHit s, line := l, hit := true }
  | none =>
    let evicted := evict (countMiss s) (cacheIndex s.cfg a)
    let l := filledLine evicted a
    { state := setLine evicted (cacheIndex s.cfg a) l, line := l, hit := false }

/-- What a cache read returns (R51). -/
structure ReadOutput where
  data : Word
  hit : Bool
  state : State

/-- `MemRead(a, 1)` (R51); an address out of range does not use the cache (R53). -/
def cacheRead (s : State) (a : Word) : ReadOutput :=
  if inRange s a then
    let r := makeResident s a
    { data := r.line.data[(cacheOffset a).val], hit := r.hit, state := r.state }
  else { data := 0, hit := false, state := s }

/-- What a cache write returns (R52). -/
structure WriteOutput where
  hit : Bool
  state : State

/-- `MemWrite(a, 1, v)` (R52): write-allocate, the line updated and dirty, and the word written to
global memory at once; an address out of range is dropped (R53). -/
def cacheWrite (s : State) (a : Word) (v : Word) : WriteOutput :=
  if inRange s a then
    let r := makeResident s a
    let l : Line := { r.line with dirty := true, data := r.line.data.set (cacheOffset a).val v }
    { hit := r.hit
      state := globalWrite (setLine r.state (cacheIndex s.cfg a) l) a.toNat v }
  else { hit := false, state := s }

/-- `flush(memory)` (R54): writes back every valid dirty line and clears its dirty flag; the lines
stay valid. No instruction and no step of the cycle calls it. -/
def flush (s : State) : State :=
  let written := s.cache.lines.foldl
    (fun s e => if e.2.dirty then writeBack s e.1 e.2 else s) s
  { written with cache :=
      { s.cache with lines := s.cache.lines.map fun e => (e.1, { e.2 with dirty := false }) } }

end Sys2Proof.Machine
end

