-- ==== Sys2Proof/Machine/Controller.lean ====
section
/-! DEFINITION. The memory controller: the once-per-cycle drain of the request queue with its sort,
its coalescer and its responses (spec/20_memory.md R57 to R62). -/

namespace Sys2Proof.Machine

/-- Puts a request before the first one whose address is not smaller: used from the last request of
the queue to the first, it keeps equal addresses in queue order (R58, D29). -/
def insertByAddress (r : MemoryRequest) : List MemoryRequest → List MemoryRequest
  | [] => [r]
  | q :: t => if r.address.toNat ≤ q.address.toNat then r :: q :: t else q :: insertByAddress r t

/-- `stable_sort(mcQueue, key = u(address))` (R58, D29). -/
def sortByAddress : List MemoryRequest → List MemoryRequest
  | [] => []
  | r :: t => insertByAddress r (sortByAddress t)

/-- The coalescer's current group: its first request's address, and its direction (R59). -/
structure Group where
  base : Nat
  write : Bool
deriving DecidableEq, Repr

/-- The request joins the current group: same direction, and less than 4 words above its base
(R59, D30). -/
def joinsGroup (g : Group) (r : MemoryRequest) : Bool :=
  (r.write == g.write) && decide (r.address.toNat - g.base < coalesceWindow)

/-- How many groups the coalescer opens on the sorted list, from a current group or none (R59). -/
def countGroups : Option Group → List MemoryRequest → Nat
  | _, [] => 0
  | none, r :: t => 1 + countGroups (some { base := r.address.toNat, write := r.write }) t
  | some g, r :: t =>
    if joinsGroup g r then countGroups (some g) t
    else 1 + countGroups (some { base := r.address.toNat, write := r.write }) t

/-- `coalesce(S)`: the statistics after the sorted list (R59). -/
def coalesce (st : ControllerStats) (sorted : List MemoryRequest) : ControllerStats :=
  { requests := st.requests + sorted.length, groups := st.groups + countGroups none sorted }

/-- The id of a response, an unbounded natural (R60). -/
def responseId (r : MemoryRequest) : Nat :=
  r.threadId * responseThreadFactor + r.blockId * responseBlockFactor + r.address.toNat

/-- The data of the queued stores to a word, in queue order (R57, R58). -/
def queuedStores (q : List MemoryRequest) (a : Nat) : List Word :=
  q.filterMap fun r => if r.write && r.address.toNat == a then r.data else none

/-- The memory after the commit of one request (R58). A write request without data is never queued
(R57); it commits nothing. -/
def commitRequest (n : Nat) (m : Memory) (r : MemoryRequest) : Memory :=
  match r.write, r.data with
  | true, some v => Memory.store n m r.address.toNat v
  | true, none => m
  | false, _ => m

/-- The response to one request, from the memory it is serviced in (R58). -/
def responseTo (n : Nat) (m : Memory) (r : MemoryRequest) : MemoryResponse :=
  { id := responseId r
    data := if r.write then r.data.getD 0 else Memory.load n m r.address.toNat
    valid := decide (r.address.toNat < n) }

/-- Services a list of requests in order: the memory after it, and one response a request (R58). -/
def serviceRequests (n : Nat) : Memory → List MemoryRequest → Memory × List MemoryResponse
  | m, [] => (m, [])
  | m, r :: t =>
    let rest := serviceRequests n (commitRequest n m r) t
    (rest.1, responseTo n m r :: rest.2)

/-- The responses that a drain of the queue produces (R58, R60). They are not kept (R30, D31). -/
def drainResponses (s : State) : List MemoryResponse :=
  (serviceRequests s.cfg.memWords s.mem (sortByAddress s.mcQueue)).2

/-- `processRequests()` (R58): sort, coalesce, commit in order, drop the responses, empty the queue.
It neither reads nor changes the cache. -/
def processRequests (s : State) : State :=
  { s with
    mem := (serviceRequests s.cfg.memWords s.mem (sortByAddress s.mcQueue)).1
    mcStats := coalesce s.mcStats (sortByAddress s.mcQueue)
    mcQueue := [] }

end Sys2Proof.Machine
end

