-- ==== Sys2Proof/Machine/Flags.lean ====
section
/-! DEFINITION. The execution unit: the result and the `zero`, `negative` and `overflow` outputs of
each arithmetic and logic operation (spec/42_alu.md R102 to R111), the comparison of CMP (R112) and
the conditions of the branches (spec/44_control.md R118). The outputs are not state: nothing stores
them and no instruction reads them (R32, R103). -/

namespace Sys2Proof.Machine

/-- The operations of the execution unit (R102). -/
inductive AluOp where
  | add | sub | mul | div | and | or | xor
deriving DecidableEq, Repr

/-- What `executeALU` returns (R102). -/
structure AluOutput where
  result : Word
  zero : Bool
  negative : Bool
  overflow : Bool
deriving DecidableEq, Repr

/-- DIV (R108): 0 for a zero divisor, else the signed quotient rounded toward zero, modulo 2^32. -/
def divResult (a b : Word) : Word :=
  BitVec.ofInt 32 (if b.toInt = 0 then 0 else a.toInt.tdiv b.toInt)

/-- The result of an operation (R105 to R111): the exact value modulo 2^32. -/
def aluResult (op : AluOp) (a b : Word) : Word :=
  match op with
  | .add => a + b
  | .sub => a - b
  | .mul => a * b
  | .div => divResult a b
  | .and => a &&& b
  | .or => a ||| b
  | .xor => a ^^^ b

/-- The `overflow` output (R103, R105, R106, R107, D23). For MUL the exact rule of R107; the document
calls the original's value approximate (U4, notes/assumptions/12.md), and nothing reads it. -/
def aluOverflow (op : AluOp) (a b : Word) : Bool :=
  match op with
  | .add => a.msb == b.msb && (a + b).msb != a.msb
  | .sub => a.msb != b.msb && (a - b).msb != a.msb
  | .mul => a.toInt * b.toInt != (a * b).toInt
  | .div => false
  | .and => false
  | .or => false
  | .xor => false

/-- `executeALU`: the result and its outputs (R102, R103). -/
def aluUnit (op : AluOp) (a b : Word) : AluOutput :=
  { result := aluResult op a b
    zero := aluResult op a b == 0
    negative := (aluResult op a b).msb
    overflow := aluOverflow op a b }

/-- What `compare` returns (R112). -/
inductive Comparison where
  | equal | less | greater
deriving DecidableEq, Repr

/-- CMP's comparison, by the signed reading (R104, R112). -/
def compareSigned (a b : Word) : Comparison :=
  if a.toInt = b.toInt then .equal else if a.toInt < b.toInt then .less else .greater

/-- BRz: `v == 0` (R118, R121). -/
def takenZ (v : Word) : Bool := v == 0

/-- BRnz: by the parameter `BRNZ_READING` (R118, R122). -/
def takenNZ (reading : BrnzReading) (v : Word) : Bool :=
  match reading with
  | .notZero => v != 0
  | .negOrZero => v.msb || v == 0

/-- BRn: `v[31] == 1` (R118, R123). -/
def takenN (v : Word) : Bool := v.msb

/-- BRp: `v[31] == 0 and v != 0` (R118, R124). -/
def takenP (v : Word) : Bool := !v.msb && v != 0

end Sys2Proof.Machine
end

