-- ==== Sys2Proof/Machine/Operands.lean ====
section
/-! DEFINITION. The operand forms: the effective address of a load or store and the target of a
branch (spec/43_load_store.md R113, R114; spec/44_control.md R117). Register operands are
`x` of Machine/Ops.lean, the immediate is `immField` of Decode.lean. -/

namespace Sys2Proof.Machine

/-- `ea = u32(u(x[rs1]) + u(imm))`: base register plus signed word offset, modulo 2^32 (R114). -/
def effectiveAddress (base imm : Word) : Word := base + imm

/-- `target = u32(u(pc) + u(imm))`: relative to the branch's own address, modulo 2^32 (R117). -/
def branchTarget (pc imm : Word) : Word := pc + imm

end Sys2Proof.Machine
end

