-- ==== Sys2Proof/Machine/Alu.lean ====
section
/-! DEFINITION. The meanings of ADD, SUB, MUL, DIV, AND, OR, XOR and CMP (spec/42_alu.md). Each runs
inside R94: `x` and the PC are those of the executing thread. -/

namespace Sys2Proof.Machine

/-- The seven register-class instructions (R102): both operands are read before `rd` is written
(R13), the unit's result is written, its flag outputs are dropped (R103), `next_pc` is `pc + 1`. -/
def aluInstr (op : AluOp) (rd rs1 rs2 : RegIdx) (s : State) : State :=
  advance (writeX s rd (aluUnit op (x s rs1) (x s rs2)).result)

/-- ADD (R105). -/
def execAdd (rd rs1 rs2 : RegIdx) (s : State) : Result :=
  .next (aluInstr .add rd rs1 rs2 s)

/-- SUB (R106). -/
def execSub (rd rs1 rs2 : RegIdx) (s : State) : Result :=
  .next (aluInstr .sub rd rs1 rs2 s)

/-- MUL (R107). -/
def execMul (rd rs1 rs2 : RegIdx) (s : State) : Result :=
  .next (aluInstr .mul rd rs1 rs2 s)

/-- DIV (R108). -/
def execDiv (rd rs1 rs2 : RegIdx) (s : State) : Result :=
  .next (aluInstr .div rd rs1 rs2 s)

/-- AND (R109). -/
def execAnd (rd rs1 rs2 : RegIdx) (s : State) : Result :=
  .next (aluInstr .and rd rs1 rs2 s)

/-- OR (R110). -/
def execOr (rd rs1 rs2 : RegIdx) (s : State) : Result :=
  .next (aluInstr .or rd rs1 rs2 s)

/-- XOR (R111). -/
def execXor (rd rs1 rs2 : RegIdx) (s : State) : Result :=
  .next (aluInstr .xor rd rs1 rs2 s)

/-- CMP's comparison of its two operands (R112). -/
def comparedBy (rs1 rs2 : RegIdx) (s : State) : Comparison := compareSigned (x s rs1) (x s rs2)

/-- CMP (R112): the comparison is computed, then discarded, whatever it is; only the PC moves. -/
def execCmp (rs1 rs2 : RegIdx) (s : State) : Result :=
  match comparedBy rs1 rs2 s with
  | .equal => .next (advance s)
  | .less => .next (advance s)
  | .greater => .next (advance s)

end Sys2Proof.Machine
end

