-- ==== Sys2Proof/Machine/Control.lean ====
section
/-! DEFINITION. The meanings of BR, BRz, BRnz, BRn, BRp and RET (spec/44_control.md). -/

namespace Sys2Proof.Machine

/-- A branch that is taken goes to its target, one that is not to `pc + 1` (R117, R118). -/
def branchIf (taken : Bool) (imm : Word) (s : State) : State :=
  if taken then setPc s (branchTarget s.ctx.pc imm) else advance s

/-- BR (R120): always taken. -/
def execBr (imm : Word) (s : State) : Result := .next (branchIf true imm s)

/-- BRz (R121): taken when `x[rs1]` is 0. -/
def execBrz (rs1 : RegIdx) (imm : Word) (s : State) : Result :=
  .next (branchIf (takenZ (x s rs1)) imm s)

/-- BRnz (R122): by the parameter `BRNZ_READING`. -/
def execBrnz (rs1 : RegIdx) (imm : Word) (s : State) : Result :=
  .next (branchIf (takenNZ s.cfg.brnzReading (x s rs1)) imm s)

/-- BRn (R123): taken when `x[rs1]` is negative. -/
def execBrn (rs1 : RegIdx) (imm : Word) (s : State) : Result :=
  .next (branchIf (takenN (x s rs1)) imm s)

/-- BRp (R124): taken when `x[rs1]` is positive. -/
def execBrp (rs1 : RegIdx) (imm : Word) (s : State) : Result :=
  .next (branchIf (takenP (x s rs1)) imm s)

/-- RET (R125): the thread halts; its PC does not advance. -/
def execRet (s : State) : Result := .next (deactivate s)

end Sys2Proof.Machine
end

