-- ==== Sys2Proof/Machine/LoadStore.lean ====
section
/-! DEFINITION. The meanings of LDR and STR (spec/43_load_store.md). -/

namespace Sys2Proof.Machine

/-- The request that a load queues (R57, R115). -/
def loadRequest (s : State) (ea : Word) : MemoryRequest :=
  { address := ea, data := none, write := false, threadId := s.ctx.threadId, blockId := s.ctx.blockId }

/-- The request that a store queues (R57, R116). -/
def storeRequest (s : State) (ea v : Word) : MemoryRequest :=
  { address := ea, data := some v, write := true, threadId := s.ctx.threadId, blockId := s.ctx.blockId }

/-- LDR (R115): the word at `x[rs1] + imm`, read through the cache, 0 out of range, into `rd`; one
read request is queued, for an address out of range too (D26). -/
def execLdr (rd rs1 : RegIdx) (imm : Word) (s : State) : Result :=
  let ea := effectiveAddress (x s rs1) imm
  let r := cacheRead s ea
  .next (advance (enqueue (writeX r.state rd r.data) (loadRequest s ea)))

/-- STR (R116): `x[rd]` to the word at `x[rs1] + imm`, through the cache and to global memory at once,
dropped out of range; one write request is queued, for an address out of range too (D26). -/
def execStr (rd rs1 : RegIdx) (imm : Word) (s : State) : Result :=
  let ea := effectiveAddress (x s rs1) imm
  let v := x s rd
  .next (advance (enqueue (cacheWrite s ea v).state (storeRequest s ea v)))

end Sys2Proof.Machine
end

