-- ==== Sys2Proof/Machine/NopConst.lean ====
section
/-! DEFINITION. The meanings of NOP, of the unassigned opcode bytes, and of CONST
(spec/41_nop_const.md, spec/30_encoding.md R77). -/

namespace Sys2Proof.Machine

/-- NOP (R100): `next_pc` is `pc + 1`; no register, memory, cache or queue effect. -/
def execNop (s : State) : Result := .next (advance s)

/-- The unassigned opcode bytes 0x12 and 0x13: they execute as NOP (R77, R100). -/
def execNopU12 (s : State) : Result := .next (advance s)

/-- The unassigned opcode bytes 0x14 to 0x17: they execute as NOP (R77, R100). -/
def execNopU14 (s : State) : Result := .next (advance s)

/-- The unassigned opcode bytes 0x18 to 0x1F: they execute as NOP (R77, R100). -/
def execNopU18 (s : State) : Result := .next (advance s)

/-- The unassigned opcode bytes 0x20 to 0x3F: they execute as NOP (R77, R100). -/
def execNopU20 (s : State) : Result := .next (advance s)

/-- The unassigned opcode bytes 0x40 to 0x7F: they execute as NOP (R77, R100). -/
def execNopU40 (s : State) : Result := .next (advance s)

/-- The unassigned opcode bytes 0x80 to 0xFF: they execute as NOP (R77, R100). -/
def execNopU80 (s : State) : Result := .next (advance s)

/-- CONST (R101): the sign-extended immediate into `rd`. -/
def execConst (rd : RegIdx) (imm : Word) (s : State) : Result := .next (advance (writeX s rd imm))

end Sys2Proof.Machine
end

