-- ==== Sys2Proof/Machine/Dispatch.lean ====
section
/-! DEFINITION. The dispatch: each instruction to its meaning. -/

namespace Sys2Proof.Machine

def exec (i : Instr) (s : State) : Host.Outcome State Fault Refusal :=
  match i with
  | .nop => Sys2Proof.Machine.execNop s
  | .const rd imm => Sys2Proof.Machine.execConst rd imm s
  | .add rd rs1 rs2 => Sys2Proof.Machine.execAdd rd rs1 rs2 s
  | .sub rd rs1 rs2 => Sys2Proof.Machine.execSub rd rs1 rs2 s
  | .mul rd rs1 rs2 => Sys2Proof.Machine.execMul rd rs1 rs2 s
  | .div rd rs1 rs2 => Sys2Proof.Machine.execDiv rd rs1 rs2 s
  | .and rd rs1 rs2 => Sys2Proof.Machine.execAnd rd rs1 rs2 s
  | .or rd rs1 rs2 => Sys2Proof.Machine.execOr rd rs1 rs2 s
  | .xor rd rs1 rs2 => Sys2Proof.Machine.execXor rd rs1 rs2 s
  | .ldr rd rs1 imm => Sys2Proof.Machine.execLdr rd rs1 imm s
  | .str rd rs1 imm => Sys2Proof.Machine.execStr rd rs1 imm s
  | .br imm => Sys2Proof.Machine.execBr imm s
  | .brz rs1 imm => Sys2Proof.Machine.execBrz rs1 imm s
  | .brnz rs1 imm => Sys2Proof.Machine.execBrnz rs1 imm s
  | .brn rs1 imm => Sys2Proof.Machine.execBrn rs1 imm s
  | .brp rs1 imm => Sys2Proof.Machine.execBrp rs1 imm s
  | .cmp rs1 rs2 => Sys2Proof.Machine.execCmp rs1 rs2 s
  | .ret => Sys2Proof.Machine.execRet s
  | .nopU12 => Sys2Proof.Machine.execNopU12 s
  | .nopU14 => Sys2Proof.Machine.execNopU14 s
  | .nopU18 => Sys2Proof.Machine.execNopU18 s
  | .nopU20 => Sys2Proof.Machine.execNopU20 s
  | .nopU40 => Sys2Proof.Machine.execNopU40 s
  | .nopU80 => Sys2Proof.Machine.execNopU80 s

end Sys2Proof.Machine
end

