-- ==== Sys2Proof/Machine/Engine.lean ====
section
/-! DEFINITION. The warp scheduler and the execution cycle (spec/40_execution_cycle.md): fetch, the
step of one thread, the lanes of a cycle, the choice of a warp, `executeCycle` and `run`. -/

namespace Sys2Proof.Machine

/-! ### Fetch and the step of one thread -/

/-- The word at a PC, if the PC is below `IMEM_LEN` by its unsigned reading (R38, R93). -/
def fetch? (s : State) (pc : Word) : Option Word := s.imem[pc.toNat]?

/-- Builds the execution context of a thread (R94). -/
def enterThread (s : State) (t : Thread) : State :=
  { s with ctx := { threadId := t.threadId, blockId := t.blockId, pc := t.pc, active := true } }

/-- After the instruction: "write the resulting PC back to the thread, refresh the thread's register
snapshot" (R94, R24), clear its active flag if it deactivated itself (R125), and drop the context. -/
def leaveThread (s : State) (r : ThreadRef) : State :=
  { updateThread s r fun t =>
      { t with pc := s.ctx.pc, active := s.ctx.active, regs := bankOf s.rf s.ctx.threadId }
    with ctx := ExecContext.idle }

/-- "if PC ≥ instruction-memory length, deactivate and skip" (R93). -/
def overrunThread (s : State) (r : ThreadRef) : State :=
  updateThread s r fun t => { t with active := false }

/-! ### What the lanes of a cycle access

The lanes act in ascending order (R92, R128, D33): each does its cache access and queues its request at
its own turn (R57). Where two lanes of a cycle access one in-range word and one of them stores, the
spec leaves open two things only, and asks a model to admit each outcome: the word that a load of the
racing word returns (R65, U1), and which of several stored words is the final one (R66, U2). Nothing
else depends on a race (U3): these two are settled by free values, the first right after the load, the
second at the end of the cycle (notes/assumptions/4.md). -/

/-- The request that an instruction queues when the thread in the context executes it (R57). -/
def instrRequest? (i : Instr) (s : State) : Option MemoryRequest :=
  match i with
  | .ldr _ rs1 imm => some (loadRequest s (effectiveAddress (x s rs1) imm))
  | .str rd rs1 imm => some (storeRequest s (effectiveAddress (x s rs1) imm) (x s rd))
  | .nop => none
  | .const _ _ => none
  | .add _ _ _ => none
  | .sub _ _ _ => none
  | .mul _ _ _ => none
  | .div _ _ _ => none
  | .and _ _ _ => none
  | .or _ _ _ => none
  | .xor _ _ _ => none
  | .br _ => none
  | .brz _ _ => none
  | .brnz _ _ => none
  | .brn _ _ => none
  | .brp _ _ => none
  | .cmp _ _ => none
  | .ret => none
  | .nopU12 => none
  | .nopU14 => none
  | .nopU18 => none
  | .nopU20 => none
  | .nopU40 => none
  | .nopU80 => none

/-- The request that the lane at place `r` queues in this cycle, if it does. It depends on the lane's
own registers only (R95), so it is known before the lanes run. -/
def laneRequest? (s : State) (r : ThreadRef) : Option MemoryRequest :=
  match threadAt? s r with
  | some t =>
    if t.active then
      match fetch? s t.pc with
      | some w => instrRequest? (decode s.cfg.opcodeMap w) (enterThread s t)
      | none => none
    else none
  | none => none

/-- The words that the given lanes store to an address in this cycle, in lane order. -/
def laneStores (s : State) (lanes : List ThreadRef) (a : Nat) : List Word :=
  queuedStores (lanes.filterMap (laneRequest? s)) a

/-- What the spec leaves open for the load of the lane at place `r`, beside the word that it reads at
its turn: nothing, unless another lane stores to the same in-range word in this cycle; then the word
before the cycle's stores and each word that another lane stores (R65, R67, U1). -/
def openWords (s : State) (lanes : List ThreadRef) (r : ThreadRef) : List Word :=
  match laneRequest? s r with
  | none => []
  | some q =>
    if q.write || !inRange s q.address then []
    else
      match laneStores s (lanes.filter (· != r)) q.address.toNat with
      | [] => []
      | v :: vs => (cacheRead s q.address).data :: v :: vs

/-- A lane of the cycle: its thread's place, and the words left open for its load. -/
structure Lane where
  place : ThreadRef
  openWords : List Word
deriving DecidableEq, Repr

/-- The lanes of a cycle in ascending order (R92, D33). -/
def planLanes (s : State) (lanes : List ThreadRef) : List Lane :=
  lanes.map fun r => { place := r, openWords := openWords s lanes r }

/-- One of the words left open; the first of them where the choice is 0. -/
def pickWord (choice : Nat) (first : Word) (others : List Word) : Word :=
  ((first :: others)[choice % (others.length + 1)]?).getD first

/-- The register that an instruction writes, if it writes one: "each writing only the register named
by its rd field" (R18). -/
def destination? : Instr → Option RegIdx
  | .const rd _ => some rd
  | .add rd _ _ => some rd
  | .sub rd _ _ => some rd
  | .mul rd _ _ => some rd
  | .div rd _ _ => some rd
  | .and rd _ _ => some rd
  | .or rd _ _ => some rd
  | .xor rd _ _ => some rd
  | .ldr rd _ _ => some rd
  | .str _ _ _ => none
  | .nop => none
  | .br _ => none
  | .brz _ _ => none
  | .brnz _ _ => none
  | .brn _ _ => none
  | .brp _ _ => none
  | .cmp _ _ => none
  | .ret => none
  | .nopU12 => none
  | .nopU14 => none
  | .nopU18 => none
  | .nopU20 => none
  | .nopU40 => none
  | .nopU80 => none

/-- After an instruction for whose load words are left open, its register holds one of them or the word
that it read at its turn: a free choice (U1). Where none is left open, nothing changes. -/
def settleLoad (i : Instr) (words : List Word) (s : State) : State :=
  { s with rf :=
      match destination? i, words with
      | some rd, v :: vs =>
        (writeX s rd (pickWord (Config.racingLoad s.cycle s.ctx.threadId) (x s rd) (v :: vs))).rf
      | some _, [] => s.rf
      | none, _ => s.rf }

/-! ### The lanes -/

/-- `stepThread(t)` for the active thread `t` of a lane (R94). -/
def stepThread (s : State) (l : Lane) (t : Thread) : Result :=
  match fetch? s t.pc with
  | none => .next (overrunThread s l.place)
  | some w =>
    andThen (exec (decode s.cfg.opcodeMap w) (enterThread s t)) fun s' =>
      .next (leaveThread (settleLoad (decode s.cfg.opcodeMap w) l.openWords s') l.place)

/-- One lane of the cycle: an inactive thread is skipped and not changed (R91, R92). A place where no
thread stands is skipped too; launches make none (notes/assumptions/15.md). -/
def stepLane (s : State) (l : Lane) : Result :=
  match threadAt? s l.place with
  | some t => if t.active then stepThread s l t else .next s
  | none => .next s

/-- The lanes one after another (R92). -/
def runLanes : List Lane → State → Result
  | [], s => .next s
  | l :: ls, s => andThen (stepLane s l) (runLanes ls)

/-! ### The scheduler -/

/-- Some member of warp `k` is active. -/
def warpRunnable (s : State) (k : Nat) : Bool :=
  match s.warps[k]? with
  | some w => w.members.any (threadActive s)
  | none => false

/-- The warp indices in the order of the round-robin scan: `(rr + i) mod n` (R89). -/
def scanOrder (s : State) : List Nat :=
  (List.range s.warps.length).map fun i => (s.rr + i) % s.warps.length

/-- The `active` flag of each listed warp cleared (R87, R89). -/
def retireWarps (s : State) (ks : List Nat) : State :=
  { s with warps := ks.foldl (fun ws k => ws.modify k fun w => { w with active := false }) s.warps }

/-- What `getNextWarp()` returns: the picked warp's index, or none, and the scheduler's new state. -/
structure Selection where
  state : State
  warp : Option Nat

/-- `getNextWarp()` (R89): the first warp of the scan with an active thread; the warps skipped before
it lose their `active` flag; `rr` moves past the picked one. -/
def getNextWarp (s : State) : Selection :=
  let skipped := (scanOrder s).takeWhile fun k => !warpRunnable s k
  match (scanOrder s).find? (warpRunnable s) with
  | some k => { state := { retireWarps s skipped with rr := (k + 1) % s.warps.length }, warp := some k }
  | none => { state := retireWarps s skipped, warp := none }

/-- `isComplete()`: no member of any warp is active (R90). -/
def isComplete (s : State) : Bool := s.warps.all fun w => !w.members.any (threadActive s)

/-- `executeCycle()` would return false (R91): the cycle budget is used up, or no thread is active. -/
def halted (s : State) : Bool := decide (s.maxCycles ≤ s.cycle) || isComplete s

/-- `isWarpDiverged(warp)`: two active threads of the warp have different PCs (R88). Nothing reads
it. -/
def isWarpDiverged (s : State) (w : Warp) : Bool :=
  let pcs := (w.members.filterMap (threadAt? s)).filterMap fun t => if t.active then some t.pc else none
  pcs.any fun p => pcs.any fun q => p != q

/-- The three warp states of the document (R87). -/
inductive WarpStatus where
  | activeWithRunnableThreads
  | activeWithNoRunnableThreads
  | inactive
deriving DecidableEq, Repr

/-- The status of a warp (R87). -/
def warpStatus (s : State) (w : Warp) : WarpStatus :=
  if w.active then
    if w.members.any (threadActive s) then .activeWithRunnableThreads else .activeWithNoRunnableThreads
  else .inactive

/-! ### The final word of racing stores -/

/-- Global memory and the resident line, if there is one, with the word at `a` replaced. -/
def putWord (s : State) (a v : Word) : State :=
  match residentLine? s a with
  | some l =>
    globalWrite
      (setLine s (cacheIndex s.cfg a) { l with data := l.data.set (cacheOffset a).val v }) a.toNat v
  | none => globalWrite s a.toNat v

/-- Where two or more of the cycle's requests store to the in-range word `a`, the final word in memory
and cache is one of the stored ones: a free choice (R66, R67, U2). The drain leaves the last one. -/
def settleWord (q : List MemoryRequest) (s : State) (a : Word) : State :=
  match (queuedStores q a.toNat).reverse with
  | [] => s
  | [_] => s
  | last :: v :: vs =>
    if inRange s a then putWord s a (pickWord (Config.racingStore s.cycle a.toNat) last (v :: vs))
    else s

/-- The final words of all racing stores of the cycle whose requests are `q`. -/
def settleStores (q : List MemoryRequest) (s : State) : State :=
  let settled := q.foldl (fun s r => settleWord q s r.address) s
  { s with mem := settled.mem, cache := settled.cache }

/-! ### One cycle -/

/-- `warp.pc` after the warp's cycle: the PC of its lowest-lane thread that is still active, unchanged
if none is (R87). -/
def refreshWarpPc (s : State) (k : Nat) : State :=
  { s with warps := s.warps.modify k fun w =>
      match (w.members.filterMap (threadAt? s)).find? (·.active) with
      | some t => { w with pc := t.pc }
      | none => w }

/-- The end of a cycle that ran warp `k` (R91): the controller's drain, with the final words of racing
stores, the warp PC, the counters. -/
def endCycle (s : State) (k : Nat) : State :=
  let s' := refreshWarpPc (settleStores s.mcQueue (processRequests s)) k
  { s' with cycle := s'.cycle + 1, ticks := s'.ticks + 1 }

/-- The members of warp `k` in lane order. -/
def membersOf (s : State) (k : Nat) : List ThreadRef :=
  match s.warps[k]? with
  | some w => w.members
  | none => []

/-- `executeCycle()` (R91). Where it returns false nothing changes: the next state is the same state
(notes/assumptions/9.md); `halted` is the negation of what it returns. -/
def executeCycle (s : State) : Result :=
  if halted s then .next s
  else
    match (getNextWarp s).warp with
    | none => .next s
    | some k =>
      let s1 := (getNextWarp s).state
      andThen (runLanes (planLanes s1 (membersOf s1 k)) s1) fun s2 => .next (endCycle s2 k)

/-- The boolean that `executeCycle()` returns (R91). -/
def executeCycleReturns (s : State) : Bool := !halted s

/-! ### Running to the end -/

/-- At most `n` cycles. -/
def runCycles : Nat → State → Result
  | 0, s => .next s
  | n + 1, s => if halted s then .next s else andThen (executeCycle s) (runCycles n)

/-- `run()` (R97): cycles until `executeCycle()` returns false. Each cycle that runs adds 1 to `cycle`,
so at most `maxCycles − cycle` of them run. -/
def run (s : State) : Result := runCycles (s.maxCycles - s.cycle) s

/-- How a run ends (R98). -/
inductive EndKind where
  | complete
  | budget
deriving DecidableEq, Repr

/-- The end kind of a halted state; none while the engine can still run a cycle (R98). -/
def endKind (s : State) : Option EndKind :=
  if isComplete s then some .complete
  else if s.maxCycles ≤ s.cycle then some .budget
  else none

end Sys2Proof.Machine
end

