-- ==== Sys2Proof/Machine/HostOps.lean ====
section
/-! DEFINITION. The host interface (spec/70_reset_and_hazards.md R141 to R145): every operation the
host can do between cycles, but for `executeCycle` and `run`, which are in Machine/Engine.lean. -/

namespace Sys2Proof.Machine

/-! ### Construction, reset and the program -/

/-- Construction with the parameters of R141. -/
def construct (cfg : Config) (maxCycles : Nat) : State := State.powerOn cfg maxCycles

/-- `reset()` (R142, D39): the power-on state with the loaded program, the configuration and
`maxCycles` kept. -/
def hostReset (s : State) : State := { State.powerOn s.cfg s.maxCycles with imem := s.imem }

/-- The host sets `maxCycles`, at any time between cycles (D7). -/
def setMaxCycles (s : State) (n : Nat) : State := { s with maxCycles := n }

/-- `loadInstructions(words)` (R38, R145, R148): replaces instruction memory. A list of 2^32 words or
more is not one the host may send (D6; notes/assumptions/11.md). -/
def loadInstructions (words : List Word) (s : State) : Result :=
  if words.length < imemBound then .next { s with imem := words }
  else .refused (.programTooLong words.length)

/-! ### Launch (R85, R86) -/

/-- What the host gives for a thread; registers it does not supply stay as they are (R85, D37). -/
structure ThreadInit where
  threadId : Nat
  pc : Word := 0
  active : Bool := true
  registers : Vector (Option Word) 16 := Vector.replicate 16 none
deriving DecidableEq, Repr

/-- What the host gives for a block (R85). -/
structure BlockInit where
  blockId : Nat
  threads : List ThreadInit
deriving DecidableEq, Repr

/-- The thread ids of a launch, in order. -/
def launchIds (bs : List BlockInit) : List Nat := bs.flatMap fun b => b.threads.map (·.threadId)

/-- The first thread id that an earlier thread of the launch has too (R85, D37). -/
def duplicateId? : List Nat → Option Nat
  | [] => none
  | i :: is => if is.contains i then some i else duplicateId? is

/-- `initializeThread`, then the registers that the host supplies (R16, R85). -/
def allocateThread (s : State) (t : ThreadInit) : State :=
  (List.finRange 16).foldl
    (fun s i =>
      match t.registers[i.val] with
      | some v => writeReg s t.threadId i v
      | none => s)
    (initializeThread s t.threadId)

/-- The threads of a launch allocated in order (R85). -/
def allocateAll (s : State) (bs : List BlockInit) : State :=
  bs.foldl (fun s b => b.threads.foldl allocateThread s) s

/-- The thread that a launch registers, its snapshot taken from the register file (R85, R24). -/
def launchedThread (s : State) (blockId : Nat) (t : ThreadInit) : Thread :=
  { threadId := t.threadId, blockId := blockId, pc := t.pc, regs := bankOf s.rf t.threadId,
    active := t.active }

/-- The block that a launch registers (R85). -/
def launchedBlock (s : State) (b : BlockInit) : Block :=
  { blockId := b.blockId, threads := b.threads.map (launchedThread s b.blockId) }

/-- Consecutive groups of 32, the last one possibly smaller; `fuel` bounds the number of groups
(R86). -/
def chunksOf32 {α : Type} : (fuel : Nat) → List α → List (List α)
  | 0, _ => []
  | _ + 1, [] => []
  | fuel + 1, a :: l =>
    (a :: l).take warpSize :: chunksOf32 fuel ((a :: l).drop warpSize)

/-- The members of the warps of block number `bi`, which has `n` threads (R86). -/
def blockWarpMembers (bi n : Nat) : List (List ThreadRef) :=
  chunksOf32 n ((List.range n).map fun ti => { block := bi, thread := ti })

/-- The members of all warps: the blocks in order, the groups in order (R86). -/
def launchMembers : (bi : Nat) → List Block → List (List ThreadRef)
  | _, [] => []
  | bi, b :: bs => blockWarpMembers bi b.threads.length ++ launchMembers (bi + 1) bs

/-- The PC of the thread at a place, 0 where none stands. -/
def pcAt (s : State) (r : ThreadRef) : Word :=
  match threadAt? s r with
  | some t => t.pc
  | none => 0

/-- A warp at its formation: `active` is true and `pc` is the PC of lane 0 (R87). -/
def formedWarp (s : State) (warpId : Nat) (members : List ThreadRef) : Warp :=
  { warpId := warpId, members := members, active := true,
    pc := match members with
      | [] => 0
      | r :: _ => pcAt s r }

/-- `formWarps`: warps numbered from 0 (R86). -/
def formWarps (s : State) : List Warp :=
  (launchMembers 0 s.blocks).zipIdx.map fun e => formedWarp s e.2 e.1

/-- `initializeBlocks` of a launch whose thread ids are unique (R85). -/
def launch (bs : List BlockInit) (s : State) : State :=
  let allocated := allocateAll s bs
  let placed := { allocated with blocks := bs.map (launchedBlock allocated) }
  { placed with warps := formWarps placed, rr := 0 }

/-- `initializeBlocks(blocks)` (R85): a launch that repeats a thread id is refused (D37, H1). -/
def initializeBlocks (bs : List BlockInit) (s : State) : Result :=
  match duplicateId? (launchIds bs) with
  | some tid => .refused (.duplicateThreadId tid)
  | none => .next (launch bs s)

/-! ### Reading the state out -/

/-- `getMemory()`: a copy of all `MEM_WORDS` words (R145). -/
def getMemory (s : State) : List Word := (List.range s.cfg.memWords).map (globalRead s)

/-- What `getState()` and `run()` give back (R97, R145). -/
structure GPUState where
  memory : List Word
  threads : List Thread
  blocks : List Block
  cycle : Nat
deriving DecidableEq, Repr

/-- `getState()` (R145): a read-only snapshot. R97 and R145 name its `threads` and give them no order:
DESIGN CHOICE, block by block in host order, each block's threads in lane order
(notes/assumptions/18.md). -/
def getState (s : State) : GPUState :=
  { memory := getMemory s
    threads := s.blocks.flatMap (·.threads)
    blocks := s.blocks
    cycle := s.cycle }

/-- The scheduler's part of the statistics (R139, D43). -/
structure SchedulerStats where
  totalWarps : Nat
  activeWarps : Nat
  ticks : Nat
deriving DecidableEq, Repr

/-- The cache's part of the statistics (R55, R139). -/
structure CacheStats where
  hits : Nat
  misses : Nat
  hitRate : Rat
deriving DecidableEq, Repr

/-- What `getStats()` gives back (R139). -/
structure Stats where
  cycle : Nat
  scheduler : SchedulerStats
  cache : CacheStats
deriving DecidableEq, Repr

/-- `hits / (hits + misses)` as an exact rational, 0 when nothing was accessed (R55, D28). -/
def hitRate (hits misses : Nat) : Rat :=
  if hits + misses = 0 then 0 else (hits : Rat) / ((hits + misses : Nat) : Rat)

/-- `getStats()` (R139). -/
def getStats (s : State) : Stats :=
  { cycle := s.cycle
    scheduler :=
      { totalWarps := s.warps.length
        activeWarps := s.warps.countP fun w => w.members.any (threadActive s)
        ticks := s.ticks }
    cache :=
      { hits := s.cache.hits
        misses := s.cache.misses
        hitRate := hitRate s.cache.hits s.cache.misses } }

/-! ### The direct memory path and the register accessors -/

/-- Direct `read(a)`: neither the cache nor the queue nor a counter is used (R61). -/
def directRead (s : State) (a : Nat) : Word := globalRead s a

/-- Direct `write(a, v)`: a word of a resident cache line becomes stale by it (R61, R56, R149). -/
def directWrite (s : State) (a : Nat) (v : Word) : State := globalWrite s a v

/-- `getRegisters(threadId)`: the 16 values, 16 zeros for an unknown thread (R19). -/
def getRegisters (s : State) (tid : Nat) : RegBank := bankOf s.rf tid

/-- `clearThread(threadId)`: removes one thread's registers (R19). DESIGN CHOICE: the snapshot
`Thread.regs` of a thread that is still launched keeps its old value (notes/assumptions/19.md). -/
def clearThread (s : State) (tid : Nat) : State := { s with rf := Table.del s.rf tid }

/-- `clearAll()`: removes every thread's registers (R19). DESIGN CHOICE: the snapshots of threads that
are still launched keep their old values (notes/assumptions/19.md). -/
def clearAll (s : State) : State := { s with rf := [] }

/-! ### Placing one instruction -/

/-- The PC of the next fetch, if the next cycle runs a warp whose first active lane fetches a word. -/
def nextFetchPc? (s : State) : Option Word :=
  if halted s then none
  else
    match (getNextWarp s).warp with
    | none => none
    | some k =>
      match ((membersOf s k).filterMap (threadAt? s)).find? (·.active) with
      | some t => if t.pc.toNat < s.imem.length then some t.pc else none
      | none => none

/-- The launch that lets a program run where nothing is launched: one thread, id 0, from PC 0. -/
def singleThreadLaunch : List BlockInit := [{ blockId := 0, threads := [{ threadId := 0 }] }]

/-- The state in which the next cycle fetches the given word. Where a thread is about to fetch, its
word of instruction memory is replaced. Otherwise the word is loaded as a one-word program, one
thread is launched, and the cycle budget is made to admit a cycle: what the host does in R144 before
a run (notes/assumptions/8.md). -/
def placeInstruction (s : State) (w : Word) : State :=
  match nextFetchPc? s with
  | some pc => { s with imem := s.imem.set pc.toNat w }
  | none =>
    launch singleThreadLaunch
      { s with imem := [w], maxCycles := max s.maxCycles (s.cycle + 1) }

end Sys2Proof.Machine
end

