-- ==== Sys2Proof/Machine/Step.lean ====
section
/-! DEFINITION. The core's one step (spec/40_execution_cycle.md R83): one call of `executeCycle`. -/

namespace Sys2Proof.Machine

/-- One clock cycle (R6, R83, R91). -/
def step (s : State) : Host.Outcome State Fault Refusal := executeCycle s

/-- `s` with the instruction whose low `nbits` bits are those of `w`, its other bits 0, where the next
step fetches. -/
def State.withFetchWord (s : State) (nbits w : Nat) : State :=
  placeInstruction s (BitVec.ofNat 32 (w % 2 ^ nbits))

end Sys2Proof.Machine
end

