-- ==== Sys2Proof/Safety.lean ====
section
/-! DEFINITION. What counts as a safe state and a safe step of the core, in the terms that the
statements use. The core never faults (spec/60_exceptions.md R126), so safety is that every step
answers a next state and that the invariants below go on holding. -/

namespace Sys2Proof.Machine

/-- The step answers a next state. -/
def StepCompletes (s : State) : Prop := ∃ t, step s = .next t

/-- Global memory has its canonical form and lists no word outside the configured size (R31, R39). -/
abbrev MemoryInv (s : State) : Prop := Memory.wf s.mem ∧ ∀ e ∈ s.mem, e.1 < s.cfg.memWords

/-- The valid cache lines are listed by rising index below `CACHE_LINES`, each holds a memory line
that starts in range, and each of its words equals the memory word it stands for, out-of-range words
0 (R29, R47, R50, R56). A host write to a resident word breaks it (R56, H2). -/
abbrev CacheInv (s : State) : Prop :=
  Table.Sorted s.cache.lines ∧
  ∀ e ∈ s.cache.lines,
    e.1 < s.cfg.cacheLines ∧ lineBase s.cfg e.2.tag e.1 < s.cfg.memWords ∧
    ∀ k : Fin 4, e.2.data[k.val] = globalRead s (lineBase s.cfg e.2.tag e.1 + k.val)

/-- Between cycles the controller's queue is empty (R30) and no thread is being stepped. -/
abbrev QuietInv (s : State) : Prop := s.mcQueue = [] ∧ s.ctx = ExecContext.idle

/-- The round-robin index is below the number of warps, or 0 where there is none (R27). -/
abbrev SchedulerInv (s : State) : Prop := s.rr < s.warps.length ∨ (s.warps = [] ∧ s.rr = 0)

/-- All threads, block by block (R25). -/
def allThreads (s : State) : List Thread := s.blocks.flatMap (·.threads)

/-- Thread ids are unique across all blocks (R20, D37). -/
abbrev UniqueIds (s : State) : Prop := ((allThreads s).map (·.threadId)).Nodup

/-- Every thread's snapshot equals its registers in the register file (R24). -/
abbrev SnapshotInv (s : State) : Prop :=
  UniqueIds s ∧ ∀ t ∈ allThreads s, t.regs = bankOf s.rf t.threadId

/-- A thread's block id is that of the block that owns it (R20, R85). -/
abbrev OwnershipInv (s : State) : Prop := ∀ b ∈ s.blocks, ∀ t ∈ b.threads, t.blockId = b.blockId

/-- A warp holds 1 to 32 existing threads of one block, and no thread stands in two places
(R20, R26, R86). -/
abbrev WarpInv (s : State) : Prop :=
  (s.warps.flatMap (·.members)).Nodup ∧
  ∀ w ∈ s.warps,
    1 ≤ w.members.length ∧ w.members.length ≤ warpSize ∧
    (∀ r ∈ w.members, (threadAt? s r).isSome) ∧
    ∀ r ∈ w.members, ∀ q ∈ w.members, r.block = q.block

/-- Within a cycle: every word that a queued store names already holds what the last of them stored
(R52 write-through, R58). -/
abbrev QueueAgrees (s : State) : Prop :=
  ∀ a, a < s.cfg.memWords → ∀ v, (queuedStores s.mcQueue a).getLast? = some v → globalRead s a = v

/-- The invariant of the core between cycles. -/
abbrev Inv (s : State) : Prop :=
  s.cfg.wf = true ∧ s.imem.length < imemBound ∧ Table.Sorted s.rf ∧ MemoryInv s ∧ CacheInv s ∧
  QuietInv s ∧ SchedulerInv s ∧ SnapshotInv s ∧ OwnershipInv s ∧ WarpInv s

/-- The parts of the state that no instruction touches (R33, R38, R70): all but the register file,
global memory, the cache, the queue and the executing thread's context. -/
structure SameEngine (s t : State) : Prop where
  cfg : t.cfg = s.cfg
  imem : t.imem = s.imem
  blocks : t.blocks = s.blocks
  warps : t.warps = s.warps
  rr : t.rr = s.rr
  ticks : t.ticks = s.ticks
  cycle : t.cycle = s.cycle
  maxCycles : t.maxCycles = s.maxCycles
  mcStats : t.mcStats = s.mcStats

/-- Global memory, the cache and the controller's queue are unchanged. -/
structure SameMemory (s t : State) : Prop where
  mem : t.mem = s.mem
  cache : t.cache = s.cache
  mcQueue : t.mcQueue = s.mcQueue

/-- Every register of every thread but register `r` of thread `tid` is unchanged (R18). -/
def OnlyRegister (s t : State) (tid : Nat) (r : RegIdx) : Prop :=
  ∀ tid' r', (tid' ≠ tid ∨ r' ≠ r) → readReg t tid' r' = readReg s tid' r'

/-- The context of the executing thread is unchanged but for its PC. -/
def PcBecomes (s t : State) (pc : Word) : Prop := t.ctx = { s.ctx with pc := pc }

/-- The instruction answers a next state in which register `rd` of the executing thread holds `v`, the
PC is `pc + 1`, and nothing else has changed: no other register, no memory, cache or queue state, no
engine state (R18, R102). -/
def WritesRegister (i : Instr) (s : State) (rd : RegIdx) (v : Word) : Prop :=
  ∃ t, exec i s = .next t ∧ x t rd = v ∧ OnlyRegister s t s.ctx.threadId rd ∧
    PcBecomes s t (s.ctx.pc + 1) ∧ SameMemory s t ∧ SameEngine s t

/-- The instruction answers a next state in which the executing thread's PC is `pc` and nothing else
has changed: no register, no memory, cache or queue state, no engine state. -/
def MovesPc (i : Instr) (s : State) (pc : Word) : Prop :=
  ∃ t, exec i s = .next t ∧ PcBecomes s t pc ∧ t.rf = s.rf ∧ SameMemory s t ∧ SameEngine s t

/-- The instruction is a load or a store, the only ones that access global memory (R37). -/
def accessesMemory : Instr → Bool
  | .ldr _ _ _ => true
  | .str _ _ _ => true
  | .nop => false
  | .const _ _ => false
  | .add _ _ _ => false
  | .sub _ _ _ => false
  | .mul _ _ _ => false
  | .div _ _ _ => false
  | .and _ _ _ => false
  | .or _ _ _ => false
  | .xor _ _ _ => false
  | .br _ => false
  | .brz _ _ => false
  | .brnz _ _ => false
  | .brn _ _ => false
  | .brp _ _ => false
  | .cmp _ _ => false
  | .ret => false
  | .nopU12 => false
  | .nopU14 => false
  | .nopU18 => false
  | .nopU20 => false
  | .nopU40 => false
  | .nopU80 => false

/-- The fields that the instruction's row of R75 uses agree in the two words. -/
def UsedFieldsAgree (op : Option Opcode) (w v : Word) : Prop :=
  match op with
  | none => True
  | some .nop => True
  | some .ret => True
  | some .const => rdField w = rdField v ∧ imm16Field w = imm16Field v
  | some .ldr => rdField w = rdField v ∧ rs1Field w = rs1Field v ∧ imm16Field w = imm16Field v
  | some .str => rdField w = rdField v ∧ rs1Field w = rs1Field v ∧ imm16Field w = imm16Field v
  | some .br => imm16Field w = imm16Field v
  | some .brz => rs1Field w = rs1Field v ∧ imm16Field w = imm16Field v
  | some .brnz => rs1Field w = rs1Field v ∧ imm16Field w = imm16Field v
  | some .brn => rs1Field w = rs1Field v ∧ imm16Field w = imm16Field v
  | some .brp => rs1Field w = rs1Field v ∧ imm16Field w = imm16Field v
  | some .cmp => rs1Field w = rs1Field v ∧ rs2Field w = rs2Field v
  | some .add => rdField w = rdField v ∧ rs1Field w = rs1Field v ∧ rs2Field w = rs2Field v
  | some .sub => rdField w = rdField v ∧ rs1Field w = rs1Field v ∧ rs2Field w = rs2Field v
  | some .mul => rdField w = rdField v ∧ rs1Field w = rs1Field v ∧ rs2Field w = rs2Field v
  | some .div => rdField w = rdField v ∧ rs1Field w = rs1Field v ∧ rs2Field w = rs2Field v
  | some .and => rdField w = rdField v ∧ rs1Field w = rs1Field v ∧ rs2Field w = rs2Field v
  | some .or => rdField w = rdField v ∧ rs1Field w = rs1Field v ∧ rs2Field w = rs2Field v
  | some .xor => rdField w = rdField v ∧ rs1Field w = rs1Field v ∧ rs2Field w = rs2Field v

/-- In the cycle that starts in this state, if it picks a warp, no lane stores to the address. -/
def NoStoreTo (s : State) (a : Nat) : Prop :=
  ∀ k, (getNextWarp s).warp = some k → laneStores s (membersOf s k) a = []

/-- `n` steps lead from `s` to `t`, and none of them stores to the address. -/
def StoreFreeSteps (a : Nat) : Nat → State → State → Prop
  | 0, s, t => s = t
  | n + 1, s, t => ∃ u, NoStoreTo s a ∧ step s = .next u ∧ StoreFreeSteps a n u t

/-- The result of `n` steps. -/
def stepTimes : Nat → State → Result
  | 0, s => .next s
  | n + 1, s => andThen (step s) (stepTimes n)

end Sys2Proof.Machine
end

