-- ==== Sys2Proof/Certificates/Slice0/Obligations.lean ====
section
/-! DEFINITION. The statements for the provers. Each docstring names the rules of spec/ it formalises.
`x s r` is register `r` of the executing thread, `s.ctx` its context; `globalRead` reads one word of
global memory, the smallest unit there is. -/

open Sys2Proof Sys2Proof.Machine

/-! ## Encoding -/

/-- Words written out from the field table of R73 and the opcode map of R76 decode to the instructions
they stand for: one or more of every class, with ignored bits set in some (R78). -/
def Obligations.SampleWordsDecode : Prop :=
  decode defaultOpcodeMap 0x00000000 = .nop ∧
  decode defaultOpcodeMap 0x01F08000 = .const 15 (-32768) ∧
  decode defaultOpcodeMap 0x02201FFF = .add 2 0 1 ∧
  decode defaultOpcodeMap 0x03312000 = .sub 3 1 2 ∧
  decode defaultOpcodeMap 0x05312000 = .div 3 1 2 ∧
  decode defaultOpcodeMap 0x0930012C = .ldr 3 0 300 ∧
  decode defaultOpcodeMap 0x0A210000 = .str 2 1 0 ∧
  decode defaultOpcodeMap 0x0B50FFFF = .br (-1) ∧
  decode defaultOpcodeMap 0x0F01FFFE = .brp 1 (-2) ∧
  decode defaultOpcodeMap 0x10F12000 = .cmp 1 2 ∧
  decode defaultOpcodeMap 0x11ABCDEF = .ret ∧
  decode defaultOpcodeMap 0x12000000 = .nopU12 ∧
  decode defaultOpcodeMap 0xFF123456 = .nopU80

/-- Decoding the encoding of any well-formed instruction gives it back, under every opcode map that
gives no byte twice (R73, R76, R79, R80). -/
def Obligations.DecodeOfEncodeIsIdentity : Prop :=
  ∀ m : OpcodeMap, m.wf = true → ∀ i : Instr, i.wellFormed m = true → decode m (encode m i) = i

/-- The decoder's immediates are the low 16 bits read as a two's-complement number, so in
−32768..32767 (R74), and what it gives under any map is well formed for the default one. -/
def Obligations.DecodedInstructionsAreWellFormed : Prop :=
  (∀ w : Word, (immField w).toInt =
    if w.toNat % 65536 < 32768 then ((w.toNat % 65536 : Nat) : Int) else ((w.toNat % 65536 : Nat) : Int) - 65536) ∧
  ∀ (m : OpcodeMap) (w : Word), (decode m w).wellFormed defaultOpcodeMap = true

/-- Two words with the same opcode byte that agree in the fields their instruction uses (R75) decode
to the same instruction: all other bits are ignored (R78). -/
def Obligations.UnusedBitsDoNotChangeDecoding : Prop :=
  ∀ (m : OpcodeMap) (w v : Word), opField w = opField v → UsedFieldsAgree (m.opOf? (opField w)) w v →
    decode m w = decode m v

/-! ## Instructions: results and frames -/

/-- R100 NOP, with R77: opcode byte 0x00 is NOP; every unassigned byte 0x12 to 0xFF decodes to one of
the rows for such bytes, under any opcode map a byte it does not assign to NOP or to such a row; all
of them move the PC to `pc + 1` and do nothing else. -/
def Obligations.NopAndUnassignedOpcodesOnlyAdvancePc : Prop :=
  (∀ w : Word, opField w = 0x00 → decode defaultOpcodeMap w = .nop) ∧
  (∀ w : Word, 0x12 ≤ (opField w).toNat →
    decode defaultOpcodeMap w ∈ [Instr.nopU12, .nopU14, .nopU18, .nopU20, .nopU40, .nopU80]) ∧
  (∀ (m : OpcodeMap) (w : Word), opField w ∉ m.assigned →
    decode m w ∈ [Instr.nop, .nopU12, .nopU14, .nopU18, .nopU20, .nopU40, .nopU80]) ∧
  ∀ i ∈ [Instr.nop, .nopU12, .nopU14, .nopU18, .nopU20, .nopU40, .nopU80], ∀ s : State,
    MovesPc i s (s.ctx.pc + 1)

/-- R101 CONST: `x[rd] <- sext_32(w[15:0])`. -/
def Obligations.ConstWritesSignExtendedImmediate : Prop :=
  (∀ w : Word, opField w = 0x01 →
    decode defaultOpcodeMap w = .const (rdField w) ((w.setWidth 16).signExtend 32)) ∧
  ∀ (rd : RegIdx) (imm : Word) (s : State), WritesRegister (.const rd imm) s rd imm

/-- R105 ADD: the sum modulo 2^32 and the unit's outputs. -/
def Obligations.AddWritesSumModulo : Prop :=
  (∀ w : Word, opField w = 0x02 →
    decode defaultOpcodeMap w = .add (rdField w) (rs1Field w) (rs2Field w)) ∧
  (∀ (rd rs1 rs2 : RegIdx) (s : State),
    WritesRegister (.add rd rs1 rs2) s rd (BitVec.ofNat 32 ((x s rs1).toNat + (x s rs2).toNat))) ∧
  ∀ a b r : Word, r = BitVec.ofNat 32 (a.toNat + b.toNat) →
    aluUnit .add a b = { result := r, zero := r == 0, negative := r.msb,
                         overflow := a.msb == b.msb && r.msb != a.msb }

/-- R106 SUB: the difference modulo 2^32 and the unit's outputs. -/
def Obligations.SubWritesDifferenceModulo : Prop :=
  (∀ w : Word, opField w = 0x03 →
    decode defaultOpcodeMap w = .sub (rdField w) (rs1Field w) (rs2Field w)) ∧
  (∀ (rd rs1 rs2 : RegIdx) (s : State),
    WritesRegister (.sub rd rs1 rs2) s rd
      (BitVec.ofInt 32 (((x s rs1).toNat : Int) - ((x s rs2).toNat : Int)))) ∧
  ∀ a b r : Word, r = BitVec.ofInt 32 ((a.toNat : Int) - (b.toNat : Int)) →
    aluUnit .sub a b = { result := r, zero := r == 0, negative := r.msb,
                         overflow := a.msb != b.msb && r.msb != a.msb }

/-- R107 MUL: the low 32 bits of the exact product, which are those of the signed product too. The
`overflow` output of MUL is left out (notes/assumptions/12.md). -/
def Obligations.MulWritesLowProduct : Prop :=
  (∀ w : Word, opField w = 0x04 →
    decode defaultOpcodeMap w = .mul (rdField w) (rs1Field w) (rs2Field w)) ∧
  (∀ (rd rs1 rs2 : RegIdx) (s : State),
    WritesRegister (.mul rd rs1 rs2) s rd (BitVec.ofNat 32 ((x s rs1).toNat * (x s rs2).toNat))) ∧
  ∀ a b : Word,
    BitVec.ofNat 32 (a.toNat * b.toNat) = BitVec.ofInt 32 (a.toInt * b.toInt) ∧
    (aluUnit .mul a b).zero = ((aluUnit .mul a b).result == 0) ∧
    (aluUnit .mul a b).negative = (aluUnit .mul a b).result.msb

/-- R108 DIV: 0 for a zero divisor; else the result is the signed quotient `q` rounded toward zero
(`q * b` does not exceed `a` in size, is less than one divisor away from it, and has its sign),
wrapped to 32 bits; and the unit's outputs. -/
def Obligations.DivWritesTruncatedQuotient : Prop :=
  (∀ w : Word, opField w = 0x05 →
    decode defaultOpcodeMap w = .div (rdField w) (rs1Field w) (rs2Field w)) ∧
  (∀ (rd rs1 rs2 : RegIdx) (s : State), (x s rs2).toInt = 0 →
    WritesRegister (.div rd rs1 rs2) s rd 0) ∧
  (∀ (rd rs1 rs2 : RegIdx) (s : State), (x s rs2).toInt ≠ 0 → ∃ q : Int,
    WritesRegister (.div rd rs1 rs2) s rd (BitVec.ofInt 32 q) ∧
    (q * (x s rs2).toInt).natAbs ≤ (x s rs1).toInt.natAbs ∧
    ((x s rs1).toInt - q * (x s rs2).toInt).natAbs < (x s rs2).toInt.natAbs ∧
    0 ≤ q * (x s rs2).toInt * (x s rs1).toInt) ∧
  ∀ a b : Word,
    (aluUnit .div a b).zero = ((aluUnit .div a b).result == 0) ∧
    (aluUnit .div a b).negative = (aluUnit .div a b).result.msb ∧ (aluUnit .div a b).overflow = false

/-- R109 AND, R110 OR, R111 XOR: the bitwise results and the unit's outputs. -/
def Obligations.BitwiseInstructionsWriteBitwiseResults : Prop :=
  (∀ w : Word, opField w = 0x06 →
    decode defaultOpcodeMap w = .and (rdField w) (rs1Field w) (rs2Field w)) ∧
  (∀ w : Word, opField w = 0x07 →
    decode defaultOpcodeMap w = .or (rdField w) (rs1Field w) (rs2Field w)) ∧
  (∀ w : Word, opField w = 0x08 →
    decode defaultOpcodeMap w = .xor (rdField w) (rs1Field w) (rs2Field w)) ∧
  (∀ (rd rs1 rs2 : RegIdx) (s : State),
    WritesRegister (.and rd rs1 rs2) s rd (x s rs1 &&& x s rs2) ∧
    WritesRegister (.or rd rs1 rs2) s rd (x s rs1 ||| x s rs2) ∧
    WritesRegister (.xor rd rs1 rs2) s rd (x s rs1 ^^^ x s rs2)) ∧
  ∀ op ∈ [AluOp.and, .or, .xor], ∀ a b : Word,
    (aluUnit op a b).zero = ((aluUnit op a b).result == 0) ∧
    (aluUnit op a b).negative = (aluUnit op a b).result.msb ∧ (aluUnit op a b).overflow = false

/-- R112 CMP: the comparison is by the signed reading; it is written nowhere: only the PC moves. -/
def Obligations.CmpComparesSignedAndDiscards : Prop :=
  (∀ w : Word, opField w = 0x10 → decode defaultOpcodeMap w = .cmp (rs1Field w) (rs2Field w)) ∧
  (∀ a b : Word,
    (compareSigned a b = .equal ↔ a.toInt = b.toInt) ∧
    (compareSigned a b = .less ↔ a.toInt < b.toInt) ∧
    (compareSigned a b = .greater ↔ b.toInt < a.toInt)) ∧
  ∀ (rs1 rs2 : RegIdx) (s : State), MovesPc (.cmp rs1 rs2) s (s.ctx.pc + 1)

/-- R114 and R40: the effective address is the sum modulo 2^32; it is in range when it is below
`MEM_WORDS`; one that is negative by its signed reading is out of range. -/
def Obligations.EffectiveAddressWrapsAndNegativeIsOutOfRange : Prop :=
  (∀ base imm : Word, (effectiveAddress base imm).toNat = (base.toNat + imm.toNat) % 2 ^ 32) ∧
  (∀ (s : State) (ea : Word), inRange s ea = true ↔ ea.toNat < s.cfg.memWords) ∧
  ∀ (s : State) (ea : Word), s.cfg.wf = true → ea.toInt < 0 → inRange s ea = false

/-- R115 LDR as the rule reads: the cache read's data into `rd`, the cache read's effect on memory and
cache, one read request queued (out of range too), `pc + 1`, nothing else. A hit gives the line's word, adds 1 to `hits`, and
changes neither memory nor a line (R51). -/
def Obligations.LdrReadsThroughCacheAndQueuesRequest : Prop :=
  (∀ w : Word, opField w = 0x09 →
    decode defaultOpcodeMap w = .ldr (rdField w) (rs1Field w) ((w.setWidth 16).signExtend 32)) ∧
  ∀ (rd rs1 : RegIdx) (imm ea : Word) (s : State),
    ea = BitVec.ofNat 32 ((x s rs1).toNat + imm.toNat) →
    ∃ t, exec (.ldr rd rs1 imm) s = .next t ∧
      x t rd = (cacheRead s ea).data ∧ OnlyRegister s t s.ctx.threadId rd ∧
      t.mem = (cacheRead s ea).state.mem ∧ t.cache = (cacheRead s ea).state.cache ∧
      (ea.toNat < s.cfg.memWords → ∀ l, lineAt? s (cacheIndex s.cfg ea) = some l →
        l.tag = cacheTag s.cfg ea → x t rd = l.data[(cacheOffset ea).val] ∧ t.mem = s.mem ∧
          t.cache = { s.cache with hits := s.cache.hits + 1 }) ∧
      (s.cfg.memWords ≤ ea.toNat → x t rd = 0 ∧ t.mem = s.mem ∧ t.cache = s.cache) ∧
      t.mcQueue = s.mcQueue ++ [⟨ea, none, false, s.ctx.threadId, s.ctx.blockId⟩] ∧
      PcBecomes s t (s.ctx.pc + 1) ∧ SameEngine s t

/-- LDR with a coherent cache (R56, R115, R41, R53): the register gets the word of global memory, 0
out of range; no byte of memory changes and the cache stays coherent; out of range the cache is
untouched. -/
def Obligations.LdrLoadsTheMemoryWord : Prop :=
  ∀ (rd rs1 : RegIdx) (imm : Word) (s : State), MemoryInv s → CacheInv s →
    ∃ t, exec (.ldr rd rs1 imm) s = .next t ∧
      x t rd = globalRead s (effectiveAddress (x s rs1) imm).toNat ∧
      (s.cfg.memWords ≤ (effectiveAddress (x s rs1) imm).toNat → x t rd = 0 ∧ t.cache = s.cache) ∧
      OnlyRegister s t s.ctx.threadId rd ∧ t.mem = s.mem ∧ CacheInv t ∧
      PcBecomes s t (s.ctx.pc + 1) ∧ SameEngine s t

/-- R116 STR as the rule reads: the cache write's effect on memory and cache, one write request with
the data queued (out of range too), `pc + 1`, no register written. In range (R52), memory holds the
value at once and the line of the address is valid and dirty under its tag and holds the value at its
offset, allocated on a miss: its other words are those it held, or on a miss those of memory; no other
line changes. -/
def Obligations.StrWritesThroughCacheAndQueuesRequest : Prop :=
  (∀ w : Word, opField w = 0x0A →
    decode defaultOpcodeMap w = .str (rdField w) (rs1Field w) ((w.setWidth 16).signExtend 32)) ∧
  ∀ (rd rs1 : RegIdx) (imm ea : Word) (s : State),
    ea = BitVec.ofNat 32 ((x s rs1).toNat + imm.toNat) →
    ∃ t, exec (.str rd rs1 imm) s = .next t ∧
      t.mem = (cacheWrite s ea (x s rd)).state.mem ∧
      t.cache = (cacheWrite s ea (x s rd)).state.cache ∧
      (ea.toNat < s.cfg.memWords → globalRead t ea.toNat = x s rd ∧
        (∃ l, lineAt? t (cacheIndex s.cfg ea) = some l ∧ l.dirty = true ∧ l.tag = cacheTag s.cfg ea ∧
          l.data[(cacheOffset ea).val] = x s rd ∧
          ∀ k : Fin 4, k ≠ cacheOffset ea →
            (∀ l', lineAt? s (cacheIndex s.cfg ea) = some l' → l'.tag = cacheTag s.cfg ea →
              l.data[k.val] = l'.data[k.val]) ∧
            ((∀ l', lineAt? s (cacheIndex s.cfg ea) = some l' → l'.tag ≠ cacheTag s.cfg ea) →
              l.data[k.val] = globalRead t (ea.toNat - ea.toNat % 4 + k.val))) ∧
        ∀ j, j ≠ cacheIndex s.cfg ea → lineAt? t j = lineAt? s j) ∧
      (s.cfg.memWords ≤ ea.toNat → t.mem = s.mem ∧ t.cache = s.cache) ∧
      t.mcQueue = s.mcQueue ++ [⟨ea, some (x s rd), true, s.ctx.threadId, s.ctx.blockId⟩] ∧
      t.rf = s.rf ∧ PcBecomes s t (s.ctx.pc + 1) ∧ SameEngine s t

/-- STR with a coherent cache (R52, R56, R116, R41, R53): the addressed word of memory holds the data
register's value at once, every other word reads as before, the cache stays coherent, and the line of
the address is valid and dirty under its tag with the words of memory; out of range neither memory nor
cache changes. -/
def Obligations.StrStoresExactlyOneWord : Prop :=
  ∀ (rd rs1 : RegIdx) (imm : Word) (s : State), MemoryInv s → CacheInv s →
    ∃ t, exec (.str rd rs1 imm) s = .next t ∧
      (∀ a, a ≠ (effectiveAddress (x s rs1) imm).toNat → globalRead t a = globalRead s a) ∧
      ((effectiveAddress (x s rs1) imm).toNat < s.cfg.memWords →
        globalRead t (effectiveAddress (x s rs1) imm).toNat = x s rd ∧
        ∃ l, lineAt? t (cacheIndex s.cfg (effectiveAddress (x s rs1) imm)) = some l ∧
          l.dirty = true ∧ l.tag = cacheTag s.cfg (effectiveAddress (x s rs1) imm) ∧
          ∀ k : Fin 4, l.data[k.val] = globalRead t
            ((effectiveAddress (x s rs1) imm).toNat - (effectiveAddress (x s rs1) imm).toNat % 4 + k.val)) ∧
      (s.cfg.memWords ≤ (effectiveAddress (x s rs1) imm).toNat → t.mem = s.mem ∧ t.cache = s.cache) ∧
      MemoryInv t ∧ CacheInv t ∧ t.rf = s.rf ∧ PcBecomes s t (s.ctx.pc + 1) ∧ SameEngine s t

/-- R63, R64: a load returns what the latest earlier store put at the address. First for the two
instructions' own effects. Then over whole steps: the lane at place `r` stores in the cycle of `s`, and
no other lane stores to the word in it; after it come any number of steps that store nothing to the
word; in the cycle of `u`, which stores nothing to it either, the lane at place `r'` loads the word.
Where `r'` is `r`, this is R63's own store; else it is R64's store of another thread. -/
def Obligations.OwnStoreThenLoadReturnsTheValue : Prop :=
  (∀ (rd rs1 rd' rs1' : RegIdx) (imm imm' : Word) (s : State), MemoryInv s → CacheInv s →
    (effectiveAddress (x s rs1) imm).toNat < s.cfg.memWords →
    effectiveAddress (x s rs1') imm' = effectiveAddress (x s rs1) imm →
    ∃ t u, exec (.str rd rs1 imm) s = .next t ∧ exec (.ldr rd' rs1' imm') t = .next u ∧
      x u rd' = x s rd) ∧
  ∀ (n : Nat) (s t u v : State) (k k' : Nat) (r r' : ThreadRef) (th th' : Thread) (w w' : Word)
    (rd rs1 rd' rs1' : RegIdx) (imm imm' ea : Word),
    Inv s → halted s = false → (getNextWarp s).warp = some k → r ∈ membersOf s k →
    threadAt? s r = some th → th.active = true → s.imem[th.pc.toNat]? = some w →
    decode s.cfg.opcodeMap w = .str rd rs1 imm → ea = effectiveAddress (readReg s th.threadId rs1) imm →
    ea.toNat < s.cfg.memWords → laneStores s ((membersOf s k).filter (· != r)) ea.toNat = [] →
    step s = .next t → StoreFreeSteps ea.toNat n t u →
    halted u = false → (getNextWarp u).warp = some k' → r' ∈ membersOf u k' →
    threadAt? u r' = some th' → th'.active = true → u.imem[th'.pc.toNat]? = some w' →
    decode u.cfg.opcodeMap w' = .ldr rd' rs1' imm' →
    effectiveAddress (readReg u th'.threadId rs1') imm' = ea → NoStoreTo u ea.toNat →
    step u = .next v →
    readReg v th'.threadId rd' = readReg s th.threadId rd

/-- R120 BR with R117's target: `u32(u(pc) + u(imm))`. -/
def Obligations.BrGoesToTarget : Prop :=
  (∀ w : Word, opField w = 0x0B → decode defaultOpcodeMap w = .br ((w.setWidth 16).signExtend 32)) ∧
  ∀ (imm : Word) (s : State), MovesPc (.br imm) s (BitVec.ofNat 32 (s.ctx.pc.toNat + imm.toNat))

/-- R121 BRz, R122 BRnz, R123 BRn, R124 BRp: the register of the `rs1` field is tested, by the signed
reading of R118's table; taken, the PC is the target of R117, else `pc + 1`; nothing else changes. -/
def Obligations.ConditionalBranchesTestTheirRegister : Prop :=
  (∀ w : Word,
    (opField w = 0x0C → decode defaultOpcodeMap w = .brz (rs1Field w) ((w.setWidth 16).signExtend 32)) ∧
    (opField w = 0x0D → decode defaultOpcodeMap w = .brnz (rs1Field w) ((w.setWidth 16).signExtend 32)) ∧
    (opField w = 0x0E → decode defaultOpcodeMap w = .brn (rs1Field w) ((w.setWidth 16).signExtend 32)) ∧
    (opField w = 0x0F → decode defaultOpcodeMap w = .brp (rs1Field w) ((w.setWidth 16).signExtend 32))) ∧
  ∀ (rs1 : RegIdx) (imm target : Word) (s : State),
    target = BitVec.ofNat 32 (s.ctx.pc.toNat + imm.toNat) →
    MovesPc (.brz rs1 imm) s (if (x s rs1).toInt = 0 then target else s.ctx.pc + 1) ∧
    (s.cfg.brnzReading = .notZero →
      MovesPc (.brnz rs1 imm) s (if (x s rs1).toInt ≠ 0 then target else s.ctx.pc + 1)) ∧
    (s.cfg.brnzReading = .negOrZero →
      MovesPc (.brnz rs1 imm) s (if (x s rs1).toInt ≤ 0 then target else s.ctx.pc + 1)) ∧
    MovesPc (.brn rs1 imm) s (if (x s rs1).toInt < 0 then target else s.ctx.pc + 1) ∧
    MovesPc (.brp rs1 imm) s (if 0 < (x s rs1).toInt then target else s.ctx.pc + 1)

/-- R125 RET: the executing thread becomes inactive and its PC stays; nothing else changes. Stepping
a thread at a RET leaves it inactive with its PC and registers kept. -/
def Obligations.RetHaltsTheThreadInPlace : Prop :=
  (∀ w : Word, opField w = 0x11 → decode defaultOpcodeMap w = .ret) ∧
  (∀ s : State, ∃ t, exec .ret s = .next t ∧ t.ctx = { s.ctx with active := false } ∧ t.rf = s.rf ∧
    SameMemory s t ∧ SameEngine s t) ∧
  ∀ (s : State) (l : Lane) (th : Thread) (w : Word), threadAt? s l.place = some th → th.active = true →
    s.imem[th.pc.toNat]? = some w → decode s.cfg.opcodeMap w = .ret →
    ∃ t, stepLane s l = .next t ∧
      threadAt? t l.place = some { th with active := false, regs := bankOf s.rf th.threadId } ∧
      (∀ q, q ≠ l.place → threadAt? t q = threadAt? s q) ∧ t.rf = s.rf ∧ SameMemory s t

/-- The frame of every instruction (R18, R33, R37, R38, R70): no register changes but the destination
register of the executing thread, and none where the instruction has none; global memory, cache and
queue change only by a load or store; no instruction touches the program, the threads, the warps, the
scheduler, the counters, `maxCycles` or the configuration. -/
def Obligations.InstructionsChangeOnlyTheirDestination : Prop :=
  ∀ (i : Instr) (s t : State), exec i s = .next t →
    (∀ tid r, ¬(tid = s.ctx.threadId ∧ destination? i = some r) → readReg t tid r = readReg s tid r) ∧
    (accessesMemory i = false → SameMemory s t) ∧ SameEngine s t

/-- R126: no instruction and no step faults, and none is refused. -/
def Obligations.InstructionsAndStepsNeverStop : Prop :=
  (∀ (i : Instr) (s : State), ∃ t, exec i s = .next t) ∧ ∀ s : State, StepCompletes s

/-- R103's overflow outputs of ADD and SUB say exactly that the signed result does not fit
(spec/95_test_vectors.md, the ADD and SUB laws). -/
def Obligations.AddSubOverflowIsSignedOverflow : Prop :=
  ∀ a b : Word,
    ((aluUnit .add a b).overflow = true ↔ (aluUnit .add a b).result.toInt ≠ a.toInt + b.toInt) ∧
    ((aluUnit .sub a b).overflow = true ↔ (aluUnit .sub a b).result.toInt ≠ a.toInt - b.toInt)

/-! ## Cache -/

/-- R47: the index, tag, offset and base formulas; the base of an address's tag and index is the
address less its offset; and a tag and an index name one memory line. -/
def Obligations.CacheGeometryNamesOneMemoryLine : Prop :=
  ∀ (c : Config) (a : Word),
    cacheIndex c a = (a.toNat >>> 2) % 2 ^ c.lineBits ∧
    (cacheTag c a).toNat = a.toNat >>> (2 + c.lineBits) ∧
    (cacheOffset a).val = a.toNat % 4 ∧
    (∀ (tag : Word) (i : Nat), lineBase c tag i = (tag.toNat <<< (2 + c.lineBits)) + (i <<< 2)) ∧
    lineBase c (cacheTag c a) (cacheIndex c a) = a.toNat - (cacheOffset a).val ∧
    ∀ b : Word, (cacheTag c a = cacheTag c b ∧ cacheIndex c a = cacheIndex c b) ↔
      a.toNat - a.toNat % 4 = b.toNat - b.toNat % 4

/-- R48: an in-range access hits exactly when its line is valid with its tag; a hit adds 1 to `hits`,
a miss adds 1 to `misses`; reads and writes both count. -/
def Obligations.CacheCountsHitsAndMisses : Prop :=
  ∀ (s : State) (a v : Word), a.toNat < s.cfg.memWords →
    ((cacheRead s a).hit = true ↔
      ∃ l, lineAt? s (cacheIndex s.cfg a) = some l ∧ l.tag = cacheTag s.cfg a) ∧
    (cacheWrite s a v).hit = (cacheRead s a).hit ∧
    (∀ c ∈ [(cacheRead s a).state.cache, (cacheWrite s a v).state.cache],
      c.hits = s.cache.hits + (if (cacheRead s a).hit then 1 else 0) ∧
      c.misses = s.cache.misses + (if (cacheRead s a).hit then 0 else 1))

/-- R53: an access out of range uses no line and no counter; a read returns 0, a write is dropped. -/
def Obligations.OutOfRangeAccessBypassesCache : Prop :=
  ∀ (s : State) (a v : Word), s.cfg.memWords ≤ a.toNat →
    (cacheRead s a).data = 0 ∧ (cacheRead s a).hit = false ∧ (cacheRead s a).state = s ∧
    (cacheWrite s a v).hit = false ∧ (cacheWrite s a v).state = s

/-- R49 and R50, for an access that misses. A read: a dirty victim's in-range words are written to their
tag-derived addresses and no other word changes; nothing is written for a clean or invalid victim;
then the line of the address is valid, clean, under its tag, with the words of memory, 0 out of
range; and no other line changes. A write leaves in memory what the read leaves, but for its own word. -/
def Obligations.MissWritesBackVictimAndFillsLine : Prop :=
  ∀ (s : State) (a : Word), a.toNat < s.cfg.memWords → (cacheRead s a).hit = false →
    (∀ l, lineAt? s (cacheIndex s.cfg a) = some l → l.dirty = true → ∀ b,
      globalRead (cacheRead s a).state b =
        if h : lineBase s.cfg l.tag (cacheIndex s.cfg a) ≤ b ∧
            b < lineBase s.cfg l.tag (cacheIndex s.cfg a) + 4 ∧ b < s.cfg.memWords then
          l.data[b - lineBase s.cfg l.tag (cacheIndex s.cfg a)]'(by omega)
        else globalRead s b) ∧
    ((∀ l, lineAt? s (cacheIndex s.cfg a) = some l → l.dirty = false) →
      (cacheRead s a).state.mem = s.mem) ∧
    (∃ l, lineAt? (cacheRead s a).state (cacheIndex s.cfg a) = some l ∧ l.dirty = false ∧
      l.tag = cacheTag s.cfg a ∧
      (∀ k : Fin 4, l.data[k.val] = globalRead (cacheRead s a).state (a.toNat - a.toNat % 4 + k.val)) ∧
      (cacheRead s a).data = l.data[(cacheOffset a).val]) ∧
    (∀ j, j ≠ cacheIndex s.cfg a → lineAt? (cacheRead s a).state j = lineAt? s j) ∧
    ∀ (v : Word) (b : Nat), globalRead (cacheWrite s a v).state b =
      if b = a.toNat then v else globalRead (cacheRead s a).state b

/-- R54: a flush writes every valid dirty line's in-range words to their tag-derived addresses, whether
or not they are those of memory (H2), and changes no other word; every line stays valid with its tag
and data and becomes clean; the counters do not change. With R56: in a coherent cache it leaves memory
as it is. -/
def Obligations.FlushKeepsMemoryAndCleansLines : Prop :=
  (∀ s : State, Table.Sorted s.cache.lines → (∀ e ∈ s.cache.lines, e.1 < s.cfg.cacheLines) →
    (∀ e ∈ s.cache.lines, e.2.dirty = true → ∀ k : Fin 4,
      lineBase s.cfg e.2.tag e.1 + k.val < s.cfg.memWords →
      globalRead (flush s) (lineBase s.cfg e.2.tag e.1 + k.val) = e.2.data[k.val]) ∧
    (∀ b, (∀ e ∈ s.cache.lines, e.2.dirty = true →
        ¬(lineBase s.cfg e.2.tag e.1 ≤ b ∧ b < lineBase s.cfg e.2.tag e.1 + 4)) →
      globalRead (flush s) b = globalRead s b)) ∧
  (∀ s : State,
    (∀ i, lineAt? (flush s) i = (lineAt? s i).map fun l => { l with dirty := false }) ∧
    (flush s).cache.hits = s.cache.hits ∧ (flush s).cache.misses = s.cache.misses) ∧
  ∀ s : State, MemoryInv s → CacheInv s → (flush s).mem = s.mem

/-! ## Controller -/

/-- R58 and D29: the drain's sort keeps all requests, orders them by address, and keeps the requests
to one address in queue order. -/
def Obligations.QueueSortIsStable : Prop :=
  ∀ q : List MemoryRequest,
    (sortByAddress q).Perm q ∧
    (sortByAddress q).Pairwise (fun e f => e.address.toNat ≤ f.address.toNat) ∧
    ∀ a : Nat, (sortByAddress q).filter (fun r => r.address.toNat == a) =
      q.filter (fun r => r.address.toNat == a)

/-- R58, R62: after the drain every in-range word holds the last store queued for it, or what it held;
grouping plays no part; the queue is empty, the cache is untouched, and every request, merged or not,
has a response of its own in service order: with R60's id, valid exactly in range, and for a store the
stored value, for a load the word that the stores serviced before it leave, 0 out of range. -/
def Obligations.DrainCommitsLastQueuedStores : Prop :=
  ∀ s : State,
    (∀ a, a < s.cfg.memWords → globalRead (processRequests s) a =
      (queuedStores s.mcQueue a).getLast?.getD (globalRead s a)) ∧
    (processRequests s).mcQueue = [] ∧ (processRequests s).cache = s.cache ∧
    (processRequests s).rf = s.rf ∧ (processRequests s).blocks = s.blocks ∧
    (drainResponses s).map (·.id) = ((sortByAddress s.mcQueue).map fun r =>
      r.threadId * 1000000 + r.blockId * 10000 + r.address.toNat) ∧
    ∀ (i : Nat) (r : MemoryRequest), (sortByAddress s.mcQueue)[i]? = some r →
      ∃ resp, (drainResponses s)[i]? = some resp ∧
        (resp.valid = true ↔ r.address.toNat < s.cfg.memWords) ∧
        (∀ v, r.write = true → r.data = some v → resp.data = v) ∧
        (r.write = false → s.cfg.memWords ≤ r.address.toNat → resp.data = 0) ∧
        (r.write = false → r.address.toNat < s.cfg.memWords → resp.data =
          (queuedStores ((sortByAddress s.mcQueue).take i) r.address.toNat).getLast?.getD
            (globalRead s r.address.toNat))

/-- R59: the drain adds the number of requests and the number of groups to the statistics; requests
of one direction within 4 words of the first make one group, a request that is further away or of the
other direction opens a new one. -/
def Obligations.CoalescerCountsRequestsAndGroups : Prop :=
  (∀ s : State,
    (processRequests s).mcStats.requests = s.mcStats.requests + s.mcQueue.length ∧
    (processRequests s).mcStats.groups =
      s.mcStats.groups + countGroups none (sortByAddress s.mcQueue)) ∧
  (∀ (r : MemoryRequest) (q p : List MemoryRequest),
    (∀ e ∈ q, e.write = r.write ∧ r.address.toNat ≤ e.address.toNat ∧
      e.address.toNat - r.address.toNat < 4) →
    (∀ e, p.head? = some e → e.write ≠ r.write ∨ r.address.toNat + 4 ≤ e.address.toNat) →
    countGroups none (r :: q ++ p) = 1 + countGroups none p) ∧
  countGroups none [] = 0

/-! ## Engine -/

/-- A STEP RUNS THE DECODED INSTRUCTIONS (R91, R94). Not halted, with warp `k` picked, the step runs
the lanes of warp `k` in ascending order and ends the cycle. A lane whose thread is active with a word
at its PC that decodes to `i` runs exactly `i`, in the thread's context, and then writes the thread
back, before the lanes after it run. In between the result of a racing load is settled (U1,
notes/assumptions/4.md), which changes nothing where no words are left open. -/
def Obligations.StepRunsTheDecodedInstruction : Prop :=
  (∀ (s : State) (k : Nat), halted s = false → (getNextWarp s).warp = some k →
    step s = andThen
      (runLanes (planLanes (getNextWarp s).state (membersOf s k)) (getNextWarp s).state)
      fun t => .next (endCycle t k)) ∧
  (∀ (s : State) (l : Lane) (ls : List Lane) (th : Thread) (w : Word) (i : Instr),
    threadAt? s l.place = some th → th.active = true → s.imem[th.pc.toNat]? = some w →
    decode s.cfg.opcodeMap w = i →
    runLanes (l :: ls) s = andThen (exec i (enterThread s th)) fun t =>
      runLanes ls (leaveThread (settleLoad i l.openWords t) l.place)) ∧
  (∀ (s : State) (lanes : List ThreadRef), (planLanes s lanes).map (·.place) = lanes) ∧
  ∀ (i : Instr) (s : State), settleLoad i [] s = s

/-- R93: an active thread whose PC is not below the program's length by its unsigned reading is
deactivated at the fetch, and nothing else changes. -/
def Obligations.FetchPastTheEndDeactivates : Prop :=
  ∀ (s : State) (l : Lane) (th : Thread), threadAt? s l.place = some th → th.active = true →
    s.imem.length ≤ th.pc.toNat →
    ∃ t, stepLane s l = .next t ∧ threadAt? t l.place = some { th with active := false } ∧
      (∀ q, q ≠ l.place → threadAt? t q = threadAt? s q) ∧ t = { s with blocks := t.blocks }

/-- R94 with R24: after an active thread has executed its instruction, the thread at its place holds
the PC and the active flag that the instruction left, and its snapshot is its register file, which the
instruction left but for the destination of a load for which words are left open (U1): it holds the
word read or one of those. No other thread changes. -/
def Obligations.StepThreadWritesBackPcAndSnapshot : Prop :=
  ∀ (s u : State) (l : Lane) (th : Thread) (w : Word), threadAt? s l.place = some th →
    th.active = true → s.imem[th.pc.toNat]? = some w →
    exec (decode s.cfg.opcodeMap w) (enterThread s th) = .next u →
    ∃ t, stepLane s l = .next t ∧
      threadAt? t l.place =
        some { th with pc := u.ctx.pc, active := u.ctx.active, regs := bankOf t.rf th.threadId } ∧
      (∀ q, q ≠ l.place → threadAt? t q = threadAt? s q) ∧ SameMemory u t ∧
      (l.openWords = [] → t.rf = u.rf) ∧
      (∀ tid i, ¬(tid = th.threadId ∧ destination? (decode s.cfg.opcodeMap w) = some i) →
        readReg t tid i = readReg u tid i) ∧
      ∀ i, destination? (decode s.cfg.opcodeMap w) = some i →
        readReg t th.threadId i ∈ readReg u th.threadId i :: l.openWords

/-- R89 and R90: the round-robin choice. The picked warp is the first one with an active thread in the
order `rr`, `rr + 1`, … modulo the number of warps; `rr` moves past it; exactly the warps skipped
before it lose their `active` flag; no warp is picked exactly when no member of any warp is active,
and then every warp loses the flag and `rr` stays. -/
def Obligations.RoundRobinPicksNextRunnableWarp : Prop :=
  ∀ s : State,
    (∀ k, (getNextWarp s).warp = some k →
      (∃ i, i < s.warps.length ∧ k = (s.rr + i) % s.warps.length ∧ warpRunnable s k = true ∧
        (∀ j, j < i → warpRunnable s ((s.rr + j) % s.warps.length) = false) ∧
        ∀ q : Nat, (getNextWarp s).state.warps[q]? = (s.warps[q]?).map fun w =>
          if ∃ j, j < i ∧ q = (s.rr + j) % s.warps.length then { w with active := false } else w) ∧
      (getNextWarp s).state.rr = (k + 1) % s.warps.length) ∧
    ((getNextWarp s).warp = none ↔ isComplete s = true) ∧
    ((getNextWarp s).warp = none → (getNextWarp s).state.rr = s.rr ∧
      (getNextWarp s).state.warps = s.warps.map fun w => { w with active := false }) ∧
    (isComplete s = true ↔ ∀ w ∈ s.warps, ∀ r ∈ w.members, threadActive s r = false)

/-- R91 and R140: where the cycle budget is used up or no thread is active, a step changes nothing,
and `executeCycle()` returns false; otherwise it returns true. -/
def Obligations.HaltedStepChangesNothing : Prop :=
  ∀ s : State,
    (executeCycleReturns s = false ↔ s.maxCycles ≤ s.cycle ∨ isComplete s = true) ∧
    (executeCycleReturns s = false → step s = .next s)

/-- R91, R135 and R87's last bullet: a cycle that runs warp `k` adds 1 to `cycle` and to `ticks`,
leaves the queue empty, and sets the PC of warp `k` to that of its lowest-lane active thread. -/
def Obligations.RunningStepCountsOneCycle : Prop :=
  ∀ (s : State) (k : Nat), halted s = false → (getNextWarp s).warp = some k →
    ∃ t, step s = .next t ∧ t.cycle = s.cycle + 1 ∧ t.ticks = s.ticks + 1 ∧ t.mcQueue = [] ∧
      ∀ w, (getNextWarp s).state.warps[k]? = some w →
        t.warps[k]? = some (match (w.members.filterMap (threadAt? t)).find? (·.active) with
          | some th => { w with pc := th.pc }
          | none => w)

/-- R33, R38, R70: no step changes instruction memory, the configuration or `maxCycles`. -/
def Obligations.StepKeepsProgramAndConfiguration : Prop :=
  ∀ s t : State, step s = .next t → t.imem = s.imem ∧ t.cfg = s.cfg ∧ t.maxCycles = s.maxCycles

/-- R23: no step reactivates a thread; an inactive thread is not changed at all. -/
def Obligations.InactiveThreadsStayUnchanged : Prop :=
  ∀ (s t : State) (r : ThreadRef) (th : Thread), step s = .next t → threadAt? s r = some th →
    th.active = false → threadAt? t r = some th

/-- R138: threads that are no members of the picked warp do not run: they and their registers stay as
they are. -/
def Obligations.OtherWarpsDoNotRun : Prop :=
  ∀ (s t : State) (k : Nat) (r : ThreadRef) (th : Thread), halted s = false →
    (getNextWarp s).warp = some k → step s = .next t → r ∉ membersOf s k → threadAt? s r = some th →
    threadAt? t r = some th ∧
    (UniqueIds s → ∀ i : RegIdx, readReg t th.threadId i = readReg s th.threadId i)

/-- R57, R92, R128 with D33: the lanes act in ascending order, and their requests are queued in it,
races or not: after the lanes the queue holds, behind what it held, the requests of the lanes in lane
order, and the cycle's statistics are those of that list. The request of a lane is that of its LDR or
STR, by its registers when the cycle begins, out of range too; a lane that is not active has none. -/
def Obligations.LanesActAndQueueInAscendingOrder : Prop :=
  (∀ (s t : State) (lanes : List ThreadRef), UniqueIds s → lanes.Nodup →
    runLanes (planLanes s lanes) s = .next t →
    t.mcQueue = s.mcQueue ++ lanes.filterMap (laneRequest? s)) ∧
  (∀ (s t : State) (k : Nat), UniqueIds s → (membersOf s k).Nodup → halted s = false →
    (getNextWarp s).warp = some k → step s = .next t →
    t.mcStats.requests =
      s.mcStats.requests + (s.mcQueue ++ (membersOf s k).filterMap (laneRequest? s)).length ∧
    t.mcStats.groups = s.mcStats.groups +
      countGroups none (sortByAddress (s.mcQueue ++ (membersOf s k).filterMap (laneRequest? s)))) ∧
  (∀ (s : State) (r : ThreadRef) (th : Thread) (w : Word) (rd rs1 : RegIdx) (imm : Word),
    threadAt? s r = some th → th.active = true → s.imem[th.pc.toNat]? = some w →
    (decode s.cfg.opcodeMap w = .ldr rd rs1 imm → laneRequest? s r =
      some ⟨effectiveAddress (readReg s th.threadId rs1) imm, none, false, th.threadId, th.blockId⟩) ∧
    (decode s.cfg.opcodeMap w = .str rd rs1 imm → laneRequest? s r =
      some ⟨effectiveAddress (readReg s th.threadId rs1) imm, some (readReg s th.threadId rd), true,
        th.threadId, th.blockId⟩) ∧
    (accessesMemory (decode s.cfg.opcodeMap w) = false → laneRequest? s r = none)) ∧
  ∀ (s : State) (r : ThreadRef), threadActive s r = false → laneRequest? s r = none

/-- R64: what a lane of the picked warp stores to an in-range word that no other lane stores to in the
cycle is in global memory when the next cycle begins, whatever lanes load the word in it. -/
def Obligations.StoresAreVisibleInTheNextCycle : Prop :=
  ∀ (s t : State) (k : Nat) (r : ThreadRef) (th : Thread) (w : Word) (rd rs1 : RegIdx) (imm ea : Word),
    Inv s → halted s = false → (getNextWarp s).warp = some k → r ∈ membersOf s k →
    threadAt? s r = some th → th.active = true → s.imem[th.pc.toNat]? = some w →
    decode s.cfg.opcodeMap w = .str rd rs1 imm → ea = effectiveAddress (readReg s th.threadId rs1) imm →
    ea.toNat < s.cfg.memWords → laneStores s ((membersOf s k).filter (· != r)) ea.toNat = [] →
    step s = .next t → globalRead t ea.toNat = readReg s th.threadId rd

/-- R66 and R67: after a cycle, each in-range word holds what it held if no lane stored to it, and else
one of the words that the lanes stored to it; the valid line of the word, if there is one, holds the
same. -/
def Obligations.StoredWordsEndWithAStoredValue : Prop :=
  ∀ (s t : State) (k a : Nat), Inv s → halted s = false → (getNextWarp s).warp = some k →
    step s = .next t → a < s.cfg.memWords →
    (laneStores s (membersOf s k) a = [] → globalRead t a = globalRead s a) ∧
    (laneStores s (membersOf s k) a ≠ [] → globalRead t a ∈ laneStores s (membersOf s k) a) ∧
    ∀ (b : Word) (l : Line), b.toNat = a → lineAt? t (cacheIndex t.cfg b) = some l →
      l.tag = cacheTag t.cfg b → l.data[(cacheOffset b).val] = globalRead t a

/-- R65 and R67: a lane's load of an in-range word gives its register the word before the cycle or one
that another lane stores to it in the cycle; so the word before the cycle where no other lane stores
to it. -/
def Obligations.LoadsReturnTheOldOrAStoredWord : Prop :=
  ∀ (s t : State) (k : Nat) (r : ThreadRef) (th : Thread) (w : Word) (rd rs1 : RegIdx) (imm ea : Word),
    Inv s → halted s = false → (getNextWarp s).warp = some k → r ∈ membersOf s k →
    threadAt? s r = some th → th.active = true → s.imem[th.pc.toNat]? = some w →
    decode s.cfg.opcodeMap w = .ldr rd rs1 imm → ea = effectiveAddress (readReg s th.threadId rs1) imm →
    ea.toNat < s.cfg.memWords → step s = .next t →
    readReg t th.threadId rd ∈
      globalRead s ea.toNat :: laneStores s ((membersOf s k).filter (· != r)) ea.toNat

/-- R97 and R98: `run()` loops `executeCycle()`: from every state it gives the state after some number
of steps, at most `maxCycles − cycle`, before each of which the core was not halted, and after which it
is. There a step changes nothing, and the end kind is exactly one: `complete` when no thread is active,
else `budget`. -/
def Obligations.RunEndsWithOneEndKind : Prop :=
  ∀ s : State, ∃ n t, n ≤ s.maxCycles - s.cycle ∧ stepTimes n s = .next t ∧ run s = .next t ∧
    (∀ m u, m < n → stepTimes m s = .next u → executeCycleReturns u = true) ∧
    executeCycleReturns t = false ∧ step t = .next t ∧
    ((endKind t = some .complete ∧ isComplete t = true) ∨
      (endKind t = some .budget ∧ isComplete t = false ∧ t.maxCycles ≤ t.cycle))

/-! ## Invariants -/

/-- The state after reset meets the invariant. The sizes that `State.reset` has for `MEM_WORDS` and
`CACHE_LINES`, the canonical form of memory, and the idle context between cycles are the model's
choices (notes/assumptions/2.md, 6.md, 5.md). -/
def Obligations.ResetMeetsTheInvariant : Prop := Inv State.reset

/-- Every step keeps the canonical form of global memory, which is the model's choice
(notes/assumptions/6.md), and lists no word outside it (R31, R39). -/
def Obligations.StepKeepsMemoryCanonical : Prop :=
  ∀ s t : State, MemoryInv s → step s = .next t → MemoryInv t

/-- R56, R30: at every cycle boundary each valid line's words equal the memory words they stand for,
and the controller's queue is empty. The canonical form of memory and the idle context that it keeps
too are the model's choices (notes/assumptions/6.md, 5.md). -/
def Obligations.StepKeepsCacheCoherent : Prop :=
  ∀ s t : State, MemoryInv s → CacheInv s → QuietInv s → step s = .next t →
    MemoryInv t ∧ CacheInv t ∧ QuietInv t

/-- R24: every thread's snapshot equals its registers at every cycle boundary, and thread ids stay
unique. -/
def Obligations.StepKeepsSnapshotsInSync : Prop :=
  ∀ s t : State, SnapshotInv s → step s = .next t → SnapshotInv t

/-- R20, R26, R27: the round-robin index stays below the number of warps, threads stay with their
blocks, and warps keep 1 to 32 existing threads of one block each, none of them in two places. -/
def Obligations.StepKeepsSchedulerAndWarps : Prop :=
  ∀ s t : State, SchedulerInv s → OwnershipInv s → WarpInv s → step s = .next t →
    SchedulerInv t ∧ OwnershipInv t ∧ WarpInv t

/-- Every step keeps the whole invariant: R20, R24, R27, R30, R31, R56, and the model's own choices in
it, the canonical form of memory and the idle context (notes/assumptions/6.md, 5.md). -/
def Obligations.StepKeepsTheInvariant : Prop := ∀ s t : State, Inv s → step s = .next t → Inv t

/-- R85, R86: every launch that is accepted keeps the whole invariant, the model's own choices in it
among the rest (notes/assumptions/6.md, 5.md). -/
def Obligations.LaunchKeepsTheInvariant : Prop :=
  ∀ (bs : List BlockInit) (s t : State), Inv s → initializeBlocks bs s = .next t → Inv t

/-! ## Host interface -/

/-- R142 with R36: what `reset()` leaves, field by field; the program, the configuration and
`maxCycles` survive. And R141: what construction leaves. -/
def Obligations.HostResetClearsAllButProgram : Prop :=
  (∀ s : State,
    (hostReset s).imem = s.imem ∧ (hostReset s).cfg = s.cfg ∧ (hostReset s).maxCycles = s.maxCycles ∧
    (hostReset s).cycle = 0 ∧ (hostReset s).ticks = 0 ∧ (hostReset s).rr = 0 ∧
    (hostReset s).blocks = [] ∧ (hostReset s).warps = [] ∧
    (∀ tid r, readReg (hostReset s) tid r = 0) ∧ (∀ a, globalRead (hostReset s) a = 0) ∧
    (∀ i, lineAt? (hostReset s) i = none) ∧
    (hostReset s).cache.hits = 0 ∧ (hostReset s).cache.misses = 0 ∧ (hostReset s).mcQueue = [] ∧
    (hostReset s).mcStats = { requests := 0, groups := 0 }) ∧
  ∀ (c : Config) (n : Nat), (construct c n).imem = [] ∧ (construct c n).cfg = c ∧
    (construct c n).maxCycles = n ∧ hostReset (construct c n) = construct c n

/-- R85, D37, H1: a launch is refused exactly when it gives two threads the same id. -/
def Obligations.LaunchRefusesRepeatedThreadIds : Prop :=
  ∀ (bs : List BlockInit) (s : State),
    ((∃ t, initializeBlocks bs s = .next t) ↔ (launchIds bs).Nodup) ∧
    (¬(launchIds bs).Nodup → ∃ tid, initializeBlocks bs s = .refused (.duplicateThreadId tid) ∧
      2 ≤ (launchIds bs).count tid)

/-- R85: an accepted launch registers the host's blocks with their threads and no others: id, block id,
PC, active flag; each register holds the value the host supplies, else what the register file held,
which is 0 for a thread without registers; the snapshot is the register file; `rr` is 0. The registers
of threads outside the launch, memory, cache, program, the controller's queue and statistics, the
counters, the configuration and the model's own context field (notes/assumptions/5.md) stay. -/
def Obligations.LaunchRegistersTheHostsThreads : Prop :=
  ∀ (bs : List BlockInit) (s t : State), initializeBlocks bs s = .next t →
    (t.blocks.map fun b => (b.blockId, b.threads.length)) =
      (bs.map fun b => (b.blockId, b.threads.length)) ∧
    (∀ (r : ThreadRef) (b : BlockInit) (ti : ThreadInit), bs[r.block]? = some b →
      b.threads[r.thread]? = some ti →
      threadAt? t r = some ⟨ti.threadId, b.blockId, ti.pc, bankOf t.rf ti.threadId, ti.active⟩ ∧
      ∀ i : RegIdx, readReg t ti.threadId i = (ti.registers[i.val]).getD (readReg s ti.threadId i)) ∧
    (∀ (tid : Nat) (i : RegIdx), tid ∉ launchIds bs → readReg t tid i = readReg s tid i) ∧
    t.rr = 0 ∧ t.imem = s.imem ∧ t.mem = s.mem ∧ t.cache = s.cache ∧ t.cycle = s.cycle ∧
    t.ticks = s.ticks ∧ t.maxCycles = s.maxCycles ∧ t.cfg = s.cfg ∧ t.mcQueue = s.mcQueue ∧
    t.mcStats = s.mcStats ∧ t.ctx = s.ctx

/-- R86: warp `k` of a block of `n` threads holds its threads `32k` to `min(32k + 31, n − 1)` in order,
a block without threads has none, and the warps of a launch are those of its blocks in order,
numbered from 0, with `active` set and the PC of lane 0 (R87). -/
def Obligations.WarpsAreConsecutiveGroupsOf32 : Prop :=
  (∀ bi n k : Nat, (blockWarpMembers bi n)[k]? =
    if 32 * k < n then
      some ((List.range (min 32 (n - 32 * k))).map fun j => { block := bi, thread := 32 * k + j })
    else none) ∧
  ∀ (bs : List BlockInit) (s t : State), initializeBlocks bs s = .next t →
    t.warps.map (·.members) =
      (bs.zipIdx.map fun e => blockWarpMembers e.2 e.1.threads.length).flatten ∧
    ∀ (k : Nat) (w : Warp), t.warps[k]? = some w → w.warpId = k ∧ w.active = true ∧
      ∃ r th, w.members.head? = some r ∧ threadAt? t r = some th ∧ w.pc = th.pc

/-- R16, R17, R18, R19: the register file's host operations: a read gives 0 for a thread without
registers and for an index of 16 or more; a write with such an index changes nothing, any other is read
back and changes no other register; the snapshot; clearing one thread or all; and the idempotent
allocation of 16 zeros. That a write to a thread WITHOUT registers is read back is the model's choice
(notes/assumptions/10.md). -/
def Obligations.RegisterFileHostOperations : Prop :=
  ∀ (s : State) (tid : Nat),
    (∀ i, 16 ≤ i → registerRead s tid i = 0) ∧
    (Table.get? s.rf tid = none → ∀ i, registerRead s tid i = 0) ∧
    (∀ i v, 16 ≤ i → registerWrite s tid i v = s) ∧
    (∀ tid' i j v, i < 16 → registerRead (registerWrite s tid i v) tid' j =
      if tid' = tid ∧ j = i then v else registerRead s tid' j) ∧
    (∀ i (h : i < 16), (getRegisters s tid)[i] = registerRead s tid i) ∧
    (∀ i, registerRead (clearThread s tid) tid i = 0) ∧
    (∀ tid' i, tid' ≠ tid → registerRead (clearThread s tid) tid' i = registerRead s tid' i) ∧
    (∀ tid' i, registerRead (clearAll s) tid' i = 0) ∧
    (Table.get? s.rf tid ≠ none → initializeThread s tid = s) ∧
    (Table.get? s.rf tid = none →
      Table.get? (initializeThread s tid).rf tid = some zeroBank) ∧
    initializeThread (initializeThread s tid) tid = initializeThread s tid

/-- R61: the direct memory path reads and writes one in-range word, reads 0 and drops the write out of
range, and touches neither the cache nor the queue nor a counter. -/
def Obligations.DirectPathReadsAndWritesOneWord : Prop :=
  ∀ (s : State) (a : Nat) (v : Word),
    (s.cfg.memWords ≤ a → directRead s a = 0 ∧ directWrite s a v = s) ∧
    (a < s.cfg.memWords → directRead (directWrite s a v) a = v) ∧
    (∀ b, b ≠ a → directRead (directWrite s a v) b = directRead s b) ∧
    (directWrite s a v).cache = s.cache ∧ (directWrite s a v).mcQueue = s.mcQueue ∧
    (directWrite s a v).mcStats = s.mcStats ∧ (directWrite s a v).cycle = s.cycle ∧
    (directWrite s a v).ticks = s.ticks

/-- R55, R139: what `getStats()` reports; `activeWarps` is the number of warps with at least one active
thread; the hit rate times the number of accesses is the number of hits, and it is 0 without
accesses. -/
def Obligations.StatisticsReportTheCounters : Prop :=
  ∀ s : State,
    (getStats s).cycle = s.cycle ∧ (getStats s).scheduler.ticks = s.ticks ∧
    (getStats s).scheduler.totalWarps = s.warps.length ∧
    (getStats s).scheduler.activeWarps = ((List.range s.warps.length).filter (warpRunnable s)).length ∧
    (∀ k, warpRunnable s k = true ↔ ∃ w, s.warps[k]? = some w ∧ ∃ r ∈ w.members, ∃ th,
      threadAt? s r = some th ∧ th.active = true) ∧
    ((getStats s).scheduler.activeWarps = 0 ↔ isComplete s = true) ∧
    (getStats s).cache.hits = s.cache.hits ∧ (getStats s).cache.misses = s.cache.misses ∧
    (getStats s).cache.hitRate * ((s.cache.hits + s.cache.misses : Nat) : Rat) = (s.cache.hits : Rat) ∧
    (s.cache.hits + s.cache.misses = 0 → (getStats s).cache.hitRate = 0)
end

