-- ==== Sys2Proof/Laws/State.lean ====
section
/-! SUPPORT. One lemma per field per named update of the state: the fields an update leaves alone, and
the value of the field it sets. All hold by definition. -/

namespace Sys2Proof.Machine

variable (s : State)

/-! ### `globalWrite` -/

@[simp] theorem globalWrite_cfg (a : Nat) (v : Word) : (globalWrite s a v).cfg = s.cfg := rfl
@[simp] theorem globalWrite_imem (a : Nat) (v : Word) : (globalWrite s a v).imem = s.imem := rfl
@[simp] theorem globalWrite_rf (a : Nat) (v : Word) : (globalWrite s a v).rf = s.rf := rfl
@[simp] theorem globalWrite_blocks (a : Nat) (v : Word) : (globalWrite s a v).blocks = s.blocks := rfl
@[simp] theorem globalWrite_warps (a : Nat) (v : Word) : (globalWrite s a v).warps = s.warps := rfl
@[simp] theorem globalWrite_rr (a : Nat) (v : Word) : (globalWrite s a v).rr = s.rr := rfl
@[simp] theorem globalWrite_ticks (a : Nat) (v : Word) : (globalWrite s a v).ticks = s.ticks := rfl
@[simp] theorem globalWrite_cycle (a : Nat) (v : Word) : (globalWrite s a v).cycle = s.cycle := rfl
@[simp] theorem globalWrite_maxCycles (a : Nat) (v : Word) : (globalWrite s a v).maxCycles = s.maxCycles := rfl
@[simp] theorem globalWrite_cache (a : Nat) (v : Word) : (globalWrite s a v).cache = s.cache := rfl
@[simp] theorem globalWrite_mcQueue (a : Nat) (v : Word) : (globalWrite s a v).mcQueue = s.mcQueue := rfl
@[simp] theorem globalWrite_mcStats (a : Nat) (v : Word) : (globalWrite s a v).mcStats = s.mcStats := rfl
@[simp] theorem globalWrite_ctx (a : Nat) (v : Word) : (globalWrite s a v).ctx = s.ctx := rfl

/-! ### `writeReg` -/

@[simp] theorem writeReg_cfg (tid : Nat) (r : RegIdx) (v : Word) : (writeReg s tid r v).cfg = s.cfg := rfl
@[simp] theorem writeReg_imem (tid : Nat) (r : RegIdx) (v : Word) : (writeReg s tid r v).imem = s.imem := rfl
@[simp] theorem writeReg_mem (tid : Nat) (r : RegIdx) (v : Word) : (writeReg s tid r v).mem = s.mem := rfl
@[simp] theorem writeReg_blocks (tid : Nat) (r : RegIdx) (v : Word) : (writeReg s tid r v).blocks = s.blocks := rfl
@[simp] theorem writeReg_warps (tid : Nat) (r : RegIdx) (v : Word) : (writeReg s tid r v).warps = s.warps := rfl
@[simp] theorem writeReg_rr (tid : Nat) (r : RegIdx) (v : Word) : (writeReg s tid r v).rr = s.rr := rfl
@[simp] theorem writeReg_ticks (tid : Nat) (r : RegIdx) (v : Word) : (writeReg s tid r v).ticks = s.ticks := rfl
@[simp] theorem writeReg_cycle (tid : Nat) (r : RegIdx) (v : Word) : (writeReg s tid r v).cycle = s.cycle := rfl
@[simp] theorem writeReg_maxCycles (tid : Nat) (r : RegIdx) (v : Word) : (writeReg s tid r v).maxCycles = s.maxCycles := rfl
@[simp] theorem writeReg_cache (tid : Nat) (r : RegIdx) (v : Word) : (writeReg s tid r v).cache = s.cache := rfl
@[simp] theorem writeReg_mcQueue (tid : Nat) (r : RegIdx) (v : Word) : (writeReg s tid r v).mcQueue = s.mcQueue := rfl
@[simp] theorem writeReg_mcStats (tid : Nat) (r : RegIdx) (v : Word) : (writeReg s tid r v).mcStats = s.mcStats := rfl
@[simp] theorem writeReg_ctx (tid : Nat) (r : RegIdx) (v : Word) : (writeReg s tid r v).ctx = s.ctx := rfl

/-! ### `writeX` -/

@[simp] theorem writeX_cfg (r : RegIdx) (v : Word) : (writeX s r v).cfg = s.cfg := rfl
@[simp] theorem writeX_imem (r : RegIdx) (v : Word) : (writeX s r v).imem = s.imem := rfl
@[simp] theorem writeX_mem (r : RegIdx) (v : Word) : (writeX s r v).mem = s.mem := rfl
@[simp] theorem writeX_blocks (r : RegIdx) (v : Word) : (writeX s r v).blocks = s.blocks := rfl
@[simp] theorem writeX_warps (r : RegIdx) (v : Word) : (writeX s r v).warps = s.warps := rfl
@[simp] theorem writeX_rr (r : RegIdx) (v : Word) : (writeX s r v).rr = s.rr := rfl
@[simp] theorem writeX_ticks (r : RegIdx) (v : Word) : (writeX s r v).ticks = s.ticks := rfl
@[simp] theorem writeX_cycle (r : RegIdx) (v : Word) : (writeX s r v).cycle = s.cycle := rfl
@[simp] theorem writeX_maxCycles (r : RegIdx) (v : Word) : (writeX s r v).maxCycles = s.maxCycles := rfl
@[simp] theorem writeX_cache (r : RegIdx) (v : Word) : (writeX s r v).cache = s.cache := rfl
@[simp] theorem writeX_mcQueue (r : RegIdx) (v : Word) : (writeX s r v).mcQueue = s.mcQueue := rfl
@[simp] theorem writeX_mcStats (r : RegIdx) (v : Word) : (writeX s r v).mcStats = s.mcStats := rfl
@[simp] theorem writeX_ctx (r : RegIdx) (v : Word) : (writeX s r v).ctx = s.ctx := rfl

/-! ### `setPc` -/

@[simp] theorem setPc_cfg (v : Word) : (setPc s v).cfg = s.cfg := rfl
@[simp] theorem setPc_imem (v : Word) : (setPc s v).imem = s.imem := rfl
@[simp] theorem setPc_mem (v : Word) : (setPc s v).mem = s.mem := rfl
@[simp] theorem setPc_rf (v : Word) : (setPc s v).rf = s.rf := rfl
@[simp] theorem setPc_blocks (v : Word) : (setPc s v).blocks = s.blocks := rfl
@[simp] theorem setPc_warps (v : Word) : (setPc s v).warps = s.warps := rfl
@[simp] theorem setPc_rr (v : Word) : (setPc s v).rr = s.rr := rfl
@[simp] theorem setPc_ticks (v : Word) : (setPc s v).ticks = s.ticks := rfl
@[simp] theorem setPc_cycle (v : Word) : (setPc s v).cycle = s.cycle := rfl
@[simp] theorem setPc_maxCycles (v : Word) : (setPc s v).maxCycles = s.maxCycles := rfl
@[simp] theorem setPc_cache (v : Word) : (setPc s v).cache = s.cache := rfl
@[simp] theorem setPc_mcQueue (v : Word) : (setPc s v).mcQueue = s.mcQueue := rfl
@[simp] theorem setPc_mcStats (v : Word) : (setPc s v).mcStats = s.mcStats := rfl

/-! ### `advance` -/

@[simp] theorem advance_cfg : (advance s).cfg = s.cfg := rfl
@[simp] theorem advance_imem : (advance s).imem = s.imem := rfl
@[simp] theorem advance_mem : (advance s).mem = s.mem := rfl
@[simp] theorem advance_rf : (advance s).rf = s.rf := rfl
@[simp] theorem advance_blocks : (advance s).blocks = s.blocks := rfl
@[simp] theorem advance_warps : (advance s).warps = s.warps := rfl
@[simp] theorem advance_rr : (advance s).rr = s.rr := rfl
@[simp] theorem advance_ticks : (advance s).ticks = s.ticks := rfl
@[simp] theorem advance_cycle : (advance s).cycle = s.cycle := rfl
@[simp] theorem advance_maxCycles : (advance s).maxCycles = s.maxCycles := rfl
@[simp] theorem advance_cache : (advance s).cache = s.cache := rfl
@[simp] theorem advance_mcQueue : (advance s).mcQueue = s.mcQueue := rfl
@[simp] theorem advance_mcStats : (advance s).mcStats = s.mcStats := rfl

/-! ### `deactivate` -/

@[simp] theorem deactivate_cfg : (deactivate s).cfg = s.cfg := rfl
@[simp] theorem deactivate_imem : (deactivate s).imem = s.imem := rfl
@[simp] theorem deactivate_mem : (deactivate s).mem = s.mem := rfl
@[simp] theorem deactivate_rf : (deactivate s).rf = s.rf := rfl
@[simp] theorem deactivate_blocks : (deactivate s).blocks = s.blocks := rfl
@[simp] theorem deactivate_warps : (deactivate s).warps = s.warps := rfl
@[simp] theorem deactivate_rr : (deactivate s).rr = s.rr := rfl
@[simp] theorem deactivate_ticks : (deactivate s).ticks = s.ticks := rfl
@[simp] theorem deactivate_cycle : (deactivate s).cycle = s.cycle := rfl
@[simp] theorem deactivate_maxCycles : (deactivate s).maxCycles = s.maxCycles := rfl
@[simp] theorem deactivate_cache : (deactivate s).cache = s.cache := rfl
@[simp] theorem deactivate_mcQueue : (deactivate s).mcQueue = s.mcQueue := rfl
@[simp] theorem deactivate_mcStats : (deactivate s).mcStats = s.mcStats := rfl

/-! ### `enqueue` -/

@[simp] theorem enqueue_cfg (r : MemoryRequest) : (enqueue s r).cfg = s.cfg := rfl
@[simp] theorem enqueue_imem (r : MemoryRequest) : (enqueue s r).imem = s.imem := rfl
@[simp] theorem enqueue_mem (r : MemoryRequest) : (enqueue s r).mem = s.mem := rfl
@[simp] theorem enqueue_rf (r : MemoryRequest) : (enqueue s r).rf = s.rf := rfl
@[simp] theorem enqueue_blocks (r : MemoryRequest) : (enqueue s r).blocks = s.blocks := rfl
@[simp] theorem enqueue_warps (r : MemoryRequest) : (enqueue s r).warps = s.warps := rfl
@[simp] theorem enqueue_rr (r : MemoryRequest) : (enqueue s r).rr = s.rr := rfl
@[simp] theorem enqueue_ticks (r : MemoryRequest) : (enqueue s r).ticks = s.ticks := rfl
@[simp] theorem enqueue_cycle (r : MemoryRequest) : (enqueue s r).cycle = s.cycle := rfl
@[simp] theorem enqueue_maxCycles (r : MemoryRequest) : (enqueue s r).maxCycles = s.maxCycles := rfl
@[simp] theorem enqueue_cache (r : MemoryRequest) : (enqueue s r).cache = s.cache := rfl
@[simp] theorem enqueue_mcStats (r : MemoryRequest) : (enqueue s r).mcStats = s.mcStats := rfl
@[simp] theorem enqueue_ctx (r : MemoryRequest) : (enqueue s r).ctx = s.ctx := rfl

/-! ### `setLine` -/

@[simp] theorem setLine_cfg (i : Nat) (l : Line) : (setLine s i l).cfg = s.cfg := rfl
@[simp] theorem setLine_imem (i : Nat) (l : Line) : (setLine s i l).imem = s.imem := rfl
@[simp] theorem setLine_mem (i : Nat) (l : Line) : (setLine s i l).mem = s.mem := rfl
@[simp] theorem setLine_rf (i : Nat) (l : Line) : (setLine s i l).rf = s.rf := rfl
@[simp] theorem setLine_blocks (i : Nat) (l : Line) : (setLine s i l).blocks = s.blocks := rfl
@[simp] theorem setLine_warps (i : Nat) (l : Line) : (setLine s i l).warps = s.warps := rfl
@[simp] theorem setLine_rr (i : Nat) (l : Line) : (setLine s i l).rr = s.rr := rfl
@[simp] theorem setLine_ticks (i : Nat) (l : Line) : (setLine s i l).ticks = s.ticks := rfl
@[simp] theorem setLine_cycle (i : Nat) (l : Line) : (setLine s i l).cycle = s.cycle := rfl
@[simp] theorem setLine_maxCycles (i : Nat) (l : Line) : (setLine s i l).maxCycles = s.maxCycles := rfl
@[simp] theorem setLine_mcQueue (i : Nat) (l : Line) : (setLine s i l).mcQueue = s.mcQueue := rfl
@[simp] theorem setLine_mcStats (i : Nat) (l : Line) : (setLine s i l).mcStats = s.mcStats := rfl
@[simp] theorem setLine_ctx (i : Nat) (l : Line) : (setLine s i l).ctx = s.ctx := rfl

/-! ### `countHit` -/

@[simp] theorem countHit_cfg : (countHit s).cfg = s.cfg := rfl
@[simp] theorem countHit_imem : (countHit s).imem = s.imem := rfl
@[simp] theorem countHit_mem : (countHit s).mem = s.mem := rfl
@[simp] theorem countHit_rf : (countHit s).rf = s.rf := rfl
@[simp] theorem countHit_blocks : (countHit s).blocks = s.blocks := rfl
@[simp] theorem countHit_warps : (countHit s).warps = s.warps := rfl
@[simp] theorem countHit_rr : (countHit s).rr = s.rr := rfl
@[simp] theorem countHit_ticks : (countHit s).ticks = s.ticks := rfl
@[simp] theorem countHit_cycle : (countHit s).cycle = s.cycle := rfl
@[simp] theorem countHit_maxCycles : (countHit s).maxCycles = s.maxCycles := rfl
@[simp] theorem countHit_mcQueue : (countHit s).mcQueue = s.mcQueue := rfl
@[simp] theorem countHit_mcStats : (countHit s).mcStats = s.mcStats := rfl
@[simp] theorem countHit_ctx : (countHit s).ctx = s.ctx := rfl

/-! ### `countMiss` -/

@[simp] theorem countMiss_cfg : (countMiss s).cfg = s.cfg := rfl
@[simp] theorem countMiss_imem : (countMiss s).imem = s.imem := rfl
@[simp] theorem countMiss_mem : (countMiss s).mem = s.mem := rfl
@[simp] theorem countMiss_rf : (countMiss s).rf = s.rf := rfl
@[simp] theorem countMiss_blocks : (countMiss s).blocks = s.blocks := rfl
@[simp] theorem countMiss_warps : (countMiss s).warps = s.warps := rfl
@[simp] theorem countMiss_rr : (countMiss s).rr = s.rr := rfl
@[simp] theorem countMiss_ticks : (countMiss s).ticks = s.ticks := rfl
@[simp] theorem countMiss_cycle : (countMiss s).cycle = s.cycle := rfl
@[simp] theorem countMiss_maxCycles : (countMiss s).maxCycles = s.maxCycles := rfl
@[simp] theorem countMiss_mcQueue : (countMiss s).mcQueue = s.mcQueue := rfl
@[simp] theorem countMiss_mcStats : (countMiss s).mcStats = s.mcStats := rfl
@[simp] theorem countMiss_ctx : (countMiss s).ctx = s.ctx := rfl

/-! ### `updateThread` -/

@[simp] theorem updateThread_cfg (r : ThreadRef) (f : Thread → Thread) : (updateThread s r f).cfg = s.cfg := rfl
@[simp] theorem updateThread_imem (r : ThreadRef) (f : Thread → Thread) : (updateThread s r f).imem = s.imem := rfl
@[simp] theorem updateThread_mem (r : ThreadRef) (f : Thread → Thread) : (updateThread s r f).mem = s.mem := rfl
@[simp] theorem updateThread_rf (r : ThreadRef) (f : Thread → Thread) : (updateThread s r f).rf = s.rf := rfl
@[simp] theorem updateThread_warps (r : ThreadRef) (f : Thread → Thread) : (updateThread s r f).warps = s.warps := rfl
@[simp] theorem updateThread_rr (r : ThreadRef) (f : Thread → Thread) : (updateThread s r f).rr = s.rr := rfl
@[simp] theorem updateThread_ticks (r : ThreadRef) (f : Thread → Thread) : (updateThread s r f).ticks = s.ticks := rfl
@[simp] theorem updateThread_cycle (r : ThreadRef) (f : Thread → Thread) : (updateThread s r f).cycle = s.cycle := rfl
@[simp] theorem updateThread_maxCycles (r : ThreadRef) (f : Thread → Thread) : (updateThread s r f).maxCycles = s.maxCycles := rfl
@[simp] theorem updateThread_cache (r : ThreadRef) (f : Thread → Thread) : (updateThread s r f).cache = s.cache := rfl
@[simp] theorem updateThread_mcQueue (r : ThreadRef) (f : Thread → Thread) : (updateThread s r f).mcQueue = s.mcQueue := rfl
@[simp] theorem updateThread_mcStats (r : ThreadRef) (f : Thread → Thread) : (updateThread s r f).mcStats = s.mcStats := rfl
@[simp] theorem updateThread_ctx (r : ThreadRef) (f : Thread → Thread) : (updateThread s r f).ctx = s.ctx := rfl

/-! ### `overrunThread` -/

@[simp] theorem overrunThread_cfg (r : ThreadRef) : (overrunThread s r).cfg = s.cfg := rfl
@[simp] theorem overrunThread_imem (r : ThreadRef) : (overrunThread s r).imem = s.imem := rfl
@[simp] theorem overrunThread_mem (r : ThreadRef) : (overrunThread s r).mem = s.mem := rfl
@[simp] theorem overrunThread_rf (r : ThreadRef) : (overrunThread s r).rf = s.rf := rfl
@[simp] theorem overrunThread_warps (r : ThreadRef) : (overrunThread s r).warps = s.warps := rfl
@[simp] theorem overrunThread_rr (r : ThreadRef) : (overrunThread s r).rr = s.rr := rfl
@[simp] theorem overrunThread_ticks (r : ThreadRef) : (overrunThread s r).ticks = s.ticks := rfl
@[simp] theorem overrunThread_cycle (r : ThreadRef) : (overrunThread s r).cycle = s.cycle := rfl
@[simp] theorem overrunThread_maxCycles (r : ThreadRef) : (overrunThread s r).maxCycles = s.maxCycles := rfl
@[simp] theorem overrunThread_cache (r : ThreadRef) : (overrunThread s r).cache = s.cache := rfl
@[simp] theorem overrunThread_mcQueue (r : ThreadRef) : (overrunThread s r).mcQueue = s.mcQueue := rfl
@[simp] theorem overrunThread_mcStats (r : ThreadRef) : (overrunThread s r).mcStats = s.mcStats := rfl
@[simp] theorem overrunThread_ctx (r : ThreadRef) : (overrunThread s r).ctx = s.ctx := rfl

/-! ### `enterThread` -/

@[simp] theorem enterThread_cfg (t : Thread) : (enterThread s t).cfg = s.cfg := rfl
@[simp] theorem enterThread_imem (t : Thread) : (enterThread s t).imem = s.imem := rfl
@[simp] theorem enterThread_mem (t : Thread) : (enterThread s t).mem = s.mem := rfl
@[simp] theorem enterThread_rf (t : Thread) : (enterThread s t).rf = s.rf := rfl
@[simp] theorem enterThread_blocks (t : Thread) : (enterThread s t).blocks = s.blocks := rfl
@[simp] theorem enterThread_warps (t : Thread) : (enterThread s t).warps = s.warps := rfl
@[simp] theorem enterThread_rr (t : Thread) : (enterThread s t).rr = s.rr := rfl
@[simp] theorem enterThread_ticks (t : Thread) : (enterThread s t).ticks = s.ticks := rfl
@[simp] theorem enterThread_cycle (t : Thread) : (enterThread s t).cycle = s.cycle := rfl
@[simp] theorem enterThread_maxCycles (t : Thread) : (enterThread s t).maxCycles = s.maxCycles := rfl
@[simp] theorem enterThread_cache (t : Thread) : (enterThread s t).cache = s.cache := rfl
@[simp] theorem enterThread_mcQueue (t : Thread) : (enterThread s t).mcQueue = s.mcQueue := rfl
@[simp] theorem enterThread_mcStats (t : Thread) : (enterThread s t).mcStats = s.mcStats := rfl

/-! ### `leaveThread` -/

@[simp] theorem leaveThread_cfg (r : ThreadRef) : (leaveThread s r).cfg = s.cfg := rfl
@[simp] theorem leaveThread_imem (r : ThreadRef) : (leaveThread s r).imem = s.imem := rfl
@[simp] theorem leaveThread_mem (r : ThreadRef) : (leaveThread s r).mem = s.mem := rfl
@[simp] theorem leaveThread_rf (r : ThreadRef) : (leaveThread s r).rf = s.rf := rfl
@[simp] theorem leaveThread_warps (r : ThreadRef) : (leaveThread s r).warps = s.warps := rfl
@[simp] theorem leaveThread_rr (r : ThreadRef) : (leaveThread s r).rr = s.rr := rfl
@[simp] theorem leaveThread_ticks (r : ThreadRef) : (leaveThread s r).ticks = s.ticks := rfl
@[simp] theorem leaveThread_cycle (r : ThreadRef) : (leaveThread s r).cycle = s.cycle := rfl
@[simp] theorem leaveThread_maxCycles (r : ThreadRef) : (leaveThread s r).maxCycles = s.maxCycles := rfl
@[simp] theorem leaveThread_cache (r : ThreadRef) : (leaveThread s r).cache = s.cache := rfl
@[simp] theorem leaveThread_mcQueue (r : ThreadRef) : (leaveThread s r).mcQueue = s.mcQueue := rfl
@[simp] theorem leaveThread_mcStats (r : ThreadRef) : (leaveThread s r).mcStats = s.mcStats := rfl

/-! ### `retireWarps` -/

@[simp] theorem retireWarps_cfg (ks : List Nat) : (retireWarps s ks).cfg = s.cfg := rfl
@[simp] theorem retireWarps_imem (ks : List Nat) : (retireWarps s ks).imem = s.imem := rfl
@[simp] theorem retireWarps_mem (ks : List Nat) : (retireWarps s ks).mem = s.mem := rfl
@[simp] theorem retireWarps_rf (ks : List Nat) : (retireWarps s ks).rf = s.rf := rfl
@[simp] theorem retireWarps_blocks (ks : List Nat) : (retireWarps s ks).blocks = s.blocks := rfl
@[simp] theorem retireWarps_rr (ks : List Nat) : (retireWarps s ks).rr = s.rr := rfl
@[simp] theorem retireWarps_ticks (ks : List Nat) : (retireWarps s ks).ticks = s.ticks := rfl
@[simp] theorem retireWarps_cycle (ks : List Nat) : (retireWarps s ks).cycle = s.cycle := rfl
@[simp] theorem retireWarps_maxCycles (ks : List Nat) : (retireWarps s ks).maxCycles = s.maxCycles := rfl
@[simp] theorem retireWarps_cache (ks : List Nat) : (retireWarps s ks).cache = s.cache := rfl
@[simp] theorem retireWarps_mcQueue (ks : List Nat) : (retireWarps s ks).mcQueue = s.mcQueue := rfl
@[simp] theorem retireWarps_mcStats (ks : List Nat) : (retireWarps s ks).mcStats = s.mcStats := rfl
@[simp] theorem retireWarps_ctx (ks : List Nat) : (retireWarps s ks).ctx = s.ctx := rfl

/-! ### `refreshWarpPc` -/

@[simp] theorem refreshWarpPc_cfg (k : Nat) : (refreshWarpPc s k).cfg = s.cfg := rfl
@[simp] theorem refreshWarpPc_imem (k : Nat) : (refreshWarpPc s k).imem = s.imem := rfl
@[simp] theorem refreshWarpPc_mem (k : Nat) : (refreshWarpPc s k).mem = s.mem := rfl
@[simp] theorem refreshWarpPc_rf (k : Nat) : (refreshWarpPc s k).rf = s.rf := rfl
@[simp] theorem refreshWarpPc_blocks (k : Nat) : (refreshWarpPc s k).blocks = s.blocks := rfl
@[simp] theorem refreshWarpPc_rr (k : Nat) : (refreshWarpPc s k).rr = s.rr := rfl
@[simp] theorem refreshWarpPc_ticks (k : Nat) : (refreshWarpPc s k).ticks = s.ticks := rfl
@[simp] theorem refreshWarpPc_cycle (k : Nat) : (refreshWarpPc s k).cycle = s.cycle := rfl
@[simp] theorem refreshWarpPc_maxCycles (k : Nat) : (refreshWarpPc s k).maxCycles = s.maxCycles := rfl
@[simp] theorem refreshWarpPc_cache (k : Nat) : (refreshWarpPc s k).cache = s.cache := rfl
@[simp] theorem refreshWarpPc_mcQueue (k : Nat) : (refreshWarpPc s k).mcQueue = s.mcQueue := rfl
@[simp] theorem refreshWarpPc_mcStats (k : Nat) : (refreshWarpPc s k).mcStats = s.mcStats := rfl
@[simp] theorem refreshWarpPc_ctx (k : Nat) : (refreshWarpPc s k).ctx = s.ctx := rfl

/-! ### `processRequests` -/

@[simp] theorem processRequests_cfg : (processRequests s).cfg = s.cfg := rfl
@[simp] theorem processRequests_imem : (processRequests s).imem = s.imem := rfl
@[simp] theorem processRequests_rf : (processRequests s).rf = s.rf := rfl
@[simp] theorem processRequests_blocks : (processRequests s).blocks = s.blocks := rfl
@[simp] theorem processRequests_warps : (processRequests s).warps = s.warps := rfl
@[simp] theorem processRequests_rr : (processRequests s).rr = s.rr := rfl
@[simp] theorem processRequests_ticks : (processRequests s).ticks = s.ticks := rfl
@[simp] theorem processRequests_cycle : (processRequests s).cycle = s.cycle := rfl
@[simp] theorem processRequests_maxCycles : (processRequests s).maxCycles = s.maxCycles := rfl
@[simp] theorem processRequests_cache : (processRequests s).cache = s.cache := rfl
@[simp] theorem processRequests_ctx : (processRequests s).ctx = s.ctx := rfl

/-! ### The fields that the updates set -/

@[simp] theorem globalWrite_mem (a : Nat) (v : Word) :
    (globalWrite s a v).mem = Memory.store s.cfg.memWords s.mem a v := rfl

@[simp] theorem writeReg_rf (tid : Nat) (r : RegIdx) (v : Word) :
    (writeReg s tid r v).rf = Table.put s.rf tid ((bankOf s.rf tid).set r.val v) := rfl

@[simp] theorem writeX_rf (r : RegIdx) (v : Word) :
    (writeX s r v).rf = Table.put s.rf s.ctx.threadId ((bankOf s.rf s.ctx.threadId).set r.val v) := rfl

@[simp] theorem setPc_ctx (v : Word) :
    (setPc s v).ctx = { s.ctx with pc := v } := rfl

@[simp] theorem advance_ctx : (advance s).ctx = { s.ctx with pc := s.ctx.pc + 1 } := rfl

@[simp] theorem deactivate_ctx : (deactivate s).ctx = { s.ctx with active := false } := rfl

@[simp] theorem enqueue_mcQueue (r : MemoryRequest) : (enqueue s r).mcQueue = s.mcQueue ++ [r] := rfl

@[simp] theorem setLine_lines (i : Nat) (l : Line) :
    (setLine s i l).cache.lines = Table.put s.cache.lines i l := rfl

@[simp] theorem setLine_hits (i : Nat) (l : Line) : (setLine s i l).cache.hits = s.cache.hits := rfl

@[simp] theorem setLine_misses (i : Nat) (l : Line) :
    (setLine s i l).cache.misses = s.cache.misses := rfl

@[simp] theorem countHit_lines : (countHit s).cache.lines = s.cache.lines := rfl

@[simp] theorem countHit_hits : (countHit s).cache.hits = s.cache.hits + 1 := rfl

@[simp] theorem countHit_misses : (countHit s).cache.misses = s.cache.misses := rfl

@[simp] theorem countMiss_lines : (countMiss s).cache.lines = s.cache.lines := rfl

@[simp] theorem countMiss_hits : (countMiss s).cache.hits = s.cache.hits := rfl

@[simp] theorem countMiss_misses : (countMiss s).cache.misses = s.cache.misses + 1 := rfl

@[simp] theorem enterThread_ctx (t : Thread) :
    (enterThread s t).ctx =
      { threadId := t.threadId, blockId := t.blockId, pc := t.pc, active := true } := rfl

@[simp] theorem leaveThread_ctx (r : ThreadRef) : (leaveThread s r).ctx = ExecContext.idle := rfl

@[simp] theorem processRequests_mcQueue : (processRequests s).mcQueue = [] := rfl

@[simp] theorem processRequests_mcStats :
    (processRequests s).mcStats = coalesce s.mcStats (sortByAddress s.mcQueue) := rfl

@[simp] theorem processRequests_mem :
    (processRequests s).mem =
      (serviceRequests s.cfg.memWords s.mem (sortByAddress s.mcQueue)).1 := rfl

/-! ### `settleLoad` -/

@[simp] theorem settleLoad_cfg (i : Instr) (ws : List Word) :
    (settleLoad i ws s).cfg = s.cfg := rfl
@[simp] theorem settleLoad_imem (i : Instr) (ws : List Word) :
    (settleLoad i ws s).imem = s.imem := rfl
@[simp] theorem settleLoad_mem (i : Instr) (ws : List Word) :
    (settleLoad i ws s).mem = s.mem := rfl
@[simp] theorem settleLoad_blocks (i : Instr) (ws : List Word) :
    (settleLoad i ws s).blocks = s.blocks := rfl
@[simp] theorem settleLoad_warps (i : Instr) (ws : List Word) :
    (settleLoad i ws s).warps = s.warps := rfl
@[simp] theorem settleLoad_rr (i : Instr) (ws : List Word) :
    (settleLoad i ws s).rr = s.rr := rfl
@[simp] theorem settleLoad_ticks (i : Instr) (ws : List Word) :
    (settleLoad i ws s).ticks = s.ticks := rfl
@[simp] theorem settleLoad_cycle (i : Instr) (ws : List Word) :
    (settleLoad i ws s).cycle = s.cycle := rfl
@[simp] theorem settleLoad_maxCycles (i : Instr) (ws : List Word) :
    (settleLoad i ws s).maxCycles = s.maxCycles := rfl
@[simp] theorem settleLoad_cache (i : Instr) (ws : List Word) :
    (settleLoad i ws s).cache = s.cache := rfl
@[simp] theorem settleLoad_mcQueue (i : Instr) (ws : List Word) :
    (settleLoad i ws s).mcQueue = s.mcQueue := rfl
@[simp] theorem settleLoad_mcStats (i : Instr) (ws : List Word) :
    (settleLoad i ws s).mcStats = s.mcStats := rfl
@[simp] theorem settleLoad_ctx (i : Instr) (ws : List Word) :
    (settleLoad i ws s).ctx = s.ctx := rfl

@[simp] theorem settleLoad_nil (i : Instr) : settleLoad i [] s = s := by
  unfold settleLoad
  cases destination? i <;> rfl

/-! ### `settleStores` -/

@[simp] theorem settleStores_cfg (q : List MemoryRequest) : (settleStores q s).cfg = s.cfg := rfl
@[simp] theorem settleStores_imem (q : List MemoryRequest) : (settleStores q s).imem = s.imem := rfl
@[simp] theorem settleStores_rf (q : List MemoryRequest) : (settleStores q s).rf = s.rf := rfl
@[simp] theorem settleStores_blocks (q : List MemoryRequest) : (settleStores q s).blocks = s.blocks := rfl
@[simp] theorem settleStores_warps (q : List MemoryRequest) : (settleStores q s).warps = s.warps := rfl
@[simp] theorem settleStores_rr (q : List MemoryRequest) : (settleStores q s).rr = s.rr := rfl
@[simp] theorem settleStores_ticks (q : List MemoryRequest) : (settleStores q s).ticks = s.ticks := rfl
@[simp] theorem settleStores_cycle (q : List MemoryRequest) : (settleStores q s).cycle = s.cycle := rfl
@[simp] theorem settleStores_maxCycles (q : List MemoryRequest) : (settleStores q s).maxCycles = s.maxCycles := rfl
@[simp] theorem settleStores_mcQueue (q : List MemoryRequest) : (settleStores q s).mcQueue = s.mcQueue := rfl
@[simp] theorem settleStores_mcStats (q : List MemoryRequest) : (settleStores q s).mcStats = s.mcStats := rfl
@[simp] theorem settleStores_ctx (q : List MemoryRequest) : (settleStores q s).ctx = s.ctx := rfl

/-! ### `endCycle` -/

@[simp] theorem endCycle_cfg (k : Nat) : (endCycle s k).cfg = s.cfg := rfl
@[simp] theorem endCycle_imem (k : Nat) : (endCycle s k).imem = s.imem := rfl
@[simp] theorem endCycle_rf (k : Nat) : (endCycle s k).rf = s.rf := rfl
@[simp] theorem endCycle_blocks (k : Nat) : (endCycle s k).blocks = s.blocks := rfl
@[simp] theorem endCycle_rr (k : Nat) : (endCycle s k).rr = s.rr := rfl
@[simp] theorem endCycle_maxCycles (k : Nat) : (endCycle s k).maxCycles = s.maxCycles := rfl
@[simp] theorem endCycle_ctx (k : Nat) : (endCycle s k).ctx = s.ctx := rfl

@[simp] theorem endCycle_cycle (k : Nat) : (endCycle s k).cycle = s.cycle + 1 := rfl
@[simp] theorem endCycle_ticks (k : Nat) : (endCycle s k).ticks = s.ticks + 1 := rfl
@[simp] theorem endCycle_mem (k : Nat) :
    (endCycle s k).mem = (settleStores s.mcQueue (processRequests s)).mem := rfl
@[simp] theorem endCycle_cache (k : Nat) :
    (endCycle s k).cache = (settleStores s.mcQueue (processRequests s)).cache := rfl
@[simp] theorem endCycle_mcQueue (k : Nat) : (endCycle s k).mcQueue = [] := rfl
@[simp] theorem endCycle_mcStats (k : Nat) : (endCycle s k).mcStats = (processRequests s).mcStats := rfl
@[simp] theorem endCycle_warps (k : Nat) :
    (endCycle s k).warps = (refreshWarpPc (processRequests s) k).warps := rfl

/-! ### Outcomes -/

@[simp] theorem andThen_next (f : State → Result) : andThen (.next s) f = f s := rfl

end Sys2Proof.Machine
end

