-- ==== Sys2Proof/Laws/Tables.lean ====
section
/-! SUPPORT. What the table and memory operations do: a read after a write, and the canonical form.
Callers cite these lemmas and do not unfold the operations. -/

namespace Sys2Proof.Machine

variable {α : Type}

/-! ### Tables -/

@[simp] theorem Table.get?_put_self (t : Table α) (a : Nat) (v : α) :
    Table.get? (Table.put t a v) a = some v := by
  induction t with
  | nil => simp [Table.put, Table.get?]
  | cons e t ih =>
    obtain ⟨k, w⟩ := e
    unfold Table.put
    split_ifs with h1 h2
    · simp [Table.get?]
    · simp [Table.get?]
    · simp [Table.get?, h2, ih]

theorem Table.get?_put_of_ne (t : Table α) {a b : Nat} (v : α) (h : b ≠ a) :
    Table.get? (Table.put t a v) b = Table.get? t b := by
  induction t with
  | nil => simp [Table.put, Table.get?, h.symm]
  | cons e t ih =>
    obtain ⟨k, w⟩ := e
    unfold Table.put
    split_ifs with h1 h2
    · simp [Table.get?, h.symm]
    · subst h2
      simp [Table.get?, h.symm]
    · simp [Table.get?, ih]

theorem Table.get?_put (t : Table α) (a b : Nat) (v : α) :
    Table.get? (Table.put t a v) b = if b = a then some v else Table.get? t b := by
  split_ifs with h
  · rw [h, Table.get?_put_self]
  · exact Table.get?_put_of_ne t v h

theorem Table.get?_del (t : Table α) (a b : Nat) :
    Table.get? (Table.del t a) b = if b = a then none else Table.get? t b := by
  induction t with
  | nil => simp [Table.del, Table.get?]
  | cons e t ih =>
    obtain ⟨k, w⟩ := e
    unfold Table.del at ih ⊢
    by_cases hk : k = a
    · simp only [List.filter_cons, hk, bne_self_eq_false, Bool.false_eq_true, if_false, ih]
      split_ifs with h
      · rfl
      · simp [Table.get?, Ne.symm h]
    · simp only [List.filter_cons, bne_iff_ne, ne_eq, hk, not_false_eq_true, if_true, Table.get?, ih]
      split_ifs with h1 h2
      · exact absurd (h1.trans h2) hk
      · rfl
      · rfl
      · rfl

theorem Table.mem_put {t : Table α} {a : Nat} {v : α} {e : Nat × α} (h : e ∈ Table.put t a v) :
    e = (a, v) ∨ e ∈ t := by
  induction t with
  | nil => simpa [Table.put] using h
  | cons d t ih =>
    obtain ⟨k, w⟩ := d
    unfold Table.put at h
    split_ifs at h with h1 h2
    · simpa using h
    · rcases List.mem_cons.1 h with h | h
      · exact .inl h
      · exact .inr (List.mem_cons_of_mem _ h)
    · rcases List.mem_cons.1 h with h | h
      · exact .inr (by simp [h])
      · exact (ih h).imp id (List.mem_cons_of_mem _)

theorem Table.sorted_put {t : Table α} (a : Nat) (v : α) (h : Table.Sorted t) :
    Table.Sorted (Table.put t a v) := by
  induction t with
  | nil => simp [Table.put, Table.Sorted]
  | cons e t ih =>
    obtain ⟨k, w⟩ := e
    obtain ⟨hk, ht⟩ := List.pairwise_cons.1 h
    unfold Table.put
    split_ifs with h1 h2
    · refine List.pairwise_cons.2 ⟨fun f hf => ?_, h⟩
      rcases List.mem_cons.1 hf with rfl | hf
      · exact h1
      · exact h1.trans (hk f hf)
    · exact List.pairwise_cons.2 ⟨fun f hf => h2 ▸ hk f hf, ht⟩
    · refine List.pairwise_cons.2 ⟨fun f hf => ?_, ih ht⟩
      rcases Table.mem_put hf with rfl | hf
      · show k < a
        omega
      · exact hk f hf

theorem Table.sorted_del {t : Table α} (a : Nat) (h : Table.Sorted t) :
    Table.Sorted (Table.del t a) :=
  List.Pairwise.filter _ h

theorem Table.mem_of_get? {t : Table α} {a : Nat} {v : α} (h : Table.get? t a = some v) :
    (a, v) ∈ t := by
  induction t with
  | nil => simp [Table.get?] at h
  | cons e t ih =>
    obtain ⟨k, w⟩ := e
    unfold Table.get? at h
    split_ifs at h with hk
    · simp_all
    · exact List.mem_cons_of_mem _ (ih h)

theorem Table.get?_of_mem {t : Table α} (hs : Table.Sorted t) {a : Nat} {v : α} (h : (a, v) ∈ t) :
    Table.get? t a = some v := by
  induction t with
  | nil => simp at h
  | cons e t ih =>
    obtain ⟨k, w⟩ := e
    obtain ⟨hk, ht⟩ := List.pairwise_cons.1 hs
    rcases List.mem_cons.1 h with h | h
    · simp_all [Table.get?]
    · have : k < a := hk _ h
      simp [Table.get?, this.ne, ih ht h]

/-- Two tables in canonical form with the same values under every key are the same table. -/
theorem Table.eq_of_get?_eq {t u : Table α} (ht : Table.Sorted t) (hu : Table.Sorted u)
    (h : ∀ a, Table.get? t a = Table.get? u a) : t = u := by
  induction t generalizing u with
  | nil =>
    cases u with
    | nil => rfl
    | cons e u => simpa [Table.get?] using h e.1
  | cons e t ih =>
    obtain ⟨k, v⟩ := e
    cases u with
    | nil => simpa [Table.get?] using h k
    | cons f u =>
      obtain ⟨j, w⟩ := f
      have hk := (List.pairwise_cons.1 ht).1
      have hj := (List.pairwise_cons.1 hu).1
      have key : k = j := by
        have h1 := Table.mem_of_get? ((h k).symm.trans (by simp [Table.get?] : _ = some v))
        have h2 := Table.mem_of_get? ((h j).trans (by simp [Table.get?] : _ = some w))
        rcases List.mem_cons.1 h1 with h1 | h1
        · exact congrArg Prod.fst h1
        · rcases List.mem_cons.1 h2 with h2 | h2
          · exact (congrArg Prod.fst h2).symm
          · have := hj _ h1
            have := hk _ h2
            simp only at *
            omega
      subst key
      have hv : v = w := by simpa [Table.get?] using h k
      subst hv
      congr 1
      refine ih (List.pairwise_cons.1 ht).2 (List.pairwise_cons.1 hu).2 fun a => ?_
      by_cases ha : k = a
      · subst ha
        have n1 : Table.get? t k = none := by
          cases hg : Table.get? t k with
          | none => rfl
          | some v => exact absurd (hk _ (Table.mem_of_get? hg)) (lt_irrefl _)
        have n2 : Table.get? u k = none := by
          cases hg : Table.get? u k with
          | none => rfl
          | some v => exact absurd (hj _ (Table.mem_of_get? hg)) (lt_irrefl _)
        rw [n1, n2]
      · simpa [Table.get?, ha] using h a

/-! ### Global memory -/

theorem Memory.read_write (m : Memory) (a b : Nat) (v : Word) :
    Memory.read (Memory.write m a v) b = if b = a then v else Memory.read m b := by
  unfold Memory.read Memory.write
  split_ifs with hv h h
  · simp [Table.get?_del, h, hv]
  · simp [Table.get?_del, h]
  · simp [h]
  · simp [Table.get?_put, h]

@[simp] theorem Memory.read_write_self (m : Memory) (a : Nat) (v : Word) :
    Memory.read (Memory.write m a v) a = v := by simp [Memory.read_write]

/-- Every write keeps the canonical form. -/
theorem Memory.wf_write {m : Memory} (h : Memory.wf m) (a : Nat) (v : Word) :
    Memory.wf (Memory.write m a v) := by
  unfold Memory.write
  split_ifs with hv
  · exact ⟨Table.sorted_del a h.1, fun e he => h.2 e (List.mem_of_mem_filter he)⟩
  · refine ⟨Table.sorted_put a v h.1, fun e he => ?_⟩
    rcases Table.mem_put he with rfl | he
    · exact hv
    · exact h.2 e he

theorem Memory.mem_write {m : Memory} {a : Nat} {v : Word} {e : Nat × Word}
    (h : e ∈ Memory.write m a v) : e.1 = a ∨ e ∈ m := by
  unfold Memory.write at h
  split_ifs at h with hv
  · exact .inr (List.mem_of_mem_filter h)
  · exact (Table.mem_put h).imp (fun h => by simp [h]) id

/-- Equal memories are equal data. -/
theorem Memory.eq_of_read_eq {m n : Memory} (hm : Memory.wf m) (hn : Memory.wf n)
    (h : ∀ a, Memory.read m a = Memory.read n a) : m = n := by
  refine Table.eq_of_get?_eq hm.1 hn.1 fun a => ?_
  have ha := h a
  unfold Memory.read at ha
  cases h1 : Table.get? m a with
  | none =>
    cases h2 : Table.get? n a with
    | none => rfl
    | some w => exact absurd (by simpa [h1, h2] using ha.symm) (hn.2 _ (Table.mem_of_get? h2))
  | some v =>
    cases h2 : Table.get? n a with
    | none => exact absurd (by simpa [h1, h2] using ha) (hm.2 _ (Table.mem_of_get? h1))
    | some w => simpa [h1, h2] using ha

@[simp] theorem Memory.load_empty (n a : Nat) : Memory.load n [] a = 0 := by
  simp [Memory.load, Memory.read, Table.get?]

theorem Memory.load_store (n : Nat) (m : Memory) (a b : Nat) (v : Word) :
    Memory.load n (Memory.store n m a v) b = if b = a ∧ b < n then v else Memory.load n m b := by
  unfold Memory.load Memory.store
  by_cases hb : b < n <;> by_cases ha : a < n <;> by_cases h : b = a <;>
    simp [hb, ha, h, Memory.read_write]

theorem Memory.wf_store {n : Nat} {m : Memory} (h : Memory.wf m) (a : Nat) (v : Word) :
    Memory.wf (Memory.store n m a v) := by
  unfold Memory.store
  split_ifs
  · exact Memory.wf_write h a v
  · exact h

/-- A write lists no word outside the memory. -/
theorem Memory.bounded_store {n : Nat} {m : Memory} (h : ∀ e ∈ m, e.1 < n) (a : Nat) (v : Word) :
    ∀ e ∈ Memory.store n m a v, e.1 < n := by
  unfold Memory.store
  split_ifs with ha
  · intro e he
    rcases Memory.mem_write he with h1 | h1
    · omega
    · exact h e h1
  · exact h

/-- Writing the word that a memory already holds changes nothing. -/
theorem Memory.store_load_self {n : Nat} {m : Memory} (h : Memory.wf m) (a : Nat) :
    Memory.store n m a (Memory.load n m a) = m := by
  unfold Memory.store
  split_ifs with ha
  · refine Memory.eq_of_read_eq (Memory.wf_write h _ _) h fun b => ?_
    rw [Memory.read_write]
    split_ifs with hb
    · simp [Memory.load, ha, hb]
    · rfl
  · rfl

theorem globalRead_globalWrite (s : State) (a b : Nat) (v : Word) :
    globalRead (globalWrite s a v) b = if b = a ∧ b < s.cfg.memWords then v else globalRead s b :=
  Memory.load_store _ _ _ _ _

theorem globalRead_of_ge (s : State) {a : Nat} (h : s.cfg.memWords ≤ a) : globalRead s a = 0 := by
  simp [globalRead, Memory.load, Nat.not_lt.2 h]

/-! ### Registers -/

theorem bankOf_put (rf : Table RegBank) (tid tid' : Nat) (b : RegBank) :
    bankOf (Table.put rf tid b) tid' = if tid' = tid then b else bankOf rf tid' := by
  unfold bankOf
  rw [Table.get?_put]
  split_ifs <;> rfl

/-- A register write changes that register of that thread and no other one (R18). -/
theorem readReg_writeReg (s : State) (tid tid' : Nat) (r r' : RegIdx) (v : Word) :
    readReg (writeReg s tid r v) tid' r' = if tid' = tid ∧ r' = r then v else readReg s tid' r' := by
  unfold readReg
  simp only [writeReg_rf, bankOf_put]
  by_cases h : tid' = tid
  · subst h
    by_cases h' : r' = r
    · subst h'; simp
    · have : (r : Nat) ≠ r' := fun h => h' (Fin.ext h.symm)
      simp [h', this]
  · simp [h]

end Sys2Proof.Machine
end

