-- ==== Sys2Proof/Laws/Cache.lean ====
section
/-! SUPPORT. What the cache operations can do: which fields they touch, what they do to global memory
and to the lines, and what a coherent cache returns (spec/20_memory.md R47 to R56). -/

namespace Sys2Proof.Machine

/-! ### Geometry -/

theorem cacheLines_pos (c : Config) : 0 < c.cacheLines := Nat.two_pow_pos _

theorem cacheIndex_lt (c : Config) (a : Word) : cacheIndex c a < c.cacheLines :=
  Nat.mod_lt _ (cacheLines_pos c)

theorem cacheTag_toNat (c : Config) (a : Word) : (cacheTag c a).toNat = a.toNat / 2 ^ (2 + c.lineBits) := by
  unfold cacheTag
  rw [BitVec.toNat_ofNat]
  exact Nat.mod_eq_of_lt ((Nat.div_le_self _ _).trans_lt a.isLt)

/-- `base(tag(a), index(a)) = u(a) − offset(a)` (R47). -/
theorem lineBase_cacheTag (c : Config) (a : Word) :
    lineBase c (cacheTag c a) (cacheIndex c a) = a.toNat - a.toNat % 4 := by
  unfold lineBase cacheIndex Config.cacheLines
  rw [cacheTag_toNat, Nat.pow_add, ← Nat.div_div_eq_div_mul]
  have h := Nat.div_add_mod (a.toNat / 2 ^ 2) (2 ^ c.lineBits)
  have h4 : (2 : Nat) ^ 2 = 4 := rfl
  rw [h4] at h ⊢
  generalize a.toNat / 4 / 2 ^ c.lineBits = q at *
  generalize a.toNat / 4 % 2 ^ c.lineBits = m at *
  have h2 : q * (4 * 2 ^ c.lineBits) = 4 * (2 ^ c.lineBits * q) := by ring
  rw [h2]
  omega

/-- A tag and an index name one memory line (R47). -/
theorem lineBase_injective (c : Config) {t u : Word} {i j : Nat} (hi : i < c.cacheLines)
    (hj : j < c.cacheLines) (h : lineBase c t i = lineBase c u j) : t = u ∧ i = j := by
  unfold lineBase at h
  unfold Config.cacheLines at hi hj
  rw [Nat.pow_add] at h
  have h' : t.toNat * 2 ^ c.lineBits + i = u.toNat * 2 ^ c.lineBits + j := by
    have e : ∀ n k : Nat, n * (2 ^ 2 * 2 ^ c.lineBits) + k * 4 = 4 * (n * 2 ^ c.lineBits + k) := by
      intro n k; ring
    rw [e, e] at h
    omega
  have hij : i = j := by
    have := congrArg (· % 2 ^ c.lineBits) h'
    simpa [Nat.mod_eq_of_lt hi, Nat.mod_eq_of_lt hj, Nat.add_mod] using this
  subst hij
  have htu : t.toNat * 2 ^ c.lineBits = u.toNat * 2 ^ c.lineBits := by omega
  exact ⟨BitVec.eq_of_toNat_eq (Nat.eq_of_mul_eq_mul_right (Nat.two_pow_pos _) htu), rfl⟩

theorem lineBase_mod_four (c : Config) (t : Word) (i : Nat) : lineBase c t i % 4 = 0 := by
  unfold lineBase
  rw [Nat.pow_add]
  have : t.toNat * (2 ^ 2 * 2 ^ c.lineBits) = 4 * (t.toNat * 2 ^ c.lineBits) := by ring
  omega

/-! ### Which fields the operations touch -/

theorem foldl_globalWrite_eq (f : State → Fin 4 → Nat) (d : Fin 4 → Word) (ks : List (Fin 4)) (s : State) :
    ∃ m, ks.foldl (fun s k => globalWrite s (f s k) (d k)) s = { s with mem := m } := by
  induction ks generalizing s with
  | nil => exact ⟨s.mem, rfl⟩
  | cons k ks ih =>
    obtain ⟨m, hm⟩ := ih (globalWrite s (f s k) (d k))
    exact ⟨m, by rw [List.foldl_cons, hm]; rfl⟩

/-- A write-back touches global memory only. -/
theorem writeBack_eq (s : State) (i : Nat) (l : Line) :
    writeBack s i l = { s with mem := (writeBack s i l).mem } := by
  obtain ⟨m, hm⟩ := foldl_globalWrite_eq (fun s k => lineBase s.cfg l.tag i + k.val)
    (fun k => l.data[k.val]) lineOffsets s
  have hw : writeBack s i l = { s with mem := m } := hm
  rw [hw]

/-- An eviction touches global memory only. -/
theorem evict_eq (s : State) (i : Nat) : evict s i = { s with mem := (evict s i).mem } := by
  unfold evict
  split
  · split_ifs
    · exact writeBack_eq _ _ _
    · rfl
  · rfl

/-- Making a line resident touches global memory and the cache only. -/
theorem makeResident_eq (s : State) (a : Word) :
    (makeResident s a).state =
      { s with mem := (makeResident s a).state.mem, cache := (makeResident s a).state.cache } := by
  unfold makeResident
  split
  · rfl
  · show setLine (evict (countMiss s) _) _ _ = _
    rw [evict_eq]
    rfl

/-- A cache read touches global memory (by a write-back) and the cache only (R51). -/
theorem cacheRead_eq (s : State) (a : Word) :
    (cacheRead s a).state =
      { s with mem := (cacheRead s a).state.mem, cache := (cacheRead s a).state.cache } := by
  unfold cacheRead
  split_ifs
  · exact makeResident_eq s a
  · rfl

/-- A state that differs in global memory and the cache only. -/
theorem eq_with_mem_cache {s t : State} (h : ∃ m c, t = { s with mem := m, cache := c }) :
    t = { s with mem := t.mem, cache := t.cache } := by
  obtain ⟨m, c, rfl⟩ := h
  rfl

/-- A cache write touches global memory and the cache only (R52). -/
theorem cacheWrite_eq (s : State) (a v : Word) :
    (cacheWrite s a v).state =
      { s with mem := (cacheWrite s a v).state.mem, cache := (cacheWrite s a v).state.cache } := by
  unfold cacheWrite
  split_ifs
  · refine eq_with_mem_cache ?_
    simp only
    generalize (makeResident s a).line = l
    rw [makeResident_eq s a]
    exact ⟨_, _, rfl⟩
  · rfl

/-! ### The canonical form of memory -/

theorem MemoryInv.globalWrite {s : State} (h : MemoryInv s) (a : Nat) (v : Word) :
    MemoryInv (globalWrite s a v) :=
  ⟨Memory.wf_store h.1 a v, Memory.bounded_store h.2 a v⟩

theorem MemoryInv.writeBack {s : State} (h : MemoryInv s) (i : Nat) (l : Line) :
    MemoryInv (writeBack s i l) := by
  unfold Machine.writeBack
  generalize lineOffsets = ks
  induction ks generalizing s with
  | nil => exact h
  | cons k ks ih => exact ih (h.globalWrite _ _)

theorem MemoryInv.evict {s : State} (h : MemoryInv s) (i : Nat) : MemoryInv (evict s i) := by
  unfold Machine.evict
  split
  · split_ifs
    · exact h.writeBack _ _
    · exact h
  · exact h

theorem MemoryInv.makeResident {s : State} (h : MemoryInv s) (a : Word) :
    MemoryInv (makeResident s a).state := by
  unfold Machine.makeResident
  split
  · exact h
  · exact MemoryInv.evict (s := countMiss s) h _

theorem MemoryInv.cacheRead {s : State} (h : MemoryInv s) (a : Word) :
    MemoryInv (cacheRead s a).state := by
  unfold Machine.cacheRead
  split_ifs
  · exact h.makeResident a
  · exact h

theorem MemoryInv.cacheWrite {s : State} (h : MemoryInv s) (a v : Word) :
    MemoryInv (cacheWrite s a v).state := by
  unfold Machine.cacheWrite
  split_ifs
  · exact MemoryInv.globalWrite (s := setLine (Machine.makeResident s a).state _ _) (h.makeResident a) _ _
  · exact h

/-! ### A coherent cache -/

/-- Writing back a line that agrees with memory changes nothing. -/
theorem writeBack_of_agrees {s : State} (hm : MemoryInv s) (i : Nat) (l : Line)
    (h : ∀ k : Fin 4, l.data[k.val] = globalRead s (lineBase s.cfg l.tag i + k.val)) :
    writeBack s i l = s := by
  unfold writeBack
  generalize lineOffsets = ks
  induction ks with
  | nil => rfl
  | cons k ks ih =>
    have hk : globalWrite s (lineBase s.cfg l.tag i + k.val) l.data[k.val] = s := by
      rw [h k]
      unfold globalWrite globalRead
      rw [Memory.store_load_self hm.1]
    rw [List.foldl_cons, hk, ih]

/-- In a coherent cache an eviction changes nothing (R52, R54). -/
theorem evict_of_coherent {s : State} (hm : MemoryInv s) (hc : CacheInv s) (i : Nat) :
    evict s i = s := by
  unfold evict
  split
  · rename_i l hl
    split_ifs
    · exact writeBack_of_agrees hm i l (hc.2 _ (Table.mem_of_get? hl)).2.2
    · rfl
  · rfl

theorem CacheInv.countMiss {s : State} (h : CacheInv s) : CacheInv (countMiss s) := h

theorem CacheInv.countHit {s : State} (h : CacheInv s) : CacheInv (countHit s) := h

/-- The words of the line a miss loads (R50). -/
theorem filledLine_data (s : State) (a : Word) (k : Fin 4) :
    (filledLine s a).data[k.val] = globalRead s (a.toNat - a.toNat % 4 + k.val) := by
  fin_cases k <;> rfl

theorem filledLine_tag (s : State) (a : Word) : (filledLine s a).tag = cacheTag s.cfg a := rfl

/-- A line that agrees with memory may be made resident at its own index. -/
theorem CacheInv.setLine {s : State} (h : CacheInv s) {i : Nat} {l : Line} (hi : i < s.cfg.cacheLines)
    (hb : lineBase s.cfg l.tag i < s.cfg.memWords)
    (hl : ∀ k : Fin 4, l.data[k.val] = globalRead s (lineBase s.cfg l.tag i + k.val)) :
    CacheInv (setLine s i l) := by
  refine ⟨Table.sorted_put i l h.1, fun e he => ?_⟩
  rcases Table.mem_put he with rfl | he
  · exact ⟨hi, hb, hl⟩
  · exact h.2 e he

theorem inRange_iff (s : State) (a : Word) : inRange s a = true ↔ a.toNat < s.cfg.memWords := by
  simp [inRange]

theorem lineBase_lt_of_inRange {s : State} {a : Word} (h : inRange s a = true) :
    lineBase s.cfg (cacheTag s.cfg a) (cacheIndex s.cfg a) < s.cfg.memWords := by
  rw [lineBase_cacheTag]
  have := (inRange_iff s a).1 h
  omega

/-- The words of a resident line of a coherent cache. -/
theorem CacheInv.resident {s : State} (hc : CacheInv s) {a : Word} {l : Line}
    (hr : residentLine? s a = some l) :
    l.tag = cacheTag s.cfg a ∧
    ∀ k : Fin 4, l.data[k.val] = globalRead s (a.toNat - a.toNat % 4 + k.val) := by
  unfold residentLine? at hr
  split at hr
  · rename_i l' hl'
    split_ifs at hr with ht
    obtain rfl : l' = l := by simpa using hr
    refine ⟨ht, fun k => ?_⟩
    have := (hc.2 _ (Table.mem_of_get? hl')).2.2 k
    rw [ht, lineBase_cacheTag] at this
    exact this
  · simp at hr

/-- What making the line of an in-range address resident does in a coherent cache: memory stays, the
cache stays coherent, and the line holds the memory line of the address under its tag
(R48, R49, R50, R56). -/
theorem makeResident_of_coherent {s : State} (hm : MemoryInv s) (hc : CacheInv s) {a : Word}
    (ha : inRange s a = true) :
    (makeResident s a).state.mem = s.mem ∧ CacheInv (makeResident s a).state ∧
    (makeResident s a).line.tag = cacheTag s.cfg a ∧
    ∀ k : Fin 4, (makeResident s a).line.data[k.val] =
      globalRead s (a.toNat - a.toNat % 4 + k.val) := by
  unfold makeResident
  split
  · rename_i l hl
    obtain ⟨ht, hd⟩ := hc.resident hl
    exact ⟨rfl, hc, ht, hd⟩
  · have he : evict (countMiss s) (cacheIndex s.cfg a) = countMiss s :=
      evict_of_coherent (s := countMiss s) hm hc _
    simp only [he]
    refine ⟨rfl, ?_, rfl, fun k => filledLine_data _ a k⟩
    refine CacheInv.setLine (s := countMiss s) hc (cacheIndex_lt s.cfg a) (lineBase_lt_of_inRange ha) fun k => ?_
    rw [filledLine_data]
    show globalRead s _ = globalRead s (lineBase s.cfg (cacheTag s.cfg a) (cacheIndex s.cfg a) + k.val)
    rw [lineBase_cacheTag]

/-- What a read does in a coherent cache: the word of memory, memory unchanged, still coherent
(R51, R53, R56). -/
theorem cacheRead_of_coherent {s : State} (hm : MemoryInv s) (hc : CacheInv s) (a : Word) :
    (cacheRead s a).data = globalRead s a.toNat ∧ (cacheRead s a).state.mem = s.mem ∧
    CacheInv (cacheRead s a).state := by
  unfold cacheRead
  split_ifs with ha
  · obtain ⟨h1, h2, _, h4⟩ := makeResident_of_coherent hm hc ha
    refine ⟨?_, h1, h2⟩
    have := h4 (cacheOffset a)
    simp only [cacheOffset] at this ⊢
    rw [this]
    congr 1
    omega
  · exact ⟨(globalRead_of_ge s (Nat.not_lt.1 fun h => ha ((inRange_iff s a).2 h))).symm, rfl, hc⟩

/-- The lines whose word is replaced, in the cache and in memory, are the ones of the address: a line
that agrees with memory may take the address's index, with the word at the address replaced in both. -/
theorem CacheInv.updateLine {s : State} (hc : CacheInv s) {a : Word} (ha : inRange s a = true)
    {l : Line} (ht : l.tag = cacheTag s.cfg a)
    (hl : ∀ k : Fin 4, l.data[k.val] = globalRead s (a.toNat - a.toNat % 4 + k.val)) (d : Bool)
    (v : Word) :
    CacheInv (globalWrite (Machine.setLine s (cacheIndex s.cfg a)
      { l with dirty := d, data := l.data.set (cacheOffset a).val v }) a.toNat v) := by
  have haM := (inRange_iff s a).1 ha
  refine ⟨Table.sorted_put _ _ hc.1, fun e he => ?_⟩
  simp only [globalRead_globalWrite]
  show e.1 < s.cfg.cacheLines ∧ lineBase s.cfg e.2.tag e.1 < s.cfg.memWords ∧
    ∀ k : Fin 4, e.2.data[k.val] =
      if lineBase s.cfg e.2.tag e.1 + k.val = a.toNat ∧
        lineBase s.cfg e.2.tag e.1 + k.val < s.cfg.memWords then v
      else globalRead s (lineBase s.cfg e.2.tag e.1 + k.val)
  have hget := Table.get?_of_mem (Table.sorted_put _ _ hc.1) (show (e.1, e.2) ∈ _ from he)
  by_cases hi : e.1 = cacheIndex s.cfg a
  · rw [hi, Table.get?_put_self] at hget
    rw [← Option.some.inj hget, hi, show (_ : Line).tag = cacheTag s.cfg a from ht, lineBase_cacheTag]
    refine ⟨cacheIndex_lt _ _, by omega, fun k => ?_⟩
    simp only [Vector.getElem_set, cacheOffset]
    by_cases hk : a.toNat % 4 = k.val
    · rw [if_pos hk, if_pos]
      omega
    · rw [if_neg hk, hl, if_neg]
      omega
  · rw [Table.get?_put_of_ne _ _ hi] at hget
    obtain ⟨g1, g2, g3⟩ := hc.2 _ (Table.mem_of_get? hget)
    refine ⟨g1, g2, fun k => ?_⟩
    rw [g3 k, if_neg]
    rintro ⟨hk, -⟩
    have hbase : lineBase s.cfg e.2.tag e.1 = lineBase s.cfg (cacheTag s.cfg a) (cacheIndex s.cfg a) := by
      have := lineBase_mod_four s.cfg e.2.tag e.1
      rw [lineBase_cacheTag]
      omega
    exact hi (lineBase_injective s.cfg g1 (cacheIndex_lt _ _) hbase).2

/-- A word of memory that no valid line holds may be written alone. -/
theorem CacheInv.globalWrite_of_not_resident {s : State} (hc : CacheInv s) {a : Word}
    (hr : residentLine? s a = none) (v : Word) : CacheInv (globalWrite s a.toNat v) := by
  refine ⟨hc.1, fun e he => ?_⟩
  obtain ⟨g1, g2, g3⟩ := hc.2 e he
  refine ⟨g1, g2, fun k => ?_⟩
  rw [g3 k, globalRead_globalWrite, if_neg]
  · rfl
  rintro ⟨hk, -⟩
  have hk' : lineBase s.cfg e.2.tag e.1 + k.val = a.toNat := hk
  have hbase : lineBase s.cfg e.2.tag e.1 = lineBase s.cfg (cacheTag s.cfg a) (cacheIndex s.cfg a) := by
    have := lineBase_mod_four s.cfg e.2.tag e.1
    rw [lineBase_cacheTag]
    omega
  obtain ⟨ht, hi⟩ := lineBase_injective s.cfg g1 (cacheIndex_lt _ _) hbase
  have hget : lineAt? s (cacheIndex s.cfg a) = some e.2 := hi ▸ Table.get?_of_mem hc.1 he
  unfold residentLine? at hr
  rw [hget] at hr
  simp [ht] at hr

/-- What a write does in a coherent cache: the one word of memory, dropped out of range, and the cache
stays coherent (R52, R53, R56). -/
theorem cacheWrite_of_coherent {s : State} (hm : MemoryInv s) (hc : CacheInv s) (a v : Word) :
    (∀ b, globalRead (cacheWrite s a v).state b =
      if b = a.toNat ∧ b < s.cfg.memWords then v else globalRead s b) ∧
    CacheInv (cacheWrite s a v).state := by
  unfold cacheWrite
  split_ifs with ha
  · obtain ⟨h1, h2, h3, h4⟩ := makeResident_of_coherent hm hc ha
    have hcfg : (makeResident s a).state.cfg = s.cfg := by rw [makeResident_eq]
    have hread : ∀ b, globalRead (makeResident s a).state b = globalRead s b := by
      intro b
      unfold globalRead
      rw [h1, hcfg]
    refine ⟨fun b => ?_, ?_⟩
    · show globalRead (globalWrite (makeResident s a).state a.toNat v) b = _
      rw [globalRead_globalWrite, hread, hcfg]
    · have := CacheInv.updateLine h2 (a := a) (by unfold inRange; rw [hcfg]; exact ha)
        (by rw [h3, hcfg]) (fun k => by rw [hread]; exact h4 k) true v
      rw [hcfg] at this
      exact this
  · refine ⟨fun b => ?_, hc⟩
    rw [if_neg]
    rintro ⟨rfl, h⟩
    exact ha ((inRange_iff s a).2 h)

end Sys2Proof.Machine
end

