-- ==== Sys2Proof/Laws/Controller.lean ====
section
/-! SUPPORT. What the drain of the request queue does: the sort keeps the requests and the order of
those to one address, the commit leaves in each word the last store queued for it, and a queue that
agrees with memory commits nothing new (spec/20_memory.md R58, R62, D29). -/

namespace Sys2Proof.Machine

theorem insertByAddress_perm (r : MemoryRequest) (q : List MemoryRequest) :
    (insertByAddress r q).Perm (r :: q) := by
  induction q with
  | nil => exact List.Perm.refl _
  | cons p q ih =>
    unfold insertByAddress
    split_ifs
    · exact List.Perm.refl _
    · exact (ih.cons p).trans (List.Perm.swap r p q)

/-- The sort loses and adds no request. -/
theorem sortByAddress_perm (q : List MemoryRequest) : (sortByAddress q).Perm q := by
  induction q with
  | nil => exact List.Perm.refl _
  | cons r q ih => exact (insertByAddress_perm r _).trans (ih.cons r)

@[simp] theorem sortByAddress_length (q : List MemoryRequest) :
    (sortByAddress q).length = q.length := (sortByAddress_perm q).length_eq

theorem insertByAddress_sorted {r : MemoryRequest} {q : List MemoryRequest}
    (h : q.Pairwise fun e f => e.address.toNat ≤ f.address.toNat) :
    (insertByAddress r q).Pairwise fun e f => e.address.toNat ≤ f.address.toNat := by
  induction q with
  | nil => simp [insertByAddress]
  | cons p q ih =>
    obtain ⟨hp, hq⟩ := List.pairwise_cons.1 h
    unfold insertByAddress
    split_ifs with hr
    · refine List.pairwise_cons.2 ⟨fun f hf => ?_, h⟩
      rcases List.mem_cons.1 hf with rfl | hf
      · exact hr
      · exact hr.trans (hp f hf)
    · refine List.pairwise_cons.2 ⟨fun f hf => ?_, ih hq⟩
      rcases List.mem_cons.1 ((insertByAddress_perm r q).subset hf) with rfl | hf
      · omega
      · exact hp f hf

/-- The sort's addresses do not fall. -/
theorem sortByAddress_sorted (q : List MemoryRequest) :
    (sortByAddress q).Pairwise fun e f => e.address.toNat ≤ f.address.toNat := by
  induction q with
  | nil => exact List.Pairwise.nil
  | cons r q ih => exact insertByAddress_sorted ih

theorem queuedStores_cons (r : MemoryRequest) (q : List MemoryRequest) (a : Nat) :
    queuedStores (r :: q) a =
      (if r.write && r.address.toNat == a then r.data else none).toList ++ queuedStores q a := by
  unfold queuedStores
  rw [List.filterMap_cons]
  split <;> simp_all

theorem queuedStores_append (p q : List MemoryRequest) (a : Nat) :
    queuedStores (p ++ q) a = queuedStores p a ++ queuedStores q a := List.filterMap_append

theorem queuedStores_insertByAddress (r : MemoryRequest) (q : List MemoryRequest) (a : Nat) :
    queuedStores (insertByAddress r q) a = queuedStores (r :: q) a := by
  induction q with
  | nil => rfl
  | cons p q ih =>
    unfold insertByAddress
    split_ifs with h
    · rfl
    · rw [queuedStores_cons, ih, queuedStores_cons, queuedStores_cons r, queuedStores_cons p]
      by_cases hr : r.address.toNat = a
      · have hp : p.address.toNat ≠ a := by omega
        simp [hp]
      · simp [hr]

/-- The sort is stable: the stores to one address keep their order (D29). -/
theorem queuedStores_sortByAddress (q : List MemoryRequest) (a : Nat) :
    queuedStores (sortByAddress q) a = queuedStores q a := by
  induction q with
  | nil => rfl
  | cons r q ih =>
    show queuedStores (insertByAddress r (sortByAddress q)) a = _
    rw [queuedStores_insertByAddress, queuedStores_cons, ih, ← queuedStores_cons]

theorem load_commitRequest (n : Nat) (m : Memory) (r : MemoryRequest) (a : Nat) (ha : a < n) :
    Memory.load n (commitRequest n m r) a =
      (if r.write && r.address.toNat == a then r.data else none).getD (Memory.load n m a) := by
  unfold commitRequest
  cases hw : r.write <;> cases hd : r.data <;> simp only [Bool.true_and, Bool.false_and]
  · rfl
  · rfl
  · split_ifs <;> rfl
  · rw [Memory.load_store]
    by_cases h : r.address.toNat = a
    · simp [h, ha]
    · simp [h, Ne.symm h]

/-- After the requests are serviced in order, a word holds the last of the stores to it, or what it
held (R58). -/
theorem load_serviceRequests (n : Nat) (m : Memory) (q : List MemoryRequest) (a : Nat) (ha : a < n) :
    Memory.load n (serviceRequests n m q).1 a =
      (queuedStores q a).getLast?.getD (Memory.load n m a) := by
  induction q generalizing m with
  | nil => rfl
  | cons r q ih =>
    show Memory.load n (serviceRequests n (commitRequest n m r) q).1 a = _
    rw [ih, load_commitRequest n m r a ha, queuedStores_cons]
    cases (if (r.write && r.address.toNat == a) = true then r.data else none) with
    | none => simp
    | some v =>
      cases h : (queuedStores q a).getLast? with
      | none =>
        rw [List.getLast?_eq_none_iff] at h
        simp [h]
      | some w =>
        have : queuedStores q a ≠ [] := fun h' => by simp [h'] at h
        rw [Option.toList_some, List.singleton_append, List.getLast?_cons, h]
        simp

theorem wf_commitRequest {n : Nat} {m : Memory} (h : Memory.wf m) (r : MemoryRequest) :
    Memory.wf (commitRequest n m r) := by
  unfold commitRequest
  split
  · exact Memory.wf_store h _ _
  · exact h
  · exact h

theorem bounded_commitRequest {n : Nat} {m : Memory} (h : ∀ e ∈ m, e.1 < n) (r : MemoryRequest) :
    ∀ e ∈ commitRequest n m r, e.1 < n := by
  unfold commitRequest
  split
  · exact Memory.bounded_store h _ _
  · exact h
  · exact h

theorem wf_serviceRequests {n : Nat} {m : Memory} (h : Memory.wf m) (q : List MemoryRequest) :
    Memory.wf (serviceRequests n m q).1 := by
  induction q generalizing m with
  | nil => exact h
  | cons r q ih => exact ih (wf_commitRequest h r)

theorem bounded_serviceRequests {n : Nat} {m : Memory} (h : ∀ e ∈ m, e.1 < n)
    (q : List MemoryRequest) : ∀ e ∈ (serviceRequests n m q).1, e.1 < n := by
  induction q generalizing m with
  | nil => exact h
  | cons r q ih => exact ih (bounded_commitRequest h r)

/-- The drain keeps the canonical form. -/
theorem MemoryInv.processRequests {s : State} (h : MemoryInv s) : MemoryInv (processRequests s) :=
  ⟨wf_serviceRequests h.1 _, bounded_serviceRequests h.2 _⟩

/-- A memory that lists only words below its size is given by its reads. -/
theorem Memory.eq_of_load_eq {n : Nat} {m m' : Memory} (hm : Memory.wf m) (hm' : Memory.wf m')
    (hb : ∀ e ∈ m, e.1 < n) (hb' : ∀ e ∈ m', e.1 < n)
    (h : ∀ a, a < n → Memory.load n m a = Memory.load n m' a) : m = m' := by
  refine Memory.eq_of_read_eq hm hm' fun a => ?_
  by_cases ha : a < n
  · simpa [Memory.load, ha] using h a ha
  · have none_of : ∀ u : Memory, (∀ e ∈ u, e.1 < n) → Table.get? u a = none := by
      intro u hu
      cases hg : Table.get? u a with
      | none => rfl
      | some v => exact absurd (hu _ (Table.mem_of_get? hg)) ha
    simp [Memory.read, none_of m hb, none_of m' hb']

/-- A queue that agrees with memory commits nothing new (R58: "The controller commits the same value
again at the end of the cycle", R116). -/
theorem processRequests_mem_of_agrees {s : State} (hm : MemoryInv s) (hq : QueueAgrees s) :
    (processRequests s).mem = s.mem := by
  refine Memory.eq_of_load_eq (wf_serviceRequests hm.1 _) hm.1 (bounded_serviceRequests hm.2 _) hm.2
    fun a ha => ?_
  rw [processRequests_mem, load_serviceRequests _ _ _ _ ha, queuedStores_sortByAddress]
  cases h : (queuedStores s.mcQueue a).getLast? with
  | none => rfl
  | some v => exact (hq a ha v h).symm

/-- Each request has a response of its own, in service order (R58, R60). -/
theorem serviceRequests_ids (n : Nat) (m : Memory) (q : List MemoryRequest) :
    (serviceRequests n m q).2.map (·.id) = q.map responseId := by
  induction q generalizing m with
  | nil => rfl
  | cons r q ih =>
    show responseId r :: ((serviceRequests n (commitRequest n m r) q).2.map (·.id)) = _
    rw [ih, List.map_cons]

end Sys2Proof.Machine
end

