-- ==== Sys2Proof/Laws/Decode.lean ====
section
/-! SUPPORT. The fields of an instruction word as numbers, the fields of the words the encoder writes,
and the inverse of the opcode map (spec/30_encoding.md R73, R76, R80). -/

namespace Sys2Proof

/-! ### Fields as numbers -/

theorem extractLsb'_toNat_div (w : Word) (i n : Nat) :
    (w.extractLsb' i n).toNat = w.toNat / 2 ^ i % 2 ^ n := by
  simp [BitVec.extractLsb'_toNat, Nat.shiftRight_eq_div_pow]

theorem opField_toNat (w : Word) : (opField w).toNat = w.toNat / 2 ^ 24 % 2 ^ 8 :=
  extractLsb'_toNat_div w 24 8

theorem rdField_val (w : Word) : (rdField w).val = w.toNat / 2 ^ 20 % 2 ^ 4 :=
  extractLsb'_toNat_div w 20 4

theorem rs1Field_val (w : Word) : (rs1Field w).val = w.toNat / 2 ^ 16 % 2 ^ 4 :=
  extractLsb'_toNat_div w 16 4

theorem rs2Field_val (w : Word) : (rs2Field w).val = w.toNat / 2 ^ 12 % 2 ^ 4 :=
  extractLsb'_toNat_div w 12 4

theorem imm16Field_toNat (w : Word) : (imm16Field w).toNat = w.toNat % 2 ^ 16 := by
  have h := extractLsb'_toNat_div w 0 16
  rwa [Nat.pow_zero, Nat.div_one] at h

/-! ### The words of the encoder -/

theorem encodeR_toNat (op : OpByte) (rd rs1 rs2 : RegIdx) :
    (encodeR op rd rs1 rs2).toNat =
      op.toNat * 2 ^ 24 + rd.val * 2 ^ 20 + rs1.val * 2 ^ 16 + rs2.val * 2 ^ 12 := by
  have := op.isLt
  unfold encodeR
  rw [BitVec.toNat_ofNat]
  omega

theorem encodeI_toNat (op : OpByte) (rd rs1 : RegIdx) (imm : Word) :
    (encodeI op rd rs1 imm).toNat =
      op.toNat * 2 ^ 24 + rd.val * 2 ^ 20 + rs1.val * 2 ^ 16 + imm.toNat % 2 ^ 16 := by
  have := op.isLt
  unfold encodeI
  rw [BitVec.toNat_ofNat]
  omega

theorem encodeN_toNat (op : OpByte) : (encodeN op).toNat = op.toNat * 2 ^ 24 := by
  have := op.isLt
  unfold encodeN
  rw [BitVec.toNat_ofNat]
  omega

@[simp] theorem opField_encodeR (op : OpByte) (rd rs1 rs2 : RegIdx) :
    opField (encodeR op rd rs1 rs2) = op := by
  have := op.isLt
  apply BitVec.eq_of_toNat_eq
  rw [opField_toNat, encodeR_toNat]
  omega

@[simp] theorem opField_encodeI (op : OpByte) (rd rs1 : RegIdx) (imm : Word) :
    opField (encodeI op rd rs1 imm) = op := by
  have := op.isLt
  apply BitVec.eq_of_toNat_eq
  rw [opField_toNat, encodeI_toNat]
  omega

@[simp] theorem opField_encodeN (op : OpByte) : opField (encodeN op) = op := by
  have := op.isLt
  apply BitVec.eq_of_toNat_eq
  rw [opField_toNat, encodeN_toNat]
  omega

@[simp] theorem rdField_encodeR (op : OpByte) (rd rs1 rs2 : RegIdx) :
    rdField (encodeR op rd rs1 rs2) = rd := by
  apply Fin.ext
  rw [rdField_val, encodeR_toNat]
  omega

@[simp] theorem rs1Field_encodeR (op : OpByte) (rd rs1 rs2 : RegIdx) :
    rs1Field (encodeR op rd rs1 rs2) = rs1 := by
  apply Fin.ext
  rw [rs1Field_val, encodeR_toNat]
  omega

@[simp] theorem rs2Field_encodeR (op : OpByte) (rd rs1 rs2 : RegIdx) :
    rs2Field (encodeR op rd rs1 rs2) = rs2 := by
  apply Fin.ext
  rw [rs2Field_val, encodeR_toNat]
  omega

@[simp] theorem rdField_encodeI (op : OpByte) (rd rs1 : RegIdx) (imm : Word) :
    rdField (encodeI op rd rs1 imm) = rd := by
  apply Fin.ext
  rw [rdField_val, encodeI_toNat]
  omega

@[simp] theorem rs1Field_encodeI (op : OpByte) (rd rs1 : RegIdx) (imm : Word) :
    rs1Field (encodeI op rd rs1 imm) = rs1 := by
  apply Fin.ext
  rw [rs1Field_val, encodeI_toNat]
  omega

/-! ### The opcode map -/

/-- No opcode has the byte exactly when the map does not assign it (R77). -/
theorem opOf?_eq_none_iff (m : OpcodeMap) (b : OpByte) : m.opOf? b = none ↔ b ∉ m.assigned := by
  unfold OpcodeMap.opOf? OpcodeMap.assigned
  rw [List.find?_eq_none]
  simp [List.mem_map]

theorem Opcode.mem_all (op : Opcode) : op ∈ Opcode.all := by cases op <;> decide

/-- Under a map that gives no byte twice, the opcode of an assigned byte is the one it was given to. -/
theorem opOf?_byteOf (m : OpcodeMap) (h : m.wf = true) (op : Opcode) :
    m.opOf? (m.byteOf op) = some op := by
  have hn : (Opcode.all.map m.byteOf).Nodup := of_decide_eq_true h
  unfold OpcodeMap.opOf?
  cases hf : Opcode.all.find? (fun o => m.byteOf o == m.byteOf op) with
  | none => exact absurd (List.find?_eq_none.1 hf op op.mem_all) (by simp)
  | some o =>
    have h1 := List.find?_some hf
    rw [List.inj_on_of_nodup_map hn (List.mem_of_find?_eq_some hf) op.mem_all (by simpa using h1)]

end Sys2Proof
end

