-- ==== Sys2Proof/Laws/Instructions.lean ====
section
/-! SUPPORT. What an instruction can do: it always answers a next state; which parts of the state it
leaves alone; and that it keeps the invariants of memory, cache and queue. -/

namespace Sys2Proof.Machine

/-- The two states differ in a branch's PC only. -/
theorem branchIf_eq (taken : Bool) (imm : Word) (s : State) :
    branchIf taken imm s = setPc s (if taken then branchTarget s.ctx.pc imm else s.ctx.pc + 1) := by
  cases taken <;> rfl

theorem execCmp_eq (rs1 rs2 : RegIdx) (s : State) : execCmp rs1 rs2 s = .next (advance s) := by
  unfold execCmp
  split <;> rfl

/-- The state after a load. -/
def afterLdr (rd rs1 : RegIdx) (imm : Word) (s : State) : State :=
  advance (enqueue
    (writeX (cacheRead s (effectiveAddress (x s rs1) imm)).state rd
      (cacheRead s (effectiveAddress (x s rs1) imm)).data)
    (loadRequest s (effectiveAddress (x s rs1) imm)))

/-- The state after a store. -/
def afterStr (rd rs1 : RegIdx) (imm : Word) (s : State) : State :=
  advance (enqueue (cacheWrite s (effectiveAddress (x s rs1) imm) (x s rd)).state
    (storeRequest s (effectiveAddress (x s rs1) imm) (x s rd)))

/-- One case per shape of instruction: what `exec` can answer. -/
theorem exec_cases {i : Instr} {s t : State} (h : exec i s = .next t) :
    (∃ pc, t = setPc s pc) ∨ t = deactivate s ∨ (∃ rd v, t = advance (writeX s rd v)) ∨
    (∃ rd rs1 imm, i = .ldr rd rs1 imm ∧ t = afterLdr rd rs1 imm s) ∨
    (∃ rd rs1 imm, i = .str rd rs1 imm ∧ t = afterStr rd rs1 imm s) := by
  have pcCase : ∀ pc, (Host.Outcome.next (setPc s pc) : Result) = .next t → ∃ pc, t = setPc s pc :=
    fun pc h => ⟨pc, (Host.Outcome.next.inj h).symm⟩
  have brCase : ∀ c imm, (Host.Outcome.next (branchIf c imm s) : Result) = .next t →
      ∃ pc, t = setPc s pc :=
    fun c imm h => ⟨_, (Host.Outcome.next.inj h).symm.trans (branchIf_eq c imm s)⟩
  have regCase : ∀ rd v, (Host.Outcome.next (advance (writeX s rd v)) : Result) = .next t →
      ∃ rd v, t = advance (writeX s rd v) :=
    fun rd v h => ⟨rd, v, (Host.Outcome.next.inj h).symm⟩
  cases i with
  | nop => exact .inl (pcCase _ h)
  | const rd imm => exact .inr (.inr (.inl (regCase _ _ h)))
  | add rd rs1 rs2 => exact .inr (.inr (.inl (regCase _ _ h)))
  | sub rd rs1 rs2 => exact .inr (.inr (.inl (regCase _ _ h)))
  | mul rd rs1 rs2 => exact .inr (.inr (.inl (regCase _ _ h)))
  | div rd rs1 rs2 => exact .inr (.inr (.inl (regCase _ _ h)))
  | and rd rs1 rs2 => exact .inr (.inr (.inl (regCase _ _ h)))
  | or rd rs1 rs2 => exact .inr (.inr (.inl (regCase _ _ h)))
  | xor rd rs1 rs2 => exact .inr (.inr (.inl (regCase _ _ h)))
  | ldr rd rs1 imm =>
    exact .inr (.inr (.inr (.inl ⟨rd, rs1, imm, rfl, (Host.Outcome.next.inj h).symm⟩)))
  | str rd rs1 imm =>
    exact .inr (.inr (.inr (.inr ⟨rd, rs1, imm, rfl, (Host.Outcome.next.inj h).symm⟩)))
  | br imm => exact .inl (brCase _ _ h)
  | brz rs1 imm => exact .inl (brCase _ _ h)
  | brnz rs1 imm => exact .inl (brCase _ _ h)
  | brn rs1 imm => exact .inl (brCase _ _ h)
  | brp rs1 imm => exact .inl (brCase _ _ h)
  | cmp rs1 rs2 => exact .inl (pcCase _ ((execCmp_eq rs1 rs2 s).symm.trans h))
  | ret => exact .inr (.inl (Host.Outcome.next.inj h).symm)
  | nopU12 => exact .inl (pcCase _ h)
  | nopU14 => exact .inl (pcCase _ h)
  | nopU18 => exact .inl (pcCase _ h)
  | nopU20 => exact .inl (pcCase _ h)
  | nopU40 => exact .inl (pcCase _ h)
  | nopU80 => exact .inl (pcCase _ h)

/-- No instruction stops the machine (R126). -/
theorem exec_answers_next (i : Instr) (s : State) : ∃ t, exec i s = .next t := by
  cases i
  case cmp rs1 rs2 => exact ⟨_, execCmp_eq rs1 rs2 s⟩
  all_goals exact ⟨_, rfl⟩

theorem afterLdr_eq (rd rs1 : RegIdx) (imm : Word) (s : State) :
    ∃ m c b, afterLdr rd rs1 imm s =
      { s with
        mem := m, cache := c, rf := Table.put s.rf s.ctx.threadId b,
        mcQueue := s.mcQueue ++ [loadRequest s (effectiveAddress (x s rs1) imm)],
        ctx := { s.ctx with pc := s.ctx.pc + 1 } } := by
  unfold afterLdr
  rw [cacheRead_eq]
  exact ⟨_, _, _, rfl⟩

theorem afterStr_eq (rd rs1 : RegIdx) (imm : Word) (s : State) :
    ∃ m c, afterStr rd rs1 imm s =
      { s with
        mem := m, cache := c,
        mcQueue := s.mcQueue ++ [storeRequest s (effectiveAddress (x s rs1) imm) (x s rd)],
        ctx := { s.ctx with pc := s.ctx.pc + 1 } } := by
  unfold afterStr
  rw [cacheWrite_eq]
  exact ⟨_, _, rfl⟩

/-- What no instruction touches. -/
theorem exec_sameEngine {i : Instr} {s t : State} (h : exec i s = .next t) : SameEngine s t := by
  rcases exec_cases h with ⟨pc, rfl⟩ | rfl | ⟨rd, v, rfl⟩ | ⟨rd, rs1, imm, -, rfl⟩ | ⟨rd, rs1, imm, -, rfl⟩
  · constructor <;> rfl
  · constructor <;> rfl
  · constructor <;> rfl
  · obtain ⟨m, c, b, he⟩ := afterLdr_eq rd rs1 imm s
    rw [he]
    constructor <;> rfl
  · obtain ⟨m, c, he⟩ := afterStr_eq rd rs1 imm s
    rw [he]
    constructor <;> rfl

/-- An instruction changes the register file at most in the executing thread's bank (R18, R95). -/
theorem exec_rf {i : Instr} {s t : State} (h : exec i s = .next t) :
    t.rf = s.rf ∨ ∃ b, t.rf = Table.put s.rf s.ctx.threadId b := by
  rcases exec_cases h with ⟨pc, rfl⟩ | rfl | ⟨rd, v, rfl⟩ | ⟨rd, rs1, imm, -, rfl⟩ | ⟨rd, rs1, imm, -, rfl⟩
  · exact .inl rfl
  · exact .inl rfl
  · exact .inr ⟨_, rfl⟩
  · obtain ⟨m, c, b, he⟩ := afterLdr_eq rd rs1 imm s
    exact .inr ⟨b, by rw [he]⟩
  · obtain ⟨m, c, he⟩ := afterStr_eq rd rs1 imm s
    exact .inl (by rw [he])

/-- An instruction keeps the identity of the executing thread. -/
theorem exec_ctx {i : Instr} {s t : State} (h : exec i s = .next t) :
    t.ctx.threadId = s.ctx.threadId ∧ t.ctx.blockId = s.ctx.blockId := by
  rcases exec_cases h with ⟨pc, rfl⟩ | rfl | ⟨rd, v, rfl⟩ | ⟨rd, rs1, imm, -, rfl⟩ | ⟨rd, rs1, imm, -, rfl⟩
  · exact ⟨rfl, rfl⟩
  · exact ⟨rfl, rfl⟩
  · exact ⟨rfl, rfl⟩
  · obtain ⟨m, c, b, he⟩ := afterLdr_eq rd rs1 imm s
    rw [he]
    exact ⟨rfl, rfl⟩
  · obtain ⟨m, c, he⟩ := afterStr_eq rd rs1 imm s
    rw [he]
    exact ⟨rfl, rfl⟩

/-- An instruction keeps the canonical form of memory. -/
theorem exec_memoryInv {i : Instr} {s t : State} (h : exec i s = .next t) (hm : MemoryInv s) :
    MemoryInv t := by
  rcases exec_cases h with ⟨pc, rfl⟩ | rfl | ⟨rd, v, rfl⟩ | ⟨rd, rs1, imm, -, rfl⟩ | ⟨rd, rs1, imm, -, rfl⟩
  · exact hm
  · exact hm
  · exact hm
  · exact hm.cacheRead _
  · exact hm.cacheWrite _ _

/-- An instruction keeps the cache coherent and the queue in agreement with memory (R52, R56, R57). -/
theorem exec_coherent {i : Instr} {s t : State} (h : exec i s = .next t) (hm : MemoryInv s)
    (hc : CacheInv s) (hq : QueueAgrees s) : CacheInv t ∧ QueueAgrees t := by
  rcases exec_cases h with ⟨pc, rfl⟩ | rfl | ⟨rd, v, rfl⟩ | ⟨rd, rs1, imm, -, rfl⟩ | ⟨rd, rs1, imm, -, rfl⟩
  · exact ⟨hc, hq⟩
  · exact ⟨hc, hq⟩
  · exact ⟨hc, hq⟩
  · generalize hea : effectiveAddress (x s rs1) imm = ea
    obtain ⟨-, h2, h3⟩ := cacheRead_of_coherent hm hc ea
    have hcfg : (cacheRead s ea).state.cfg = s.cfg := by rw [cacheRead_eq]
    have hqq : (cacheRead s ea).state.mcQueue = s.mcQueue := by rw [cacheRead_eq]
    unfold afterLdr
    rw [hea]
    refine ⟨h3, fun a ha v hv => ?_⟩
    have hv' : (queuedStores ((cacheRead s ea).state.mcQueue ++ [loadRequest s ea]) a).getLast? = some v := hv
    rw [hqq, queuedStores_append] at hv'
    have := hq a (hcfg ▸ ha) v (by simpa [queuedStores, loadRequest] using hv')
    show Memory.load (cacheRead s ea).state.cfg.memWords (cacheRead s ea).state.mem a = v
    rw [hcfg, h2]
    exact this
  · generalize hea : effectiveAddress (x s rs1) imm = ea
    generalize hd : x s rd = d
    obtain ⟨h1, h2⟩ := cacheWrite_of_coherent hm hc ea d
    have hcfg : (cacheWrite s ea d).state.cfg = s.cfg := by rw [cacheWrite_eq]
    have hqq : (cacheWrite s ea d).state.mcQueue = s.mcQueue := by rw [cacheWrite_eq]
    unfold afterStr
    rw [hea, hd]
    refine ⟨h2, fun a ha v hv => ?_⟩
    have hv' : (queuedStores ((cacheWrite s ea d).state.mcQueue ++ [storeRequest s ea d]) a).getLast? = some v := hv
    rw [hqq, queuedStores_append] at hv'
    have ha' : a < s.cfg.memWords := hcfg ▸ ha
    show globalRead (cacheWrite s ea d).state a = v
    rw [h1]
    by_cases hae : ea.toNat = a
    · rw [if_pos ⟨hae.symm, ha'⟩]
      simpa [queuedStores, storeRequest, hae] using hv'
    · rw [if_neg fun h => hae h.1.symm]
      exact hq a ha' v (by simpa [queuedStores, storeRequest, hae] using hv')

end Sys2Proof.Machine
end

