-- ==== Sys2Proof/Laws/Engine.lean ====
section
/-! SUPPORT. What the step of a thread, a lane, a warp and the whole cycle can do
(spec/40_execution_cycle.md R91 to R94). -/

namespace Sys2Proof.Machine

/-! ### Threads at places -/

theorem threadAt?_updateThread (s : State) (r q : ThreadRef) (f : Thread → Thread) :
    threadAt? (updateThread s r f) q = if q = r then (threadAt? s r).map f else threadAt? s q := by
  unfold threadAt? updateThread
  simp only [List.getElem?_modify]
  by_cases hb : r.block = q.block
  · rw [hb]
    cases hg : s.blocks[q.block]? with
    | none => by_cases hrq : q = r <;> simp [hrq]
    | some b =>
      simp only [Option.map_eq_map, Option.map_some, if_true, List.getElem?_modify]
      by_cases ht : r.thread = q.thread
      · have hrq : q = r := by cases q; cases r; simp_all
        simp [hrq]
      · rw [if_neg (show ¬q = r from fun h => ht (by rw [h]))]
        simp [ht]
  · rw [if_neg (show ¬q = r from fun h => hb (by rw [h]))]
    cases hg : s.blocks[q.block]? with
    | none => simp
    | some b => simp [hb]

/-- The ids of all threads do not change when threads are updated without changing their ids. -/
theorem allThreads_updateThread_ids (s : State) (r : ThreadRef) (f : Thread → Thread)
    (hf : ∀ t, (f t).threadId = t.threadId) :
    (allThreads (updateThread s r f)).map (·.threadId) = (allThreads s).map (·.threadId) := by
  unfold allThreads updateThread
  simp only [List.map_flatMap]
  have key : ∀ (l : List Thread) (n : Nat), (l.modify n f).map (·.threadId) = l.map (·.threadId) := by
    intro l n
    apply List.ext_getElem?
    intro j
    simp only [List.getElem?_map, List.getElem?_modify]
    cases l[j]? with
    | none => simp
    | some t => by_cases h : n = j <;> simp [h, hf]
  rw [List.flatMap_def, List.flatMap_def]
  congr 1
  apply List.ext_getElem?
  intro j
  simp only [List.getElem?_map, List.getElem?_modify]
  cases s.blocks[j]? with
  | none => simp
  | some b => by_cases h : r.block = j <;> simp [h, key]

theorem mem_allThreads {s : State} {t : Thread} :
    t ∈ allThreads s ↔ ∃ r, threadAt? s r = some t := by
  unfold allThreads threadAt?
  simp only [List.mem_flatMap]
  constructor
  · rintro ⟨b, hb, ht⟩
    obtain ⟨i, hi⟩ := List.getElem?_of_mem hb
    obtain ⟨j, hj⟩ := List.getElem?_of_mem ht
    exact ⟨⟨i, j⟩, by simp [hi, hj]⟩
  · rintro ⟨r, h⟩
    split at h
    · rename_i b hb
      exact ⟨b, List.mem_of_getElem? hb, List.mem_of_getElem? h⟩
    · simp at h

/-- Where thread ids are unique, an id names one place. -/
theorem UniqueIds.place_eq {s : State} (h : UniqueIds s) {r q : ThreadRef} {t u : Thread}
    (hr : threadAt? s r = some t) (hq : threadAt? s q = some u) (he : t.threadId = u.threadId) :
    r = q := by
  unfold UniqueIds allThreads at h
  rw [List.map_flatMap, List.nodup_flatMap] at h
  obtain ⟨hin, hdis⟩ := h
  unfold threadAt? at hr hq
  split at hr
  · rename_i b hb
    split at hq
    · rename_i c hc
      have hblock : r.block = q.block := by
        by_contra hne
        have hd : List.Disjoint (b.threads.map (·.threadId)) (c.threads.map (·.threadId)) := by
          obtain ⟨hb1, hb2⟩ := List.getElem?_eq_some_iff.1 hb
          obtain ⟨hc1, hc2⟩ := List.getElem?_eq_some_iff.1 hc
          rcases Nat.lt_or_gt_of_ne hne with hlt | hlt
          · have := List.pairwise_iff_getElem.1 hdis _ _ hb1 hc1 hlt
            simpa [Function.onFun, hb2, hc2] using this
          · have := List.pairwise_iff_getElem.1 hdis _ _ hc1 hb1 hlt
            simpa [Function.onFun, hb2, hc2] using this.symm
        refine hd (List.mem_map.2 ⟨t, List.mem_of_getElem? hr, rfl⟩)
          (List.mem_map.2 ⟨u, List.mem_of_getElem? hq, he.symm⟩)
      have hbc : b = c := by
        rw [hblock] at hb
        exact Option.some.inj (hb.symm.trans hc)
      subst hbc
      have hnd := hin b (List.mem_of_getElem? hb)
      have hthread : r.thread = q.thread := by
        obtain ⟨h1, h1'⟩ := List.getElem?_eq_some_iff.1 hr
        obtain ⟨h2, h2'⟩ := List.getElem?_eq_some_iff.1 hq
        have := (List.Nodup.getElem_inj_iff hnd (i := r.thread) (j := q.thread)
          (hi := by simpa using h1) (hj := by simpa using h2)).1 (by simp [h1', h2', he])
        exact this
      cases r
      cases q
      simp_all
    · simp at hq
  · simp at hr

/-! ### What a lane can do -/

/-- Settling a load touches the register file at most, and there the executing thread's bank (U1). -/
theorem settleLoad_rf (i : Instr) (ws : List Word) (s : State) :
    (settleLoad i ws s).rf = s.rf ∨
      ∃ b, (settleLoad i ws s).rf = Table.put s.rf s.ctx.threadId b := by
  unfold settleLoad
  simp only
  split
  · exact .inr ⟨_, rfl⟩
  · exact .inl rfl
  · exact .inl rfl

/-- The picked word is one of the words left open. -/
theorem pickWord_mem (choice : Nat) (first : Word) (others : List Word) :
    pickWord choice first others ∈ first :: others := by
  have hlt : choice % (others.length + 1) < (first :: others).length := Nat.mod_lt _ (by simp)
  unfold pickWord
  rw [List.getElem?_eq_getElem hlt, Option.getD_some]
  exact List.getElem_mem hlt

/-- What settling a load leaves in the registers: the destination holds the word read or one of those
left open, and no other register changes (U1). -/
theorem readReg_settleLoad (i : Instr) (ws : List Word) (s : State) :
    (∀ rd, destination? i = some rd → x (settleLoad i ws s) rd ∈ x s rd :: ws) ∧
    ∀ tid r, ¬(tid = s.ctx.threadId ∧ destination? i = some r) →
      readReg (settleLoad i ws s) tid r = readReg s tid r := by
  cases hd : destination? i with
  | none =>
    have e : settleLoad i ws s = s := by
      unfold settleLoad
      rw [hd]
    exact ⟨fun rd h => (by simp at h), fun _ _ _ => by rw [e]⟩
  | some rd =>
    cases ws with
    | nil =>
      rw [settleLoad_nil]
      exact ⟨fun _ _ => List.mem_cons_self, fun _ _ _ => rfl⟩
    | cons v vs =>
      have e : ∀ tid r, readReg (settleLoad i (v :: vs) s) tid r =
          readReg (writeReg s s.ctx.threadId rd
            (pickWord (Config.racingLoad s.cycle s.ctx.threadId) (x s rd) (v :: vs))) tid r := by
        intro tid r
        unfold settleLoad
        rw [hd]
        rfl
      refine ⟨fun rd' h => ?_, fun tid r h => ?_⟩
      · obtain rfl := Option.some.inj h
        show readReg (settleLoad i (v :: vs) s) s.ctx.threadId rd ∈ _
        rw [e, readReg_writeReg, if_pos ⟨rfl, rfl⟩]
        exact pickWord_mem _ _ _
      · rw [e, readReg_writeReg, if_neg]
        rintro ⟨rfl, rfl⟩
        exact h ⟨rfl, rfl⟩

/-- The three things that can happen to a lane (R91 to R94): it is skipped; its thread is deactivated
at the fetch; or its thread executes the instruction at its PC. -/
theorem stepLane_cases {s t : State} {l : Lane} (h : stepLane s l = .next t) :
    (t = s ∧ threadActive s l.place = false) ∨
    (∃ th, threadAt? s l.place = some th ∧ th.active = true ∧ fetch? s th.pc = none ∧
      t = overrunThread s l.place) ∨
    (∃ th w u, threadAt? s l.place = some th ∧ th.active = true ∧ fetch? s th.pc = some w ∧
      exec (decode s.cfg.opcodeMap w) (enterThread s th) = .next u ∧
      t = leaveThread (settleLoad (decode s.cfg.opcodeMap w) l.openWords u) l.place) := by
  unfold stepLane at h
  split at h
  · rename_i th hth
    split_ifs at h with ha
    · unfold stepThread at h
      split at h
      · rename_i hf
        exact .inr (.inl ⟨th, hth, ha, hf, (Host.Outcome.next.inj h).symm⟩)
      · rename_i w hw
        obtain ⟨u, hu⟩ := exec_answers_next (decode s.cfg.opcodeMap w) (enterThread s th)
        rw [hu, andThen_next] at h
        exact .inr (.inr ⟨th, w, u, hth, ha, hw, hu, (Host.Outcome.next.inj h).symm⟩)
    · refine .inl ⟨(Host.Outcome.next.inj h).symm, ?_⟩
      simpa [threadActive, hth] using ha
  · rename_i hth
    exact .inl ⟨(Host.Outcome.next.inj h).symm, by simp [threadActive, hth]⟩

theorem stepLane_answers_next (s : State) (l : Lane) : ∃ t, stepLane s l = .next t := by
  unfold stepLane
  split
  · split_ifs
    · unfold stepThread
      split
      · exact ⟨_, rfl⟩
      · obtain ⟨u, hu⟩ := exec_answers_next (decode s.cfg.opcodeMap _) (enterThread s _)
        rw [hu]
        exact ⟨_, rfl⟩
    · exact ⟨_, rfl⟩
  · exact ⟨_, rfl⟩

theorem runLanes_answers_next (ls : List Lane) (s : State) : ∃ t, runLanes ls s = .next t := by
  induction ls generalizing s with
  | nil => exact ⟨s, rfl⟩
  | cons l ls ih =>
    obtain ⟨u, hu⟩ := stepLane_answers_next s l
    obtain ⟨t, ht⟩ := ih u
    exact ⟨t, by rw [runLanes, hu, andThen_next, ht]⟩

/-- The induction over the lanes of a cycle: what every lane keeps, the lanes together keep. -/
theorem runLanes_induction {P : State → Prop} {ls : List Lane}
    (hstep : ∀ l ∈ ls, ∀ u v, stepLane u l = .next v → P u → P v) {s t : State}
    (h : runLanes ls s = .next t) (hs : P s) : P t := by
  induction ls generalizing s with
  | nil => exact Host.Outcome.next.inj h ▸ hs
  | cons l ls ih =>
    obtain ⟨u, hu⟩ := stepLane_answers_next s l
    rw [runLanes, hu, andThen_next] at h
    exact ih (fun q hq => hstep q (List.mem_cons_of_mem _ hq)) h
      (hstep l (List.mem_cons_self) s u hu hs)

/-- What no lane touches: everything but the threads, the register file, global memory, the cache,
the queue and the context. -/
structure SameControl (s t : State) : Prop where
  cfg : t.cfg = s.cfg
  imem : t.imem = s.imem
  warps : t.warps = s.warps
  rr : t.rr = s.rr
  ticks : t.ticks = s.ticks
  cycle : t.cycle = s.cycle
  maxCycles : t.maxCycles = s.maxCycles
  mcStats : t.mcStats = s.mcStats

theorem SameControl.refl (s : State) : SameControl s s := by constructor <;> rfl

theorem SameControl.trans {s t u : State} (h : SameControl s t) (g : SameControl t u) :
    SameControl s u := by
  constructor
  · exact g.cfg.trans h.cfg
  · exact g.imem.trans h.imem
  · exact g.warps.trans h.warps
  · exact g.rr.trans h.rr
  · exact g.ticks.trans h.ticks
  · exact g.cycle.trans h.cycle
  · exact g.maxCycles.trans h.maxCycles
  · exact g.mcStats.trans h.mcStats

theorem stepLane_sameControl {s t : State} {l : Lane} (h : stepLane s l = .next t) :
    SameControl s t := by
  rcases stepLane_cases h with ⟨rfl, -⟩ | ⟨th, -, -, -, rfl⟩ | ⟨th, w, u, -, -, -, hu, rfl⟩
  · exact .refl _
  · constructor <;> rfl
  · have g := exec_sameEngine hu
    constructor
    · exact g.cfg
    · exact g.imem
    · exact g.warps
    · exact g.rr
    · exact g.ticks
    · exact g.cycle
    · exact g.maxCycles
    · exact g.mcStats

theorem runLanes_sameControl {s t : State} {ls : List Lane} (h : runLanes ls s = .next t) :
    SameControl s t :=
  runLanes_induction (P := SameControl s) (fun _ _ _ _ hv hu => hu.trans (stepLane_sameControl hv)) h
    (.refl s)

/-- A lane changes no thread but the one at its place. -/
theorem stepLane_threadAt?_of_ne {s t : State} {l : Lane} {q : ThreadRef} (h : stepLane s l = .next t)
    (hq : q ≠ l.place) : threadAt? t q = threadAt? s q := by
  rcases stepLane_cases h with ⟨rfl, -⟩ | ⟨th, -, -, -, rfl⟩ | ⟨th, w, u, -, -, -, hu, rfl⟩
  · rfl
  · exact (threadAt?_updateThread s l.place q _).trans (if_neg hq)
  · refine (threadAt?_updateThread (settleLoad _ l.openWords u) l.place q _).trans ((if_neg hq).trans ?_)
    unfold threadAt?
    rw [settleLoad_blocks, (exec_sameEngine hu).blocks]
    rfl

/-- A lane whose thread is not active changes nothing (R92). -/
theorem stepLane_of_not_active {s : State} {l : Lane} (h : threadActive s l.place = false) :
    stepLane s l = .next s := by
  unfold stepLane
  unfold threadActive at h
  split
  · rename_i th hth
    rw [hth] at h
    rw [if_neg (by simpa using h)]
  · rfl

/-- A lane changes the register file at most in its own thread's bank (R18, R95). -/
theorem stepLane_rf {s t : State} {l : Lane} (h : stepLane s l = .next t) :
    t.rf = s.rf ∨ ∃ th b, threadAt? s l.place = some th ∧ ∀ tid,
      bankOf t.rf tid = if tid = th.threadId then b else bankOf s.rf tid := by
  rcases stepLane_cases h with ⟨rfl, -⟩ | ⟨th, -, -, -, rfl⟩ | ⟨th, w, u, hth, -, -, hu, rfl⟩
  · exact .inl rfl
  · exact .inl rfl
  · refine .inr ⟨th, bankOf (settleLoad (decode s.cfg.opcodeMap w) l.openWords u).rf th.threadId, hth,
      fun tid => ?_⟩
    show bankOf (settleLoad (decode s.cfg.opcodeMap w) l.openWords u).rf tid = _
    split_ifs with he
    · rw [he]
    · have hctx : u.ctx.threadId = th.threadId := (exec_ctx hu).1
      have h1 : bankOf u.rf tid = bankOf s.rf tid := by
        rcases exec_rf hu with e | ⟨b, e⟩
        · rw [e]
          rfl
        · rw [e, bankOf_put]
          exact if_neg he
      rcases settleLoad_rf (decode s.cfg.opcodeMap w) l.openWords u with e | ⟨b, e⟩
      · rw [e, h1]
      · rw [e, bankOf_put, hctx, if_neg he, h1]

/-! ### The cycle -/

/-- What a cycle that runs a warp is made of (R91). -/
theorem executeCycle_cases {s t : State} (h : executeCycle s = .next t) :
    t = s ∨
    ∃ k u, halted s = false ∧ (getNextWarp s).warp = some k ∧
      runLanes (planLanes (getNextWarp s).state (membersOf (getNextWarp s).state k))
        (getNextWarp s).state = .next u ∧ t = endCycle u k := by
  unfold executeCycle at h
  split_ifs at h with hh
  · exact .inl (Host.Outcome.next.inj h).symm
  · split at h
    · exact .inl (Host.Outcome.next.inj h).symm
    · rename_i k hk
      obtain ⟨u, hu⟩ := runLanes_answers_next
        (planLanes (getNextWarp s).state (membersOf (getNextWarp s).state k)) (getNextWarp s).state
      simp only [hu, andThen_next] at h
      exact .inr ⟨k, u, by simpa using hh, hk, hu, (Host.Outcome.next.inj h).symm⟩

/-- The choice of a warp touches the warp list and `rr` only (R89). -/
theorem getNextWarp_eq (s : State) :
    (getNextWarp s).state =
      { s with warps := (getNextWarp s).state.warps, rr := (getNextWarp s).state.rr } := by
  unfold getNextWarp
  simp only
  split <;> rfl

theorem executeCycle_answers_next (s : State) : ∃ t, executeCycle s = .next t := by
  unfold executeCycle
  split_ifs
  · exact ⟨_, rfl⟩
  · split
    · exact ⟨_, rfl⟩
    · rename_i k _
      obtain ⟨u, hu⟩ := runLanes_answers_next
        (planLanes (getNextWarp s).state (membersOf (getNextWarp s).state k)) (getNextWarp s).state
      simp only [hu, andThen_next]
      exact ⟨_, rfl⟩

end Sys2Proof.Machine
end

