-- ==== Sys2Proof/Laws/Host.lean ====
section
/-! SUPPORT. What a launch does: the registers it leaves, the threads and the warps it forms
(spec/40_execution_cycle.md R85 to R87). -/

namespace Sys2Proof.Machine

/-- Memory after reset has the canonical form. -/
theorem State.reset_memory_wf : Memory.wf State.reset.mem :=
  ⟨List.Pairwise.nil, fun _ h => absurd h List.not_mem_nil⟩

/-! ### Registers -/

theorem initializeThread_bankOf (s : State) (tid tid' : Nat) :
    bankOf (initializeThread s tid).rf tid' = bankOf s.rf tid' := by
  unfold initializeThread
  split
  · rfl
  · rename_i h
    simp only [bankOf_put]
    split_ifs with h'
    · subst h'
      simp [bankOf, h]
    · rfl

theorem initializeThread_eq (s : State) (tid : Nat) :
    initializeThread s tid = { s with rf := (initializeThread s tid).rf } := by
  unfold initializeThread
  split <;> rfl

/-- One register that the host supplies or not. -/
def supplyRegister (t : ThreadInit) (s : State) (i : RegIdx) : State :=
  match t.registers[i.val] with
  | some v => writeReg s t.threadId i v
  | none => s

theorem allocateThread_eq_foldl (s : State) (t : ThreadInit) :
    allocateThread s t =
      (List.finRange 16).foldl (supplyRegister t) (initializeThread s t.threadId) := rfl

theorem readReg_supplyRegister (t : ThreadInit) (s : State) (i j : RegIdx) (tid : Nat) :
    readReg (supplyRegister t s i) tid j =
      if tid = t.threadId ∧ j = i then (t.registers[j.val]).getD (readReg s tid j)
      else readReg s tid j := by
  unfold supplyRegister
  split
  · rename_i v hv
    rw [readReg_writeReg]
    split_ifs with h
    · obtain ⟨rfl, rfl⟩ := h
      simp [hv]
    · rfl
  · rename_i hv
    split_ifs with h
    · obtain ⟨rfl, rfl⟩ := h
      simp [hv]
    · rfl

theorem readReg_foldl_supplyRegister (t : ThreadInit) (is : List RegIdx) (hn : is.Nodup) (s : State)
    (j : RegIdx) (tid : Nat) :
    readReg (is.foldl (supplyRegister t) s) tid j =
      if tid = t.threadId ∧ j ∈ is then (t.registers[j.val]).getD (readReg s tid j)
      else readReg s tid j := by
  induction is generalizing s with
  | nil => simp
  | cons i is ih =>
    obtain ⟨hi, hn⟩ := List.nodup_cons.1 hn
    rw [List.foldl_cons, ih hn, readReg_supplyRegister]
    by_cases ht : tid = t.threadId
    · by_cases hj : j = i
      · subst hj
        simp [ht, hi]
      · simp [ht, hj]
    · simp [ht]

/-- What allocating a thread leaves in every register (R16, R85). -/
theorem readReg_allocateThread (s : State) (t : ThreadInit) (j : RegIdx) (tid : Nat) :
    readReg (allocateThread s t) tid j =
      if tid = t.threadId then (t.registers[j.val]).getD (readReg s tid j) else readReg s tid j := by
  have h : ∀ k, readReg (initializeThread s t.threadId) tid k = readReg s tid k := fun k => by
    unfold readReg
    rw [initializeThread_bankOf]
  rw [allocateThread_eq_foldl, readReg_foldl_supplyRegister t _ (List.nodup_finRange 16)]
  simp only [List.mem_finRange, and_true, h]

theorem supplyRegister_eq (t : ThreadInit) (s : State) (i : RegIdx) :
    supplyRegister t s i = { s with rf := (supplyRegister t s i).rf } := by
  unfold supplyRegister
  split <;> rfl

/-- A fold of operations that touch the register file only touches the register file only. -/
theorem foldl_rf_eq {α : Type} {f : State → α → State} (hf : ∀ s a, f s a = { s with rf := (f s a).rf })
    (as : List α) (s : State) : as.foldl f s = { s with rf := (as.foldl f s).rf } := by
  induction as generalizing s with
  | nil => rfl
  | cons a as ih =>
    rw [List.foldl_cons, ih, hf]

/-- Allocating a thread touches the register file only. -/
theorem allocateThread_eq (s : State) (t : ThreadInit) :
    allocateThread s t = { s with rf := (allocateThread s t).rf } := by
  rw [allocateThread_eq_foldl, foldl_rf_eq (supplyRegister_eq t), initializeThread_eq]

/-- Allocating the threads of a launch touches the register file only. -/
theorem allocateAll_eq (s : State) (bs : List BlockInit) :
    allocateAll s bs = { s with rf := (allocateAll s bs).rf } :=
  foldl_rf_eq (fun s b => foldl_rf_eq allocateThread_eq b.threads s) bs s

theorem allocateAll_eq_foldl (s : State) (bs : List BlockInit) :
    allocateAll s bs = (bs.flatMap (·.threads)).foldl allocateThread s := by
  unfold allocateAll
  rw [List.foldl_flatMap]

/-- A thread that is not allocated keeps its registers. -/
theorem readReg_foldl_allocateThread_of_not_mem (ts : List ThreadInit) (s : State) (j : RegIdx)
    (tid : Nat) (h : ∀ t ∈ ts, t.threadId ≠ tid) :
    readReg (ts.foldl allocateThread s) tid j = readReg s tid j := by
  induction ts generalizing s with
  | nil => rfl
  | cons t ts ih =>
    rw [List.foldl_cons, ih _ fun u hu => h u (List.mem_cons_of_mem _ hu), readReg_allocateThread,
      if_neg (h t (List.mem_cons_self)).symm]

/-- Where thread ids are unique, each thread's registers are those of its own allocation. -/
theorem readReg_foldl_allocateThread (ts : List ThreadInit) (hn : (ts.map (·.threadId)).Nodup)
    (s : State) (j : RegIdx) {t : ThreadInit} (ht : t ∈ ts) :
    readReg (ts.foldl allocateThread s) t.threadId j =
      (t.registers[j.val]).getD (readReg s t.threadId j) := by
  induction ts generalizing s with
  | nil => simp at ht
  | cons u ts ih =>
    rw [List.map_cons, List.nodup_cons] at hn
    rw [List.foldl_cons]
    rcases List.mem_cons.1 ht with rfl | ht'
    · rw [readReg_foldl_allocateThread_of_not_mem, readReg_allocateThread, if_pos rfl]
      intro v hv he
      exact hn.1 (List.mem_map.2 ⟨v, hv, he⟩)
    · rw [ih hn.2 _ ht', readReg_allocateThread, if_neg]
      intro he
      exact hn.1 (List.mem_map.2 ⟨t, ht', he⟩)

theorem sorted_writeReg {s : State} (h : Table.Sorted s.rf) (tid : Nat) (r : RegIdx) (v : Word) :
    Table.Sorted (writeReg s tid r v).rf := Table.sorted_put _ _ h

/-- Allocating the threads of a launch keeps the register file's canonical form. -/
theorem sorted_allocateThread {s : State} (h : Table.Sorted s.rf) (t : ThreadInit) :
    Table.Sorted (allocateThread s t).rf := by
  rw [allocateThread_eq_foldl]
  have h0 : Table.Sorted (initializeThread s t.threadId).rf := by
    unfold initializeThread
    split
    · exact h
    · exact Table.sorted_put _ _ h
  generalize initializeThread s t.threadId = u at h0
  generalize List.finRange 16 = is
  induction is generalizing u with
  | nil => exact h0
  | cons i is ih =>
    rw [List.foldl_cons]
    refine ih _ ?_
    unfold supplyRegister
    split
    · exact Table.sorted_put _ _ h0
    · exact h0

/-! ### Refusals -/

/-- The search for a repeated id finds none exactly where all ids differ (R85, D37). -/
theorem duplicateId?_eq_none_iff (is : List Nat) : duplicateId? is = none ↔ is.Nodup := by
  induction is with
  | nil => simp [duplicateId?]
  | cons i is ih =>
    unfold duplicateId?
    by_cases h : i ∈ is
    · simp [h]
    · simp [h, ih]

/-! ### Warps -/

/-- The groups in closed form: group `k` is the `k`-th run of 32, while there is one. -/
theorem chunksOf32_getElem? {α : Type} (fuel : Nat) (l : List α) (hf : l.length ≤ fuel) (k : Nat) :
    (chunksOf32 fuel l)[k]? =
      if 32 * k < l.length then some ((l.drop (32 * k)).take 32) else none := by
  induction fuel generalizing l k with
  | zero =>
    have : l = [] := List.length_eq_zero_iff.1 (by omega)
    simp [chunksOf32, this]
  | succ fuel ih =>
    cases l with
    | nil => simp [chunksOf32]
    | cons a l =>
      unfold chunksOf32
      cases k with
      | zero => simp [warpSize]
      | succ k =>
        rw [List.getElem?_cons_succ, ih _ (by simp [warpSize] at hf ⊢; omega)]
        simp only [List.drop_drop, List.length_drop, warpSize]
        have e : 32 + 32 * k = 32 * (k + 1) := by ring
        rw [e]
        by_cases h : 32 * (k + 1) < (a :: l).length
        · rw [if_pos h, if_pos (by omega)]
        · rw [if_neg h, if_neg (by omega)]

end Sys2Proof.Machine
end

