-- ==== Sys2Proof/Laws/PerInstr.lean ====
section
/-! SUPPORT. The statement made for each instruction: its encoding carries, in bits 31 to 24, the byte
that the opcode map gives it (spec/30_encoding.md R73, R76, R80); a row for unassigned bytes carries
its own lowest byte (R77). -/

namespace Sys2Proof.Laws.EncodeOpcode

/-- The opcode byte of an instruction's encoding under the map `m`. -/
def byteOf (m : OpcodeMap) : Instr → OpByte
  | .nop => m.nop
  | .const _ _ => m.const
  | .add _ _ _ => m.add
  | .sub _ _ _ => m.sub
  | .mul _ _ _ => m.mul
  | .div _ _ _ => m.div
  | .and _ _ _ => m.and
  | .or _ _ _ => m.or
  | .xor _ _ _ => m.xor
  | .ldr _ _ _ => m.ldr
  | .str _ _ _ => m.str
  | .br _ => m.br
  | .brz _ _ => m.brz
  | .brnz _ _ => m.brnz
  | .brn _ _ => m.brn
  | .brp _ _ => m.brp
  | .cmp _ _ => m.cmp
  | .ret => m.ret
  | .nopU12 => 0x12
  | .nopU14 => 0x14
  | .nopU18 => 0x18
  | .nopU20 => 0x20
  | .nopU40 => 0x40
  | .nopU80 => 0x80

/-- Whatever the opcode map, the encoding's opcode field is the instruction's byte. -/
def Statement (i : Instr) : Prop := ∀ m : OpcodeMap, opField (encode m i) = byteOf m i

theorem nop : Statement .nop := fun _ => opField_encodeN _

theorem const (rd : RegIdx) (imm : Word) : Statement (.const rd imm) := fun _ => opField_encodeI _ _ _ _

theorem add (rd rs1 rs2 : RegIdx) : Statement (.add rd rs1 rs2) := fun _ => opField_encodeR _ _ _ _

theorem sub (rd rs1 rs2 : RegIdx) : Statement (.sub rd rs1 rs2) := fun _ => opField_encodeR _ _ _ _

theorem mul (rd rs1 rs2 : RegIdx) : Statement (.mul rd rs1 rs2) := fun _ => opField_encodeR _ _ _ _

theorem div (rd rs1 rs2 : RegIdx) : Statement (.div rd rs1 rs2) := fun _ => opField_encodeR _ _ _ _

theorem and (rd rs1 rs2 : RegIdx) : Statement (.and rd rs1 rs2) := fun _ => opField_encodeR _ _ _ _

theorem or (rd rs1 rs2 : RegIdx) : Statement (.or rd rs1 rs2) := fun _ => opField_encodeR _ _ _ _

theorem xor (rd rs1 rs2 : RegIdx) : Statement (.xor rd rs1 rs2) := fun _ => opField_encodeR _ _ _ _

theorem ldr (rd rs1 : RegIdx) (imm : Word) : Statement (.ldr rd rs1 imm) := fun _ => opField_encodeI _ _ _ _

theorem str (rd rs1 : RegIdx) (imm : Word) : Statement (.str rd rs1 imm) := fun _ => opField_encodeI _ _ _ _

theorem br (imm : Word) : Statement (.br imm) := fun _ => opField_encodeI _ _ _ _

theorem brz (rs1 : RegIdx) (imm : Word) : Statement (.brz rs1 imm) := fun _ => opField_encodeI _ _ _ _

theorem brnz (rs1 : RegIdx) (imm : Word) : Statement (.brnz rs1 imm) := fun _ => opField_encodeI _ _ _ _

theorem brn (rs1 : RegIdx) (imm : Word) : Statement (.brn rs1 imm) := fun _ => opField_encodeI _ _ _ _

theorem brp (rs1 : RegIdx) (imm : Word) : Statement (.brp rs1 imm) := fun _ => opField_encodeI _ _ _ _

theorem cmp (rs1 rs2 : RegIdx) : Statement (.cmp rs1 rs2) := fun _ => opField_encodeR _ _ _ _

theorem ret : Statement .ret := fun _ => opField_encodeN _

theorem nopU12 : Statement .nopU12 := fun _ => opField_encodeN _

theorem nopU14 : Statement .nopU14 := fun _ => opField_encodeN _

theorem nopU18 : Statement .nopU18 := fun _ => opField_encodeN _

theorem nopU20 : Statement .nopU20 := fun _ => opField_encodeN _

theorem nopU40 : Statement .nopU40 := fun _ => opField_encodeN _

theorem nopU80 : Statement .nopU80 := fun _ => opField_encodeN _

end Sys2Proof.Laws.EncodeOpcode
end

