-- ==== Sys2Proof/Laws/Races.lean ====
section
/-! SUPPORT. What settling the racing stores of a cycle can do: it touches memory and the resident
lines together, and leaves in each word what it held or one of several words stored to it
(spec/20_memory.md R66, R67). -/

namespace Sys2Proof.Machine

/-! ### One word -/

theorem putWord_eq (s : State) (a v : Word) :
    putWord s a v = { s with mem := (putWord s a v).mem, cache := (putWord s a v).cache } := by
  unfold putWord
  split <;> rfl

@[simp] theorem putWord_cfg (s : State) (a v : Word) : (putWord s a v).cfg = s.cfg := by
  rw [putWord_eq]

theorem globalRead_putWord (s : State) (a v : Word) (b : Nat) :
    globalRead (putWord s a v) b = if b = a.toNat ∧ b < s.cfg.memWords then v else globalRead s b := by
  unfold putWord
  split <;> exact globalRead_globalWrite _ _ _ _

theorem MemoryInv.putWord {s : State} (h : MemoryInv s) (a v : Word) : MemoryInv (putWord s a v) := by
  unfold Machine.putWord
  split <;> exact MemoryInv.globalWrite h _ _

theorem CacheInv.putWord {s : State} (h : CacheInv s) {a : Word} (ha : inRange s a = true) (v : Word) :
    CacheInv (putWord s a v) := by
  unfold Machine.putWord
  split
  · rename_i l hl
    obtain ⟨ht, hd⟩ := h.resident hl
    exact h.updateLine ha ht hd l.dirty v
  · rename_i hl
    exact h.globalWrite_of_not_resident hl v

/-! ### The words of a cycle -/

/-- The two things that settling a word can do: nothing, or put there one of several stored words. -/
theorem settleWord_cases (q : List MemoryRequest) (s : State) (a : Word) :
    settleWord q s a = s ∨
    ∃ v, v ∈ queuedStores q a.toNat ∧ 2 ≤ (queuedStores q a.toNat).length ∧ inRange s a = true ∧
      settleWord q s a = putWord s a v := by
  unfold settleWord
  split
  · exact .inl rfl
  · exact .inl rfl
  · rename_i last v vs h
    split_ifs with ha
    · refine .inr ⟨_, ?_, ?_, ha, rfl⟩
      · rw [← List.mem_reverse, h]
        exact pickWord_mem _ _ _
      · rw [← List.length_reverse, h]
        simp
    · exact .inl rfl

/-- The induction over the words of a cycle: what putting a stored word keeps, settling keeps. -/
theorem settleStores_induction {P : State → Prop} {q : List MemoryRequest}
    (hput : ∀ u a v, P u → v ∈ queuedStores q a.toNat → 2 ≤ (queuedStores q a.toNat).length →
      inRange u a = true → P (putWord u a v)) {s : State} (hs : P s) :
    P (q.foldl (fun s r => settleWord q s r.address) s) := by
  have key : ∀ (p : List MemoryRequest) (s : State), P s →
      P (p.foldl (fun s r => settleWord q s r.address) s) := by
    intro p
    induction p with
    | nil => exact fun s h => h
    | cons r p ih =>
      intro s h
      rw [List.foldl_cons]
      refine ih _ ?_
      rcases settleWord_cases q s r.address with e | ⟨v, hv, h2, ha, e⟩
      · rw [e]
        exact h
      · rw [e]
        exact hput s _ v h hv h2 ha
  exact key q s hs

theorem settleStores_foldl_cfg (q : List MemoryRequest) (s : State) :
    (q.foldl (fun s r => settleWord q s r.address) s).cfg = s.cfg :=
  settleStores_induction (P := fun u => u.cfg = s.cfg)
    (fun u a v h _ _ _ => (putWord_cfg u a v).trans h) rfl

/-- A word holds after settling what it held, or one of several words stored to it (R66, R67). -/
theorem globalRead_settleStores (q : List MemoryRequest) (s : State) (b : Nat) :
    globalRead (settleStores q s) b = globalRead s b ∨
    (2 ≤ (queuedStores q b).length ∧ globalRead (settleStores q s) b ∈ queuedStores q b) := by
  have h := settleStores_induction (q := q) (s := s)
    (P := fun u => globalRead u b = globalRead s b ∨
      (2 ≤ (queuedStores q b).length ∧ globalRead u b ∈ queuedStores q b))
    (fun u a v hu hv h2 _ => by
      rw [globalRead_putWord]
      split_ifs with hb
      · rw [hb.1]
        exact .inr ⟨h2, hv⟩
      · exact hu) (.inl rfl)
  have e : globalRead (settleStores q s) b =
      globalRead (q.foldl (fun s r => settleWord q s r.address) s) b := by
    show Memory.load s.cfg.memWords _ b = Memory.load _ _ b
    rw [settleStores_foldl_cfg]
    rfl
  rwa [e]

theorem MemoryInv.settleStores {s : State} (h : MemoryInv s) (q : List MemoryRequest) :
    MemoryInv (settleStores q s) := by
  have := settleStores_induction (q := q) (P := MemoryInv) (fun u a v hu _ _ _ => hu.putWord a v) h
  unfold MemoryInv at this ⊢
  rw [settleStores_foldl_cfg] at this
  exact this

/-- Settling keeps memory and cache coherent: it changes both together. -/
theorem CacheInv.settleStores {s : State} (h : CacheInv s) (q : List MemoryRequest) :
    CacheInv (settleStores q s) := by
  have := settleStores_induction (q := q) (P := CacheInv) (fun u a v hu _ _ ha => hu.putWord ha v) h
  unfold CacheInv globalRead at this ⊢
  rw [settleStores_foldl_cfg] at this
  exact this

end Sys2Proof.Machine
end

