-- ==== Sys2Proof/Laws/Scheduler.lean ====
section
/-! SUPPORT. What the scan for a warp visits, what retiring warps does to them, and the lanes of a
cycle (spec/40_execution_cycle.md R89 to R92). -/

namespace Sys2Proof.Machine

/-! ### The scan -/

@[simp] theorem scanOrder_length (s : State) : (scanOrder s).length = s.warps.length := by
  simp [scanOrder]

theorem scanOrder_getElem? (s : State) {j : Nat} (hj : j < s.warps.length) :
    (scanOrder s)[j]? = some ((s.rr + j) % s.warps.length) := by
  simp [scanOrder, hj]

/-- The scan visits every warp and nothing else (R89). -/
theorem mem_scanOrder (s : State) (q : Nat) : q ∈ scanOrder s ↔ q < s.warps.length := by
  unfold scanOrder
  simp only [List.mem_map, List.mem_range]
  constructor
  · rintro ⟨i, hi, rfl⟩
    exact Nat.mod_lt _ (by omega)
  · intro hq
    have hr : s.rr % s.warps.length < s.warps.length := Nat.mod_lt _ (by omega)
    by_cases h : s.rr % s.warps.length ≤ q
    · refine ⟨q - s.rr % s.warps.length, by omega, ?_⟩
      rw [Nat.add_mod, Nat.mod_eq_of_lt (show q - s.rr % s.warps.length < _ by omega),
        show s.rr % s.warps.length + (q - s.rr % s.warps.length) = q by omega, Nat.mod_eq_of_lt hq]
    · refine ⟨q + s.warps.length - s.rr % s.warps.length, by omega, ?_⟩
      rw [Nat.add_mod,
        Nat.mod_eq_of_lt (show q + s.warps.length - s.rr % s.warps.length < _ by omega),
        show s.rr % s.warps.length + (q + s.warps.length - s.rr % s.warps.length) =
          q + s.warps.length by omega,
        Nat.add_mod_right, Nat.mod_eq_of_lt hq]

/-- Retiring warps clears the `active` flag of exactly the listed ones. -/
theorem retireWarps_getElem? (s : State) (ks : List Nat) (q : Nat) :
    (retireWarps s ks).warps[q]? =
      (s.warps[q]?).map fun w => if q ∈ ks then { w with active := false } else w := by
  unfold retireWarps
  simp only
  generalize s.warps = ws
  induction ks generalizing ws with
  | nil => simp
  | cons k ks ih =>
    rw [List.foldl_cons, ih, List.getElem?_modify]
    cases ws[q]? with
    | none => simp
    | some w =>
      by_cases h : k = q
      · subst h
        simp
      · simp [h, show ¬q = k from fun h' => h h'.symm]

/-- The first element with a property, its place, and what stands before it. -/
theorem find?_takeWhile {p : Nat → Bool} {l : List Nat} {k : Nat} (h : l.find? p = some k) :
    ∃ i, l[i]? = some k ∧ p k = true ∧ (∀ j, j < i → ∀ a, l[j]? = some a → p a = false) ∧
      l.takeWhile (fun a => !p a) = l.take i := by
  induction l with
  | nil => simp at h
  | cons a l ih =>
    rw [List.find?_cons] at h
    cases hp : p a with
    | true =>
      rw [hp] at h
      obtain rfl : a = k := by simpa using h
      exact ⟨0, by simp, hp, by simp, by simp [hp]⟩
    | false =>
      rw [hp] at h
      obtain ⟨i, h1, h2, h3, h4⟩ := ih h
      refine ⟨i + 1, by simpa using h1, h2, fun j hj b hb => ?_, by simp [hp, h4]⟩
      cases j with
      | zero => exact (show a = b by simpa using hb) ▸ hp
      | succ j => exact h3 j (by omega) b (by simpa using hb)

/-- The choice of a warp changes no warp's members. -/
theorem getNextWarp_members (s : State) (q : Nat) :
    ((getNextWarp s).state.warps[q]?).map (·.members) = (s.warps[q]?).map (·.members) := by
  have key : ∀ ks, ((retireWarps s ks).warps[q]?).map (·.members) = (s.warps[q]?).map (·.members) := by
    intro ks
    rw [retireWarps_getElem?]
    cases s.warps[q]? with
    | none => rfl
    | some w => by_cases h : q ∈ ks <;> simp [h]
  unfold getNextWarp
  simp only
  split
  · exact key _
  · exact key _

theorem membersOf_getNextWarp (s : State) (k : Nat) :
    membersOf (getNextWarp s).state k = membersOf s k := by
  have h := getNextWarp_members s k
  unfold membersOf
  cases h1 : (getNextWarp s).state.warps[k]? <;> cases h2 : s.warps[k]? <;> rw [h1, h2] at h <;>
    simp at h ⊢
  exact h

/-! ### The lanes of a cycle -/

/-- The lanes act in the order in which they are listed (R92, D33). -/
@[simp] theorem planLanes_places (s : State) (lanes : List ThreadRef) :
    (planLanes s lanes).map (·.place) = lanes := by
  simp [planLanes, Function.comp_def]

/-- The choice of a warp changes neither the threads' requests nor what their stores are. -/
theorem laneRequest?_getNextWarp (s : State) : laneRequest? (getNextWarp s).state = laneRequest? s := by
  rw [getNextWarp_eq]
  rfl

/-! ### The end of a cycle -/

theorem refreshWarpPc_eq (s : State) (k : Nat) :
    refreshWarpPc s k = { s with warps := (refreshWarpPc s k).warps } := rfl

/-- The end of a cycle changes no warp's members and only the PC of warp `k` (R87). -/
theorem endCycle_members (s : State) (k q : Nat) :
    ((endCycle s k).warps[q]?).map (·.members) = (s.warps[q]?).map (·.members) := by
  show (((s.warps).modify k _)[q]?).map _ = _
  rw [List.getElem?_modify]
  cases s.warps[q]? with
  | none => rfl
  | some w =>
    simp only [Option.map_eq_map, Option.map_some]
    by_cases h : k = q
    · rw [if_pos h]
      split <;> rfl
    · rw [if_neg h]

theorem endCycle_threadAt? (s : State) (k : Nat) (r : ThreadRef) :
    threadAt? (endCycle s k) r = threadAt? s r := rfl

end Sys2Proof.Machine
end

