-- ==== Sys2Proof/Machine/Assembler.lean ====
section
/-! DEFINITION. The assembler syntax of spec/30_encoding.md R81, one instruction a line. It is no part
of the machine: a host that holds a program as text makes its words with it. There are no
pseudo-instructions (R82). -/

namespace Sys2Proof.Machine

/-! ### Tokens -/

/-- The pieces of a line: a word of letters and digits, or one of the punctuation marks of R81. -/
inductive AsmToken where
  | word (cs : List Char)
  | comma
  | hash
  | openBracket
  | closeBracket
  | plus
  | minus
deriving DecidableEq, Repr

/-- The tokens after a word has been read whose letters, last first, are `cur`. -/
def endWord (cur : List Char) (rest : List AsmToken) : List AsmToken :=
  match cur with
  | [] => rest
  | c :: cs => .word (c :: cs).reverse :: rest

/-- The punctuation mark that a character is. -/
def punctuation? (c : Char) : Option AsmToken :=
  if c = ',' then some .comma
  else if c = '#' then some .hash
  else if c = '[' then some .openBracket
  else if c = ']' then some .closeBracket
  else if c = '+' then some .plus
  else if c = '-' then some .minus
  else none

/-- Cuts a line into tokens; white space only separates. None where a character belongs to no
token. -/
def tokens? : (line cur : List Char) → Option (List AsmToken)
  | [], cur => some (endWord cur [])
  | c :: cs, cur =>
    if c = ' ' || c = '\t' then (tokens? cs []).map (endWord cur)
    else if c.isAlphanum then tokens? cs (c :: cur)
    else
      match punctuation? c with
      | some t => (tokens? cs []).map fun ts => endWord cur (t :: ts)
      | none => none

/-! ### Operands -/

/-- A decimal number. -/
def decimal? : List Char → Option Nat
  | [] => none
  | c :: cs =>
    if (c :: cs).all Char.isDigit then
      some ((c :: cs).foldl (fun n d => 10 * n + (d.toNat - '0'.toNat)) 0)
    else none

/-- A register name: `R0` to `R15`, without a leading zero. -/
def register? : List Char → Option RegIdx
  | ['R', d] => (decimal? [d]).bind fun n => if h : n < 16 then some ⟨n, h⟩ else none
  | ['R', '1', d] => (decimal? ['1', d]).bind fun n => if h : n < 16 then some ⟨n, h⟩ else none
  | _ => none

/-- An immediate: "must lie in −32768..32767. An assembler refuses other values" (R81). -/
def immediate? (n : Int) : Option Word :=
  if -32768 ≤ n ∧ n ≤ 32767 then some (BitVec.ofInt 32 n) else none

/-- The rest of an operand `#n` or `#-n`. -/
def hashImmediate? : List AsmToken → Option Word
  | [.hash, .word cs] => (decimal? cs).bind fun n => immediate? n
  | [.hash, .minus, .word cs] => (decimal? cs).bind fun n => immediate? (-n)
  | _ => none

/-- The offset of `[Rs1+n]` or `[Rs1-n]`. -/
def offset? (sign : AsmToken) (cs : List Char) : Option Word :=
  match sign with
  | .plus => (decimal? cs).bind fun n => immediate? n
  | .minus => (decimal? cs).bind fun n => immediate? (-n)
  | .word _ => none
  | .comma => none
  | .hash => none
  | .openBracket => none
  | .closeBracket => none

/-- `Rd, Rs1, Rs2`. -/
def threeRegisters? (f : RegIdx → RegIdx → RegIdx → Instr) : List AsmToken → Option Instr
  | [.word d, .comma, .word a, .comma, .word b] =>
    (register? d).bind fun rd => (register? a).bind fun rs1 => (register? b).map fun rs2 => f rd rs1 rs2
  | _ => none

/-- `#imm`, with or without the comma that means nothing. -/
def branchOffset? : List AsmToken → Option Word
  | .comma :: ts => hashImmediate? ts
  | ts => hashImmediate? ts

/-- `Rs1, #imm`, or `#imm` alone, which means `Rs1` = R0. -/
def testedBranch? (f : RegIdx → Word → Instr) : List AsmToken → Option Instr
  | .word r :: .comma :: ts => (register? r).bind fun rs1 => (hashImmediate? ts).map fun imm => f rs1 imm
  | ts => (branchOffset? ts).map fun imm => f 0 imm

/-! ### Lines -/

/-- The instruction with the mnemonic and the operand tokens (the table of R81). Mnemonics are
case-sensitive. -/
def operands? (mnemonic : List Char) (ts : List AsmToken) : Option Instr :=
  if mnemonic = ['N', 'O', 'P'] then (if ts = [] then some .nop else none)
  else if mnemonic = ['R', 'E', 'T'] then (if ts = [] then some .ret else none)
  else if mnemonic = ['C', 'O', 'N', 'S', 'T'] then
    match ts with
    | .word d :: .comma :: imm =>
      (register? d).bind fun rd => (hashImmediate? imm).map fun v => .const rd v
    | _ => none
  else if mnemonic = ['A', 'D', 'D'] then threeRegisters? .add ts
  else if mnemonic = ['S', 'U', 'B'] then threeRegisters? .sub ts
  else if mnemonic = ['M', 'U', 'L'] then threeRegisters? .mul ts
  else if mnemonic = ['D', 'I', 'V'] then threeRegisters? .div ts
  else if mnemonic = ['A', 'N', 'D'] then threeRegisters? .and ts
  else if mnemonic = ['O', 'R'] then threeRegisters? .or ts
  else if mnemonic = ['X', 'O', 'R'] then threeRegisters? .xor ts
  else if mnemonic = ['C', 'M', 'P'] then
    match ts with
    | [.word a, .comma, .word b] =>
      (register? a).bind fun rs1 => (register? b).map fun rs2 => .cmp rs1 rs2
    | _ => none
  else if mnemonic = ['L', 'D', 'R'] then
    match ts with
    | [.word d, .comma, .openBracket, .word a, sign, .word n, .closeBracket] =>
      (register? d).bind fun rd => (register? a).bind fun rs1 => (offset? sign n).map fun imm => .ldr rd rs1 imm
    | _ => none
  else if mnemonic = ['S', 'T', 'R'] then
    match ts with
    | [.openBracket, .word a, sign, .word n, .closeBracket, .comma, .word d] =>
      (register? a).bind fun rs1 => (offset? sign n).bind fun imm => (register? d).map fun rd => .str rd rs1 imm
    | _ => none
  else if mnemonic = ['B', 'R'] then (branchOffset? ts).map fun imm => .br imm
  else if mnemonic = ['B', 'R', 'z'] then testedBranch? .brz ts
  else if mnemonic = ['B', 'R', 'n', 'z'] then testedBranch? .brnz ts
  else if mnemonic = ['B', 'R', 'n'] then testedBranch? .brn ts
  else if mnemonic = ['B', 'R', 'p'] then testedBranch? .brp ts
  else none

/-- The instruction that a line of characters names; none where the assembler refuses it. -/
def assembleChars (line : List Char) : Option Instr :=
  match tokens? line [] with
  | some (.word mnemonic :: ts) => operands? mnemonic ts
  | some _ => none
  | none => none

/-- The instruction that a line of text names (R81). -/
def assembleLine (line : String) : Option Instr := assembleChars line.toList

/-- The word that the assembler writes for a line, ignored bits 0 (R78, R80, R81). -/
def assembleWord (m : OpcodeMap) (line : String) : Option Word := (assembleLine line).map (encode m)

end Sys2Proof.Machine
end

