-- ==== Sys2Proof/Tests/Slice0.lean ====
section
/-! SUPPORT. Tests of the model against words and numbers of the spec (spec/95_test_vectors.md unless
a comment names another file), and for every obligation with hypotheses a witness that meets them. -/

namespace Sys2Proof.Tests

open Sys2Proof Sys2Proof.Machine

/-! ### Helpers -/

/-- The outcome is a next state with the property. -/
def holds (o : Result) (p : State → Bool) : Bool :=
  match o with
  | .next t => p t
  | .fault _ => false
  | .refused _ => false

/-- Thread 0 in the middle of its step, at PC 7, with R1 and R2 set. -/
def alone (r1 r2 : Word) : State :=
  { State.reset with
    rf := [(0, (zeroBank.set 1 r1).set 2 r2)]
    ctx := { threadId := 0, blockId := 0, pc := 7, active := true } }

/-- A thread to launch, with its PC, R1 and R2. -/
def lane (tid : Nat) (pc r1 r2 : Word) : ThreadInit :=
  { threadId := tid, pc := pc
    registers := ((Vector.replicate 16 none).set 1 (some r1)).set 2 (some r2) }

/-- The threads launched as one block on a loaded program. -/
def launched (words : List Word) (ts : List ThreadInit) : State :=
  launch [{ blockId := 0, threads := ts }] { State.reset with imem := words }

/-- Memory word 0 is 5 and its line is resident and dirty: what step 1 of the eviction sequence of
section 2.5 leaves. -/
def dirtyLine : State :=
  { alone 0 5 with
    mem := [(0, 5)]
    cache := { lines := [(0, { dirty := true, tag := 0, data := #v[5, 0, 0, 0] })], hits := 0, misses := 1 } }

/-- The context-free part of a test: the executing thread's PC is 8. -/
def at8 (t : State) : Bool := t.ctx.pc == 8

/-! ### Well-formedness: each check refuses an ill-formed term (R74, R77) -/

theorem test_wf_const : (Instr.const 0 32768).wellFormed defaultOpcodeMap = false := by decide
theorem test_wf_ldr : (Instr.ldr 0 0 (-32769)).wellFormed defaultOpcodeMap = false := by decide
theorem test_wf_str : (Instr.str 0 0 32768).wellFormed defaultOpcodeMap = false := by decide
theorem test_wf_br : (Instr.br 0xFFFF).wellFormed defaultOpcodeMap = false := by decide
theorem test_wf_brz : (Instr.brz 0 32768).wellFormed defaultOpcodeMap = false := by decide
theorem test_wf_brnz : (Instr.brnz 0 (-32769)).wellFormed defaultOpcodeMap = false := by decide
theorem test_wf_brn : (Instr.brn 0 32768).wellFormed defaultOpcodeMap = false := by decide
theorem test_wf_brp : (Instr.brp 0 32768).wellFormed defaultOpcodeMap = false := by decide

/-- A map that gives NOP the lowest byte of a row for unassigned bytes makes that row ill formed. -/
theorem test_wf_unassigned :
    Instr.nopU12.wellFormed { defaultOpcodeMap with nop := 0x12 } = false ∧
    Instr.nopU14.wellFormed { defaultOpcodeMap with nop := 0x14 } = false ∧
    Instr.nopU18.wellFormed { defaultOpcodeMap with nop := 0x18 } = false ∧
    Instr.nopU20.wellFormed { defaultOpcodeMap with nop := 0x20 } = false ∧
    Instr.nopU40.wellFormed { defaultOpcodeMap with nop := 0x40 } = false ∧
    Instr.nopU80.wellFormed { defaultOpcodeMap with nop := 0x80 } = false := by decide

theorem test_map_wf : defaultOpcodeMap.wf = true ∧
    ({ defaultOpcodeMap with add := 0x03 } : OpcodeMap).wf = false := by decide

/-! ### Decoding: words written out from the field table of R73 and the map of R76 -/

theorem test_decode_nop_const : decode defaultOpcodeMap 0x00000000 = .nop ∧
    decode defaultOpcodeMap 0x01000005 = .const 0 5 ∧
    decode defaultOpcodeMap 0x0110FFFF = .const 1 (-1) ∧
    decode defaultOpcodeMap 0x01F08000 = .const 15 (-32768) ∧
    decode defaultOpcodeMap 0x01F07FFF = .const 15 32767 := by decide

theorem test_decode_alu : decode defaultOpcodeMap 0x02201FFF = .add 2 0 1 ∧
    decode defaultOpcodeMap 0x03113000 = .sub 1 1 3 ∧ decode defaultOpcodeMap 0x04ABC000 = .mul 10 11 12 ∧
    decode defaultOpcodeMap 0x05123000 = .div 1 2 3 ∧ decode defaultOpcodeMap 0x06FED123 = .and 15 14 13 ∧
    decode defaultOpcodeMap 0x07456000 = .or 4 5 6 ∧ decode defaultOpcodeMap 0x08789000 = .xor 7 8 9 := by
  decide

theorem test_decode_memory : decode defaultOpcodeMap 0x0930012C = .ldr 3 0 300 ∧
    decode defaultOpcodeMap 0x0A210000 = .str 2 1 0 ∧
    decode defaultOpcodeMap 0x0A21FFFF = .str 2 1 (-1) := by decide

theorem test_decode_control : decode defaultOpcodeMap 0x0B50FFFF = .br (-1) ∧
    decode defaultOpcodeMap 0x0C000002 = .brz 0 2 ∧ decode defaultOpcodeMap 0x0D030004 = .brnz 3 4 ∧
    decode defaultOpcodeMap 0x0E0F8000 = .brn 15 (-32768) ∧
    decode defaultOpcodeMap 0x0F01FFFE = .brp 1 (-2) ∧ decode defaultOpcodeMap 0x10F12000 = .cmp 1 2 ∧
    decode defaultOpcodeMap 0x11ABCDEF = .ret := by decide

/-- The first and the last byte of every row of spec/opcode_table.json for unassigned bytes. -/
theorem test_decode_unassigned : decode defaultOpcodeMap 0x12000000 = .nopU12 ∧
    decode defaultOpcodeMap 0x13FFFFFF = .nopU12 ∧ decode defaultOpcodeMap 0x14000000 = .nopU14 ∧
    decode defaultOpcodeMap 0x17000000 = .nopU14 ∧ decode defaultOpcodeMap 0x18000000 = .nopU18 ∧
    decode defaultOpcodeMap 0x1F000000 = .nopU18 ∧ decode defaultOpcodeMap 0x20000000 = .nopU20 ∧
    decode defaultOpcodeMap 0x3F000000 = .nopU20 ∧ decode defaultOpcodeMap 0x40000000 = .nopU40 ∧
    decode defaultOpcodeMap 0x7F000001 = .nopU40 ∧ decode defaultOpcodeMap 0x80000000 = .nopU80 ∧
    decode defaultOpcodeMap 0xFF123456 = .nopU80 := by decide

theorem test_decodeTableWord : decodeTableWord 32 0x0930012C = some (.ldr 3 0 300) ∧
    decodeTableWord 8 0xFF = some .nop := by decide

/-- R80 on the words of scenarios 1 and 3 and of program P1. -/
theorem test_encode : encode defaultOpcodeMap (.const 1 7) = 0x01100007 ∧
    encode defaultOpcodeMap (.add 2 0 1) = 0x02201000 ∧ encode defaultOpcodeMap .ret = 0x11000000 ∧
    encode defaultOpcodeMap (.str 2 1 0) = 0x0A210000 ∧ encode defaultOpcodeMap (.ldr 0 1 0) = 0x09010000 ∧
    encode defaultOpcodeMap (.brp 1 (-2)) = 0x0F01FFFE := by decide

/-- The spellings of R81; a register R16 and an immediate out of range are refused. -/
theorem test_assembler : assembleWord defaultOpcodeMap "STR [R1+0], R2" = some 0x0A210000 ∧
    assembleWord defaultOpcodeMap "LDR R3,[R0+300]" = some 0x0930012C ∧
    assembleWord defaultOpcodeMap "BRz,#2" = some 0x0C000002 ∧
    assembleWord defaultOpcodeMap "BRp R1,#-2" = some 0x0F01FFFE ∧
    assembleWord defaultOpcodeMap "ADD R16,R0,R0" = none ∧
    assembleWord defaultOpcodeMap "CONST R0,#32768" = none := by decide

/-! ### The execution unit: the rows of sections 2.2 and 2.3 (operands; result, zero, negative, overflow) -/

def aluRow (op : AluOp) (e : Word × Word × Word × Bool × Bool × Bool) : Bool :=
  aluUnit op e.1 e.2.1 ==
    { result := e.2.2.1, zero := e.2.2.2.1, negative := e.2.2.2.2.1, overflow := e.2.2.2.2.2 }

theorem test_alu_add : [(0x00000005, 0x00000007, 0x0000000C, false, false, false),
    (0x7FFFFFFF, 0x00000001, 0x80000000, false, true, true),
    (0xFFFFFFFF, 0x00000001, 0x00000000, true, false, false),
    (0x80000000, 0x80000000, 0x00000000, true, false, true),
    (0xFFFFFFFF, 0xFFFFFFFF, 0xFFFFFFFE, false, true, false)].all (aluRow .add) = true := by decide

theorem test_alu_sub : [(0x00000003, 0x00000005, 0xFFFFFFFE, false, true, false),
    (0x80000000, 0x00000001, 0x7FFFFFFF, false, false, true),
    (0x00000000, 0x00000001, 0xFFFFFFFF, false, true, false),
    (0x00000000, 0x80000000, 0x80000000, false, true, true),
    (0x00000007, 0x00000007, 0x00000000, true, false, false),
    (0x7FFFFFFF, 0xFFFFFFFF, 0x80000000, false, true, true)].all (aluRow .sub) = true := by decide

theorem test_alu_mul : [(0x00000006, 0x00000007, 0x0000002A, false, false, false),
    (0x00010000, 0x00010000, 0x00000000, true, false, true),
    (0xFFFFFFFF, 0xFFFFFFFF, 0x00000001, false, false, false),
    (0x80000000, 0xFFFFFFFF, 0x80000000, false, true, true),
    (0x7FFFFFFF, 0x00000002, 0xFFFFFFFE, false, true, true),
    (0xFFFFFFFD, 0x00000005, 0xFFFFFFF1, false, true, false)].all (aluRow .mul) = true := by decide

theorem test_alu_logic : aluRow .and (0xF0F0F0F0, 0x0FF00FF0, 0x00F000F0, false, false, false) = true ∧
    aluRow .and (0x80000000, 0xFFFFFFFF, 0x80000000, false, true, false) = true ∧
    aluRow .or (0xF0F0F0F0, 0x0FF00FF0, 0xFFF0FFF0, false, true, false) = true ∧
    aluRow .xor (0xF0F0F0F0, 0x0FF00FF0, 0xFF00FF00, false, true, false) = true ∧
    aluRow .xor (0x12345678, 0x12345678, 0x00000000, true, false, false) = true := by decide

theorem test_alu_div : ([(7, 2, 3), (-7, 2, -3), (7, -2, -3), (-7, -2, 3), (0, 5, 0), (5, 0, 0),
    (-5, 0, 0), (0, 0, 0), (0x80000000, -1, 0x80000000), (0x80000000, 1, 0x80000000),
    (1, 0x80000000, 0), (100, 7, 14), (-1, 2, 0), (0x7FFFFFFF, -1, 0x80000001)] :
    List (Word × Word × Word)).all (fun e => aluResult .div e.1 e.2.1 == e.2.2) = true := by decide

theorem test_compare : compareSigned 1 2 = .less ∧ compareSigned 2 1 = .greater ∧
    compareSigned 5 5 = .equal ∧ compareSigned 0xFFFFFFFF 1 = .less ∧
    compareSigned 0x80000000 0x7FFFFFFF = .less := by decide

/-- The table of section 2.4: BRz, BRnz in both readings, BRn, BRp. -/
theorem test_branch_conditions : ([(0, true, false, true, false, false), (1, false, true, false, false, true),
    (0xFFFFFFFF, false, true, true, true, false), (0x7FFFFFFF, false, true, false, false, true),
    (0x80000000, false, true, true, true, false)] : List (Word × Bool × Bool × Bool × Bool × Bool)).all
    (fun e => (takenZ e.1, takenNZ .notZero e.1, takenNZ .negOrZero e.1, takenN e.1, takenP e.1) == e.2) =
      true := by decide

theorem test_branch_targets : branchTarget 1 2 = 3 ∧ branchTarget 5 (-3) = 2 ∧
    branchTarget 0 (-1) = 0xFFFFFFFF ∧ branchTarget 7 32767 = 32774 ∧
    branchTarget 40000 (-32768) = 7232 := by decide

theorem test_effective_addresses : effectiveAddress 0x64 (-1) = 0x63 ∧
    effectiveAddress 0xFFFFFFFF 1 = 0 ∧ inRange State.reset (effectiveAddress 0x3FC 3) = true ∧
    inRange State.reset (effectiveAddress 0x3FC 4) = false ∧
    inRange State.reset (effectiveAddress 0 (-1)) = false := by decide

theorem test_cache_geometry : ([(0, 0, 0, 0, 0), (3, 0, 0, 3, 0), (4, 1, 0, 0, 4), (63, 15, 0, 3, 60),
    (64, 0, 1, 0, 64), (100, 9, 1, 0, 100), (1023, 15, 15, 3, 1020)] :
    List (Word × Nat × Word × Nat × Nat)).all
    (fun e => (cacheIndex defaultConfig e.1, cacheTag defaultConfig e.1, (cacheOffset e.1).val,
      lineBase defaultConfig (cacheTag defaultConfig e.1) (cacheIndex defaultConfig e.1)) == e.2) = true := by
  decide

/-! ### One instruction each (section 2.7 and the rules; PC 7, R1 and R2 set) -/

theorem test_exec_nop : holds (exec .nop (alone 3 4)) (fun t => at8 t && x t 1 == 3) = true := by decide

theorem test_exec_unassigned : ([Instr.nopU12, .nopU14, .nopU18, .nopU20, .nopU40, .nopU80].all fun i =>
    holds (exec i (alone 3 4)) fun t => at8 t && t.rf == (alone 3 4).rf) = true := by decide

theorem test_exec_const : holds (exec (.const 3 (-32768)) (alone 0 0))
    (fun t => at8 t && x t 3 == 0xFFFF8000) = true := by decide

/-- Section 2.2, same-register cases: R1 = 9. -/
theorem test_exec_add_same : holds (exec (.add 1 1 1) (alone 9 0)) (fun t => at8 t && x t 1 == 18) = true := by
  decide

theorem test_exec_sub : holds (exec (.sub 3 1 2) (alone 3 5))
    (fun t => at8 t && x t 3 == 0xFFFFFFFE && x t 1 == 3) = true := by decide

theorem test_exec_mul : holds (exec (.mul 3 1 2) (alone 0xFFFFFFFD 5))
    (fun t => at8 t && x t 3 == 0xFFFFFFF1) = true := by decide

theorem test_exec_div : holds (exec (.div 3 1 2) (alone 0xFFFFFFF9 2))
    (fun t => at8 t && x t 3 == 0xFFFFFFFD) = true := by decide

theorem test_exec_and : holds (exec (.and 2 1 2) (alone 0xF0F0F0F0 0x0FF00FF0))
    (fun t => at8 t && x t 2 == 0x00F000F0) = true := by decide

theorem test_exec_or : holds (exec (.or 2 1 2) (alone 0xF0F0F0F0 0x0FF00FF0))
    (fun t => at8 t && x t 2 == 0xFFF0FFF0) = true := by decide

theorem test_exec_xor : holds (exec (.xor 2 1 2) (alone 0xF0F0F0F0 0x0FF00FF0))
    (fun t => at8 t && x t 2 == 0xFF00FF00) = true := by decide

/-- Step 2 of the eviction sequence of section 2.5: the dirty line is written back and replaced. -/
theorem test_exec_ldr_evicts : holds (exec (.ldr 3 1 64) dirtyLine)
    (fun t => at8 t && x t 3 == 0 && globalRead t 0 == 5 && t.cache.misses == 2 &&
      lineAt? t 0 == some { dirty := false, tag := 1, data := #v[0, 0, 0, 0] }) = true := by decide

/-- Step 5 of the sequence: out of range, but a request is queued (D26). -/
theorem test_exec_ldr_out_of_range : holds (exec (.ldr 2 1 (-1)) dirtyLine)
    (fun t => at8 t && x t 2 == 0 && t.cache == dirtyLine.cache && t.mcQueue.length == 1) = true := by decide

/-- Scenario 3, its first cycle: R1 = 16, R2 = 42. -/
theorem test_exec_str : holds (exec (.str 2 1 0) (alone 16 42))
    (fun t => at8 t && globalRead t 16 == 42 && t.cache.misses == 1 &&
      lineAt? t 4 == some { dirty := true, tag := 0, data := #v[42, 0, 0, 0] }) = true := by decide

theorem test_exec_str_dropped : holds (exec (.str 2 1 2000) dirtyLine)
    (fun t => at8 t && t.mem == [(0, 5)] && t.cache == dirtyLine.cache && t.mcQueue.length == 1) = true := by
  decide

theorem test_exec_br : holds (exec (.br (-4)) (alone 0 0)) (fun t => t.ctx.pc == 3) = true := by decide

theorem test_exec_brz : holds (exec (.brz 1 (-4)) (alone 0 1)) (fun t => t.ctx.pc == 3) = true ∧
    holds (exec (.brz 2 (-4)) (alone 0 1)) at8 = true := by decide

theorem test_exec_brnz : holds (exec (.brnz 1 (-4)) (alone 0 1)) at8 = true ∧
    holds (exec (.brnz 2 (-4)) (alone 0 1)) (fun t => t.ctx.pc == 3) = true := by decide

theorem test_exec_brn : holds (exec (.brn 1 (-4)) (alone 0x80000000 1)) (fun t => t.ctx.pc == 3) = true ∧
    holds (exec (.brn 2 (-4)) (alone 0x80000000 1)) at8 = true := by decide

theorem test_exec_brp : holds (exec (.brp 1 (-4)) (alone 0x80000000 1)) at8 = true ∧
    holds (exec (.brp 2 (-4)) (alone 0x80000000 1)) (fun t => t.ctx.pc == 3) = true := by decide

theorem test_exec_cmp : holds (exec (.cmp 1 2) (alone 1 2))
    (fun t => at8 t && t.rf == (alone 1 2).rf) = true := by decide

theorem test_exec_ret : holds (exec .ret (alone 1 2)) (fun t => t.ctx.pc == 7 && !t.ctx.active) = true := by
  decide

/-! ### The controller (section 2.6) -/

/-- A request of lane 0. -/
def request (a : Word) (v : Option Word) : MemoryRequest :=
  { address := a, data := v, write := v.isSome, threadId := 0, blockId := 0 }

/-- The queue of section 2.6: read 5, read 0, read 2, read 9, write 3 (value 1), read 3. -/
def queue : List MemoryRequest :=
  [request 5 none, request 0 none, request 2 none, request 9 none, request 3 (some 1), request 3 none]

theorem test_controller : (sortByAddress queue).map (fun r => (r.address, r.write)) =
      [(0, false), (2, false), (3, true), (3, false), (5, false), (9, false)] ∧
    (processRequests { State.reset with mcQueue := queue }).mcStats = { requests := 6, groups := 4 } ∧
    (processRequests { State.reset with mcQueue := queue }).mem = [(3, 1)] := by decide

theorem test_response_ids : responseId { request 100 none with threadId := 3, blockId := 1 } = 3010100 ∧
    responseId { request 0 none with blockId := 1 } = 10000 ∧ responseId (request 10000 none) = 10000 := by
  decide

/-! ### The engine (section 2.8, scenario 6 and R86) -/

/-- BR #-1 alone: the next PC is 0xFFFFFFFF (C2); the fetch there deactivates the thread (R93). -/
theorem test_step_br : holds (step (launched [0x0B00FFFF] [lane 0 0 0 0])) (fun t =>
      t.cycle == 1 && (threadAt? t ⟨0, 0⟩).map (·.pc) == some 0xFFFFFFFF && !isComplete t) = true ∧
    holds (step (launched [0x0B00FFFF] [lane 0 0xFFFFFFFF 0 0])) (fun t =>
      t.cycle == 1 && isComplete t && endKind t == some .complete) = true := by decide

theorem test_step_no_warps : executeCycleReturns State.reset = false ∧
    holds (step State.reset) (fun t => t == State.reset) = true := by decide

theorem test_step_budget : holds (step { launched [0] [lane 0 0 0 0] with maxCycles := 0 })
    (fun t => t.cycle == 0 && endKind t == some .budget) = true := by decide

/-- The first step after reset runs the placed word. -/
theorem test_withFetchWord : holds (step (State.reset.withFetchWord 32 0x01F08000)) (fun t =>
    readReg t 0 15 == 0xFFFF8000 && (threadAt? t ⟨0, 0⟩).map (·.pc) == some 1 && t.cycle == 1) = true := by
  decide

/-- Warps of a block of 33 threads, and of 64 (R86). -/
theorem test_warps : (blockWarpMembers 0 33).map (·.length) = [32, 1] ∧
    (blockWarpMembers 2 64).map (·.length) = [32, 32] ∧
    (blockWarpMembers 0 33)[1]? = some [⟨0, 32⟩] ∧ blockWarpMembers 0 0 = [] := by decide

/-- Program P7 (U1): lane 0 stores 9 to word 50, lane 1 loads it. -/
def racing : State := launched [0x0A100032, 0x11000000, 0x09200032] [lane 0 0 9 0, lane 1 2 0 0]

/-- The words left open for the load of P7 are 0 and 9; in ascending order it reads 9 at its turn. -/
theorem test_race : planLanes racing [⟨0, 0⟩, ⟨0, 1⟩] = [⟨⟨0, 0⟩, []⟩, ⟨⟨0, 1⟩, [0, 9]⟩] ∧
    holds (runLanes [⟨⟨0, 0⟩, []⟩, ⟨⟨0, 1⟩, []⟩] racing) (fun t => readReg t 1 2 == 9) = true ∧
    pickWord 0 9 [0, 9] = 9 ∧ pickWord 1 9 [0, 9] = 0 ∧
    holds (step racing) (fun t => globalRead t 50 == 9 && t.cache.hits == 1 && t.cache.misses == 1) =
      true := by decide

/-- LDR, STR, LDR on one word: the requests stay in lane order, so R59 opens 3 groups. -/
theorem test_race_groups : holds (step (launched [0x09310000, 0x0A210000]
    [lane 0 0 0 0, lane 1 1 0 9, lane 2 0 0 0]))
      (fun t => t.mcStats == { requests := 3, groups := 3 } && globalRead t 0 == 9) = true := by decide

theorem test_stats : getStats State.reset =
    { cycle := 0, scheduler := { totalWarps := 0, activeWarps := 0, ticks := 0 },
      cache := { hits := 0, misses := 0, hitRate := 0 } } := by decide

/-! ### Witnesses: states and operands that meet the hypotheses of the obligations -/

/-- Two lanes at different PCs: lane 0 stores 9 to word 0, lane 1 loads word 4. -/
def two : State := launched [0x0A210000, 0x09310000] [lane 0 0 0 9, lane 1 1 4 0]

/-- Two warps: threads 0 to 31, of which all but thread 0 are inactive, and thread 32. -/
def twoWarps : State :=
  launched [0x11000000]
    (lane 0 0 0 0 :: ((List.range 31).map fun i => { lane (i + 1) 0 0 0 with active := false }) ++
      [lane 32 0 0 0])

theorem witness_DecodeOfEncodeIsIdentity : defaultOpcodeMap.wf = true ∧
    (Instr.const 15 (-32768)).wellFormed defaultOpcodeMap = true ∧
    (Instr.brp 1 32767).wellFormed defaultOpcodeMap = true ∧
    Instr.nopU80.wellFormed defaultOpcodeMap = true := by decide

theorem witness_UnusedBitsDoNotChangeDecoding :
    opField 0x02201FFF = opField 0x02201000 ∧
    UsedFieldsAgree (defaultOpcodeMap.opOf? (opField 0x02201FFF)) 0x02201FFF 0x02201000 := by
  refine ⟨by decide, ?_⟩
  show rdField _ = rdField _ ∧ rs1Field _ = rs1Field _ ∧ rs2Field _ = rs2Field _
  decide

theorem witness_NopAndUnassignedOpcodesOnlyAdvancePc : opField 0x00ABCDEF = 0x00 ∧
    0x12 ≤ (opField 0x12000000).toNat ∧ 0x12 ≤ (opField 0xFF000000).toNat ∧
    opField 0x12000000 ∉ defaultOpcodeMap.assigned := by decide

/-- The premise of each instruction statement's clause about decoding. -/
theorem witness_opcode_bytes : opField 0x01000005 = 0x01 ∧ opField 0x02201000 = 0x02 ∧
    opField 0x03113000 = 0x03 ∧ opField 0x04ABC000 = 0x04 ∧ opField 0x05123000 = 0x05 ∧
    opField 0x06FED123 = 0x06 ∧ opField 0x07456000 = 0x07 ∧ opField 0x08789000 = 0x08 ∧
    opField 0x0930012C = 0x09 ∧ opField 0x0A210000 = 0x0A ∧ opField 0x0B50FFFF = 0x0B ∧
    opField 0x0C000002 = 0x0C ∧ opField 0x0D030004 = 0x0D ∧ opField 0x0E0F8000 = 0x0E ∧
    opField 0x0F01FFFE = 0x0F ∧ opField 0x10F12000 = 0x10 ∧ opField 0x11ABCDEF = 0x11 := by decide

theorem witness_DivWritesTruncatedQuotient : (x (alone 7 0) 2).toInt = 0 ∧
    (x (alone 0x80000000 (-1)) 2).toInt ≠ 0 ∧ (x (alone (-7) 2) 2).toInt ≠ 0 := by decide

theorem witness_AddSub_outputs :
    (0x80000000 : Word) = BitVec.ofNat 32 ((0x7FFFFFFF : Word).toNat + (1 : Word).toNat) ∧
    (0xFFFFFFFF : Word) = BitVec.ofInt 32 (((0 : Word).toNat : Int) - ((1 : Word).toNat : Int)) := by decide

theorem witness_EffectiveAddressWrapsAndNegativeIsOutOfRange : (alone 0 0).cfg.wf = true ∧
    (0xFFFFFFFF : Word).toInt < 0 ∧ (0x80000000 : Word).toInt < 0 := by decide

theorem witness_LdrReadsThroughCacheAndQueuesRequest :
    (3 : Word) = BitVec.ofNat 32 ((x (alone 4 0) 1).toNat + (0xFFFFFFFF : Word).toNat) ∧
    (1024 : Word) = BitVec.ofNat 32 ((x (alone 4 0) 1).toNat + (1020 : Word).toNat) ∧
    (alone 4 0).cfg.memWords ≤ (1024 : Word).toNat ∧
    (3 : Word) = BitVec.ofNat 32 ((x dirtyLine 2).toNat + (0xFFFFFFFE : Word).toNat) ∧
    (lineAt? dirtyLine (cacheIndex dirtyLine.cfg 3)).map (·.tag) =
      some (cacheTag dirtyLine.cfg 3) := by decide

/-- The last word in range and the first one out of range, in a coherent state with a dirty line. -/
theorem witness_LdrLoadsTheMemoryWord : MemoryInv dirtyLine ∧ CacheInv dirtyLine ∧
    (effectiveAddress (x dirtyLine 1) 1023).toNat < dirtyLine.cfg.memWords ∧
    dirtyLine.cfg.memWords ≤ (effectiveAddress (x dirtyLine 1) 1024).toNat := by decide

theorem witness_StrWritesThroughCacheAndQueuesRequest :
    (1023 : Word) = BitVec.ofNat 32 ((x dirtyLine 1).toNat + (1023 : Word).toNat) ∧
    (1023 : Word).toNat < dirtyLine.cfg.memWords ∧
    (1024 : Word) = BitVec.ofNat 32 ((x dirtyLine 1).toNat + (1024 : Word).toNat) ∧
    dirtyLine.cfg.memWords ≤ (1024 : Word).toNat ∧
    (lineAt? dirtyLine (cacheIndex dirtyLine.cfg 3)).map (·.tag) = some (cacheTag dirtyLine.cfg 3) ∧
    (lineAt? dirtyLine (cacheIndex dirtyLine.cfg 64)).map (·.tag) ≠ some (cacheTag dirtyLine.cfg 64) ∧
    lineAt? dirtyLine (cacheIndex dirtyLine.cfg 1023) = none := by decide

theorem witness_StrStoresExactlyOneWord : MemoryInv dirtyLine ∧ CacheInv dirtyLine ∧
    (effectiveAddress (x dirtyLine 1) 1023).toNat < dirtyLine.cfg.memWords ∧
    dirtyLine.cfg.memWords ≤ (effectiveAddress (x dirtyLine 1) (-1)).toNat := by decide

/-- For the clause over single instructions. -/
theorem witness_OwnStoreThenLoadReturnsTheValue : MemoryInv dirtyLine ∧ CacheInv dirtyLine ∧
    (effectiveAddress (x dirtyLine 1) 1023).toNat < dirtyLine.cfg.memWords ∧
    effectiveAddress (x dirtyLine 2) 1018 = effectiveAddress (x dirtyLine 1) 1023 := by decide

/-- The state after `n` steps. -/
def after (n : Nat) (s : State) : State :=
  match stepTimes n s with
  | .next t => t
  | .fault _ => s
  | .refused _ => s

/-- Lane 0 stores 9 to word 50, waits one cycle and loads the word; lane 1 is one instruction ahead of
it. -/
def storeThenLoad : State :=
  launched [0x0A100032, 0x00000000, 0x09200032] [lane 0 0 9 0, lane 1 1 0 0]

theorem noStoreTo_of_pick {s : State} {k a : Nat} (hk : (getNextWarp s).warp = some k)
    (hs : laneStores s (membersOf s k) a = []) : NoStoreTo s a := fun j hj => by
  obtain rfl : k = j := Option.some.inj (hk.symm.trans hj)
  exact hs

/-- For the clause over steps: one step lies between the store and the load. -/
theorem witness_OwnStoreThenLoad_steps : Inv storeThenLoad ∧ halted storeThenLoad = false ∧
    (getNextWarp storeThenLoad).warp = some 0 ∧ (⟨0, 0⟩ : ThreadRef) ∈ membersOf storeThenLoad 0 ∧
    (threadAt? storeThenLoad ⟨0, 0⟩).map (fun th => (th.threadId, th.active,
      storeThenLoad.imem[th.pc.toNat]?)) = some (0, true, some 0x0A100032) ∧
    decode defaultOpcodeMap 0x0A100032 = .str 1 0 50 ∧
    effectiveAddress (readReg storeThenLoad 0 0) 50 = 50 ∧
    laneStores storeThenLoad ((membersOf storeThenLoad 0).filter (· != ⟨0, 0⟩)) 50 = [] ∧
    step storeThenLoad = .next (after 1 storeThenLoad) ∧
    StoreFreeSteps 50 1 (after 1 storeThenLoad) (after 2 storeThenLoad) ∧
    halted (after 2 storeThenLoad) = false ∧ (getNextWarp (after 2 storeThenLoad)).warp = some 0 ∧
    (⟨0, 0⟩ : ThreadRef) ∈ membersOf (after 2 storeThenLoad) 0 ∧
    (threadAt? (after 2 storeThenLoad) ⟨0, 0⟩).map (fun th => (th.threadId, th.active,
      (after 2 storeThenLoad).imem[th.pc.toNat]?)) = some (0, true, some 0x09200032) ∧
    decode defaultOpcodeMap 0x09200032 = .ldr 2 0 50 ∧
    effectiveAddress (readReg (after 2 storeThenLoad) 0 0) 50 = 50 ∧
    NoStoreTo (after 2 storeThenLoad) 50 ∧
    step (after 2 storeThenLoad) = .next (after 3 storeThenLoad) :=
  ⟨by decide, by decide, by decide, by decide, by decide, by decide, by decide, by decide, rfl,
    ⟨_, noStoreTo_of_pick (k := 0) (by decide) (by decide), rfl, rfl⟩, by decide, by decide, by decide,
    by decide, by decide, by decide, noStoreTo_of_pick (k := 0) (by decide) (by decide), rfl⟩

theorem witness_ConditionalBranchesTestTheirRegister :
    (9 : Word) = BitVec.ofNat 32 ((alone 0 1).ctx.pc.toNat + (2 : Word).toNat) ∧
    (alone 0 1).cfg.brnzReading = .notZero ∧
    ({ alone 0 1 with cfg := { defaultConfig with brnzReading := .negOrZero } } : State).cfg.brnzReading =
      .negOrZero := by decide

theorem witness_RetHaltsTheThreadInPlace : (threadAt? twoWarps ⟨0, 0⟩).map (·.active) = some true ∧
    twoWarps.imem[0]? = some 0x11000000 ∧ decode twoWarps.cfg.opcodeMap 0x11000000 = .ret := by decide

theorem witness_InstructionsChangeOnlyTheirDestination :
    (∃ t, exec (.str 2 1 0) dirtyLine = .next t) ∧ (∃ t, exec (.add 1 1 1) dirtyLine = .next t) ∧
    destination? (.add 1 1 1) = some 1 ∧ destination? (.str 2 1 0) = none ∧
    accessesMemory (.add 1 1 1) = false := ⟨⟨_, rfl⟩, ⟨_, rfl⟩, by decide⟩

/-- In range at its last word: a hit on word 3 and a miss on word 1023. -/
theorem witness_CacheCountsHitsAndMisses : (3 : Word).toNat < dirtyLine.cfg.memWords ∧
    (cacheRead dirtyLine 3).hit = true ∧ (1023 : Word).toNat < dirtyLine.cfg.memWords ∧
    (cacheRead dirtyLine 1023).hit = false := by decide

theorem witness_OutOfRangeAccessBypassesCache : dirtyLine.cfg.memWords ≤ (1024 : Word).toNat := by decide

/-- A miss with a dirty victim, and one without a victim. -/
theorem witness_MissWritesBackVictimAndFillsLine : (64 : Word).toNat < dirtyLine.cfg.memWords ∧
    (cacheRead dirtyLine 64).hit = false ∧
    (lineAt? dirtyLine (cacheIndex dirtyLine.cfg 64)).map (·.dirty) = some true ∧
    (1023 : Word).toNat < dirtyLine.cfg.memWords ∧ (cacheRead dirtyLine 1023).hit = false ∧
    lineAt? dirtyLine (cacheIndex dirtyLine.cfg 1023) = none := by decide

/-- A coherent dirty line; and a stale one (a host wrote 7 to its word 0), that a flush writes back,
while word 4 belongs to no line. -/
theorem witness_FlushKeepsMemoryAndCleansLines : MemoryInv dirtyLine ∧ CacheInv dirtyLine ∧
    dirtyLine.cache.lines.length = 1 ∧ Table.Sorted (directWrite dirtyLine 0 7).cache.lines ∧
    (∀ e ∈ (directWrite dirtyLine 0 7).cache.lines, e.1 < dirtyLine.cfg.cacheLines ∧ e.2.dirty = true ∧
      lineBase dirtyLine.cfg e.2.tag e.1 + 3 < dirtyLine.cfg.memWords ∧
      lineBase dirtyLine.cfg e.2.tag e.1 + 4 ≤ 4) ∧
    globalRead (directWrite dirtyLine 0 7) 0 = 7 ∧
    globalRead (flush (directWrite dirtyLine 0 7)) 0 = 5 := by decide

/-- The queue of section 2.6: word 3 is stored to, word 1023 is not; a store and a load of word 3 in
service order; and requests to the last word in range and the first one out of range. -/
theorem witness_DrainCommitsLastQueuedStores : 3 < State.reset.cfg.memWords ∧
    queuedStores queue 3 = [1] ∧ 1023 < State.reset.cfg.memWords ∧ queuedStores queue 1023 = [] ∧
    (sortByAddress queue)[2]? = some (request 3 (some 1)) ∧
    (sortByAddress queue)[3]? = some (request 3 none) ∧
    (drainResponses { State.reset with mcQueue := queue })[3]? =
      some { id := 3, data := 1, valid := true } ∧
    (drainResponses { State.reset with mcQueue := [request 1024 none, request 1023 none] }).map
      (·.valid) = [true, false] := by decide

/-- R59's group {read 3, read 5} before {read 9}, and {read 0, read 2} before {write 3}. -/
theorem witness_CoalescerCountsRequestsAndGroups :
    (∀ e ∈ [request 5 none, request 6 none], e.write = (request 3 none).write ∧
      (request 3 none).address.toNat ≤ e.address.toNat ∧
      e.address.toNat - (request 3 none).address.toNat < 4) ∧
    (request 7 none).address.toNat = (request 3 none).address.toNat + 4 ∧
    (request 3 (some 1)).write ≠ (request 0 none).write := by decide

theorem witness_StepRunsTheDecodedInstruction : halted two = false ∧ (getNextWarp two).warp = some 0 ∧
    (threadAt? two ⟨0, 0⟩).map (fun th => (th.active, two.imem[th.pc.toNat]?)) = some (true, some 0x0A210000) ∧
    decode two.cfg.opcodeMap 0x0A210000 = .str 2 1 0 := by decide

/-- The first PC past the end, and the highest PC. -/
theorem witness_FetchPastTheEndDeactivates :
    ((threadAt? (launched [0] [lane 0 1 0 0]) ⟨0, 0⟩).map fun th =>
      th.active && decide (1 ≤ th.pc.toNat)) = some true ∧
    ((threadAt? (launched [0] [lane 0 0xFFFFFFFF 0 0]) ⟨0, 0⟩).map fun th =>
      th.active && decide (1 ≤ th.pc.toNat)) = some true := by decide

/-- Lane 1's load, whose destination is R3. -/
theorem witness_StepThreadWritesBackPcAndSnapshot : ∃ th u, threadAt? two ⟨0, 1⟩ = some th ∧
    th.active = true ∧ two.imem[th.pc.toNat]? = some 0x09310000 ∧
    exec (decode two.cfg.opcodeMap 0x09310000) (enterThread two th) = .next u ∧
    destination? (decode two.cfg.opcodeMap 0x09310000) = some 3 ∧ openWords two [⟨0, 0⟩, ⟨0, 1⟩] ⟨0, 1⟩ = [] :=
  ⟨_, _, rfl, by decide, by decide, rfl, by decide, by decide⟩

/-- Warp 0 is picked first; where `rr` is 1, warp 1 is. -/
theorem witness_RoundRobinPicksNextRunnableWarp : (getNextWarp twoWarps).warp = some 0 ∧
    (getNextWarp { twoWarps with rr := 1 }).warp = some 1 ∧ (getNextWarp State.reset).warp = none := by decide

theorem witness_HaltedStepChangesNothing : executeCycleReturns State.reset = false ∧
    executeCycleReturns { two with maxCycles := 0 } = false ∧ executeCycleReturns two = true := by decide

theorem witness_RunningStepCountsOneCycle : halted twoWarps = false ∧
    (getNextWarp twoWarps).warp = some 0 ∧
    ((getNextWarp twoWarps).state.warps[0]?).map (·.warpId) = some 0 := by decide

theorem witness_StepKeepsProgramAndConfiguration : ∃ t, step two = .next t := executeCycle_answers_next two

theorem witness_InactiveThreadsStayUnchanged : (∃ t, step twoWarps = .next t) ∧
    (threadAt? twoWarps ⟨0, 31⟩).map (·.active) = some false :=
  ⟨executeCycle_answers_next twoWarps, by decide⟩

theorem witness_OtherWarpsDoNotRun : halted twoWarps = false ∧ (getNextWarp twoWarps).warp = some 0 ∧
    (∃ t, step twoWarps = .next t) ∧ (⟨0, 32⟩ : ThreadRef) ∉ membersOf twoWarps 0 ∧
    (threadAt? twoWarps ⟨0, 32⟩).map (·.threadId) = some 32 ∧ UniqueIds twoWarps :=
  ⟨by decide, by decide, executeCycle_answers_next twoWarps, by decide, by decide, by decide⟩

theorem witness_LanesActAndQueueInAscendingOrder : UniqueIds racing ∧ (membersOf racing 0).Nodup ∧
    (∃ t, runLanes (planLanes racing (membersOf racing 0)) racing = .next t) ∧ halted racing = false ∧
    (getNextWarp racing).warp = some 0 ∧ (∃ t, step racing = .next t) ∧
    (threadAt? racing ⟨0, 0⟩).map (fun th => (th.active, racing.imem[th.pc.toNat]?)) =
      some (true, some 0x0A100032) ∧ decode racing.cfg.opcodeMap 0x0A100032 = .str 1 0 50 ∧
    (threadAt? racing ⟨0, 1⟩).map (fun th => (th.active, racing.imem[th.pc.toNat]?)) =
      some (true, some 0x09200032) ∧ decode racing.cfg.opcodeMap 0x09200032 = .ldr 2 0 50 ∧
    accessesMemory (decode racing.cfg.opcodeMap 0x11000000) = false ∧
    threadActive twoWarps ⟨0, 1⟩ = false :=
  ⟨by decide, by decide, runLanes_answers_next _ _, by decide, by decide, executeCycle_answers_next racing,
    by decide, by decide, by decide, by decide, by decide, by decide⟩

/-- A store that races with a load, and with no other store. -/
theorem witness_StoresAreVisibleInTheNextCycle : Inv racing ∧ halted racing = false ∧
    (getNextWarp racing).warp = some 0 ∧ (∃ t, step racing = .next t) ∧
    (⟨0, 0⟩ : ThreadRef) ∈ membersOf racing 0 ∧
    (threadAt? racing ⟨0, 0⟩).map (fun th => (th.threadId, th.active, racing.imem[th.pc.toNat]?)) =
      some (0, true, some 0x0A100032) ∧
    decode racing.cfg.opcodeMap 0x0A100032 = .str 1 0 50 ∧
    (50 : Word) = effectiveAddress (readReg racing 0 0) 50 ∧ (50 : Word).toNat < racing.cfg.memWords ∧
    laneStores racing ((membersOf racing 0).filter (· != ⟨0, 0⟩)) (50 : Word).toNat = [] :=
  ⟨by decide, by decide, by decide, executeCycle_answers_next racing, by decide, by decide, by decide,
    by decide, by decide, by decide⟩

/-- Two lanes that store 9 and 4 to the last word in range, and none that stores to word 0; the line of
the last word is valid after the step. -/
theorem witness_StoredWordsEndWithAStoredValue :
    Inv (launched [0x0A2103FF] [lane 0 0 0 9, lane 1 0 0 4]) ∧
    halted (launched [0x0A2103FF] [lane 0 0 0 9, lane 1 0 0 4]) = false ∧
    (getNextWarp (launched [0x0A2103FF] [lane 0 0 0 9, lane 1 0 0 4])).warp = some 0 ∧
    (∃ t, step (launched [0x0A2103FF] [lane 0 0 0 9, lane 1 0 0 4]) = .next t) ∧
    laneStores (launched [0x0A2103FF] [lane 0 0 0 9, lane 1 0 0 4]) [⟨0, 0⟩, ⟨0, 1⟩] 1023 = [9, 4] ∧
    laneStores (launched [0x0A2103FF] [lane 0 0 0 9, lane 1 0 0 4]) [⟨0, 0⟩, ⟨0, 1⟩] 0 = [] ∧
    holds (step (launched [0x0A2103FF] [lane 0 0 0 9])) (fun t =>
      (lineAt? t (cacheIndex t.cfg 1023)).map (·.tag) == some (cacheTag t.cfg 1023)) = true :=
  ⟨by decide, by decide, by decide, executeCycle_answers_next _, by decide, by decide, by decide⟩

/-- The load of P7. -/
theorem witness_LoadsReturnTheOldOrAStoredWord : Inv racing ∧ halted racing = false ∧
    (getNextWarp racing).warp = some 0 ∧ (∃ t, step racing = .next t) ∧
    (⟨0, 1⟩ : ThreadRef) ∈ membersOf racing 0 ∧
    (threadAt? racing ⟨0, 1⟩).map (fun th => (th.threadId, th.active, racing.imem[th.pc.toNat]?)) =
      some (1, true, some 0x09200032) ∧
    decode racing.cfg.opcodeMap 0x09200032 = .ldr 2 0 50 ∧
    (50 : Word) = effectiveAddress (readReg racing 1 0) 50 ∧ (50 : Word).toNat < racing.cfg.memWords ∧
    laneStores racing ((membersOf racing 0).filter (· != ⟨0, 1⟩)) (50 : Word).toNat = [9] :=
  ⟨by decide, by decide, by decide, executeCycle_answers_next racing, by decide, by decide, by decide,
    by decide, by decide, by decide⟩

/-- A state between cycles that meets the whole invariant and is not trivial: a program, two threads,
one warp, and a dirty line. Its step goes on. -/
theorem witness_StepKeepsTheInvariant :
    Inv { two with mem := dirtyLine.mem, cache := dirtyLine.cache } ∧
    ∃ t, step { two with mem := dirtyLine.mem, cache := dirtyLine.cache } = .next t :=
  ⟨by decide, executeCycle_answers_next _⟩

theorem witness_StepKeepsMemoryCanonical : MemoryInv { two with mem := [(0, 5), (1023, 1)] } ∧
    ∃ t, step { two with mem := [(0, 5), (1023, 1)] } = .next t :=
  ⟨by decide, executeCycle_answers_next _⟩

theorem witness_StepKeepsCacheCoherent :
    MemoryInv { two with mem := dirtyLine.mem, cache := dirtyLine.cache } ∧
    CacheInv { two with mem := dirtyLine.mem, cache := dirtyLine.cache } ∧
    QuietInv { two with mem := dirtyLine.mem, cache := dirtyLine.cache } ∧
    ∃ t, step { two with mem := dirtyLine.mem, cache := dirtyLine.cache } = .next t :=
  ⟨by decide, by decide, by decide, executeCycle_answers_next _⟩

theorem witness_StepKeepsSnapshotsInSync : SnapshotInv two ∧ ∃ t, step two = .next t :=
  ⟨by decide, executeCycle_answers_next two⟩

theorem witness_StepKeepsSchedulerAndWarps : SchedulerInv twoWarps ∧ OwnershipInv twoWarps ∧
    WarpInv twoWarps ∧ ∃ t, step twoWarps = .next t :=
  ⟨by decide, by decide, by decide, executeCycle_answers_next twoWarps⟩

/-- The launch of two blocks, one with two threads, that the launch statements are about. -/
def twoBlocks : List BlockInit :=
  [{ blockId := 7, threads := [lane 0 0 1 2, lane 1 0 3 4] }, { blockId := 9, threads := [lane 5 0 0 0] }]

theorem witness_LaunchKeepsTheInvariant : Inv two ∧ ∃ t, initializeBlocks twoBlocks two = .next t :=
  ⟨by decide, _, rfl⟩

theorem witness_LaunchRefusesRepeatedThreadIds : (launchIds twoBlocks).Nodup ∧
    ¬(launchIds (twoBlocks ++ twoBlocks)).Nodup := by decide

/-- Two blocks launched; and thread 5 alone, which leaves R2 of thread 0 as it was. -/
theorem witness_LaunchRegistersTheHostsThreads : (∃ t, initializeBlocks twoBlocks two = .next t) ∧
    (twoBlocks[0]?).map (·.threads.length) = some 2 ∧
    holds (initializeBlocks twoBlocks two) (fun t => readReg t 1 2 == 4 &&
      (threadAt? t ⟨1, 0⟩).map (·.blockId) == some 9) = true ∧
    0 ∉ launchIds (twoBlocks.drop 1) ∧
    holds (initializeBlocks (twoBlocks.drop 1) two) (fun t => readReg t 0 2 == 9) = true :=
  ⟨⟨_, rfl⟩, by decide, by decide, by decide, by decide⟩

theorem witness_WarpsAreConsecutiveGroupsOf32 : ∃ t, initializeBlocks twoBlocks two = .next t ∧
    (t.warps[1]?).map (·.members) = some [⟨1, 0⟩] := ⟨_, rfl, by decide⟩

theorem witness_RegisterFileHostOperations : Table.get? two.rf 9 = none ∧
    Table.get? two.rf 1 ≠ none := by decide

theorem witness_DirectPathReadsAndWritesOneWord : two.cfg.memWords ≤ 1024 ∧ 1023 < two.cfg.memWords := by
  decide

theorem witness_StatisticsReportTheCounters : State.reset.cache.hits + State.reset.cache.misses = 0 ∧
    isComplete State.reset = true := by decide

end Sys2Proof.Tests
end

section
/-! The register file as the host sees it: reads, writes, clears and allocation (R16 to R19). -/

namespace Sys2Proof.Machine

variable (s : State) (tid : Nat)

/-! ### Reads -/

theorem registerRead_of_lt {i : Nat} (h : i < 16) : registerRead s tid i = readReg s tid ⟨i, h⟩ :=
  dif_pos h

theorem registerRead_of_ge {i : Nat} (h : 16 ≤ i) : registerRead s tid i = 0 :=
  dif_neg (Nat.not_lt.2 h)

/-- A read depends on the thread's bank only. -/
theorem registerRead_congr {s t : State} {tid : Nat} (h : bankOf t.rf tid = bankOf s.rf tid) (i : Nat) :
    registerRead t tid i = registerRead s tid i := by
  unfold registerRead readReg
  rw [h]

/-- A thread without registers reads 0 everywhere (R17). -/
theorem registerRead_of_unallocated {s : State} {tid : Nat} (h : Table.get? s.rf tid = none) (i : Nat) :
    registerRead s tid i = 0 := by
  have hbank : bankOf s.rf tid = zeroBank := by simp [bankOf, h]
  rcases Nat.lt_or_ge i 16 with hi | hi
  · simp [registerRead_of_lt s tid hi, readReg, hbank, zeroBank]
  · exact registerRead_of_ge s tid hi

/-- The snapshot holds what the reads return (R19). -/
theorem getRegisters_getElem {i : Nat} (h : i < 16) :
    (getRegisters s tid)[i] = registerRead s tid i := (registerRead_of_lt s tid h).symm

/-! ### Writes -/

theorem registerWrite_of_lt {i : Nat} (h : i < 16) (v : Word) :
    registerWrite s tid i v = writeReg s tid ⟨i, h⟩ v := dif_pos h

theorem registerWrite_of_ge {i : Nat} (h : 16 ≤ i) (v : Word) : registerWrite s tid i v = s :=
  dif_neg (Nat.not_lt.2 h)

/-- A write with a register's index is read back and changes no other register (R18). -/
theorem registerRead_registerWrite {i : Nat} (hi : i < 16) (tid' j : Nat) (v : Word) :
    registerRead (registerWrite s tid i v) tid' j =
      if tid' = tid ∧ j = i then v else registerRead s tid' j := by
  rw [registerWrite_of_lt s tid hi]
  rcases Nat.lt_or_ge j 16 with hj | hj
  · rw [registerRead_of_lt _ _ hj, registerRead_of_lt _ _ hj, readReg_writeReg]
    simp only [Fin.mk.injEq]
  · rw [registerRead_of_ge _ _ hj, registerRead_of_ge _ _ hj, if_neg]
    rintro ⟨-, rfl⟩
    omega

/-! ### Clearing -/

theorem get?_clearThread_self : Table.get? (clearThread s tid).rf tid = none := by
  simp [clearThread, Table.get?_del]

/-- Clearing a thread leaves every other thread's bank (R19). -/
theorem bankOf_clearThread_of_ne {tid' : Nat} (h : tid' ≠ tid) :
    bankOf (clearThread s tid).rf tid' = bankOf s.rf tid' := by
  simp [clearThread, bankOf, Table.get?_del, h]

/-! ### Allocation -/

theorem initializeThread_of_allocated {s : State} {tid : Nat} (h : Table.get? s.rf tid ≠ none) :
    initializeThread s tid = s := by
  unfold initializeThread
  split
  · rfl
  · exact absurd ‹_› h

theorem get?_initializeThread_of_unallocated {s : State} {tid : Nat} (h : Table.get? s.rf tid = none) :
    Table.get? (initializeThread s tid).rf tid = some zeroBank := by
  unfold initializeThread
  simp [h]

/-- A thread has registers after its allocation (R16). -/
theorem get?_initializeThread_ne_none : Table.get? (initializeThread s tid).rf tid ≠ none := by
  by_cases h : Table.get? s.rf tid = none
  · simp [get?_initializeThread_of_unallocated h]
  · rwa [initializeThread_of_allocated h]

end Sys2Proof.Machine

namespace Sys2Proof.Proofs
open Sys2Proof.Machine

/-- Settles O58, from the rule of each operation of the register file. -/
theorem registerFileHostOperations : Obligations.RegisterFileHostOperations := by
  intro s tid
  refine ⟨fun i => registerRead_of_ge s tid, fun h i => registerRead_of_unallocated h i,
    fun i v h => registerWrite_of_ge s tid h v,
    fun tid' i j v hi => registerRead_registerWrite s tid hi tid' j v,
    fun i => getRegisters_getElem s tid,
    fun i => registerRead_of_unallocated (get?_clearThread_self s tid) i,
    fun tid' i h => registerRead_congr (bankOf_clearThread_of_ne s tid h) i,
    fun tid' i => registerRead_of_unallocated (s := clearAll s) rfl i,
    initializeThread_of_allocated, get?_initializeThread_of_unallocated,
    initializeThread_of_allocated (get?_initializeThread_ne_none s tid)⟩

end Sys2Proof.Proofs
end

section
/-! What an instruction leaves unchanged (R18, R33, R37, R38, R70). -/

namespace Sys2Proof.Machine

/-- The register file after an instruction: unchanged, or its destination register written (R18). -/
theorem exec_rf_destination {i : Instr} {s t : State} (h : exec i s = .next t) :
    t.rf = s.rf ∨ ∃ rd v, destination? i = some rd ∧ t.rf = (writeX s rd v).rf := by
  have written : ∀ rd v, destination? i = some rd →
      (Host.Outcome.next (advance (writeX s rd v)) : Result) = .next t →
      ∃ rd v, destination? i = some rd ∧ t.rf = (writeX s rd v).rf :=
    fun rd v hd h => ⟨rd, v, hd, by rw [← Host.Outcome.next.inj h, advance_rf]⟩
  have branched : ∀ c imm, (Host.Outcome.next (branchIf c imm s) : Result) = .next t → t.rf = s.rf :=
    fun c imm h => by rw [← Host.Outcome.next.inj h, branchIf_eq, setPc_rf]
  have advanced : (Host.Outcome.next (advance s) : Result) = .next t → t.rf = s.rf :=
    fun h => by rw [← Host.Outcome.next.inj h, advance_rf]
  cases i with
  | const rd imm => exact .inr (written rd _ rfl h)
  | add rd rs1 rs2 => exact .inr (written rd _ rfl h)
  | sub rd rs1 rs2 => exact .inr (written rd _ rfl h)
  | mul rd rs1 rs2 => exact .inr (written rd _ rfl h)
  | div rd rs1 rs2 => exact .inr (written rd _ rfl h)
  | and rd rs1 rs2 => exact .inr (written rd _ rfl h)
  | or rd rs1 rs2 => exact .inr (written rd _ rfl h)
  | xor rd rs1 rs2 => exact .inr (written rd _ rfl h)
  | ldr rd rs1 imm =>
    refine .inr ⟨rd, (cacheRead s (effectiveAddress (x s rs1) imm)).data, rfl, ?_⟩
    rw [← Host.Outcome.next.inj h]
    simp only [advance_rf, enqueue_rf, writeX_rf]
    rw [cacheRead_eq]
  | str rd rs1 imm =>
    left
    rw [← Host.Outcome.next.inj h]
    simp only [advance_rf, enqueue_rf]
    rw [cacheWrite_eq]
  | br imm => exact .inl (branched _ _ h)
  | brz rs1 imm => exact .inl (branched _ _ h)
  | brnz rs1 imm => exact .inl (branched _ _ h)
  | brn rs1 imm => exact .inl (branched _ _ h)
  | brp rs1 imm => exact .inl (branched _ _ h)
  | cmp rs1 rs2 => exact .inl (advanced ((execCmp_eq rs1 rs2 s).symm.trans h))
  | ret => exact .inl (by rw [← Host.Outcome.next.inj h, deactivate_rf])
  | nop => exact .inl (advanced h)
  | nopU12 => exact .inl (advanced h)
  | nopU14 => exact .inl (advanced h)
  | nopU18 => exact .inl (advanced h)
  | nopU20 => exact .inl (advanced h)
  | nopU40 => exact .inl (advanced h)
  | nopU80 => exact .inl (advanced h)

/-- A read depends on the register file only. -/
theorem readReg_congr {s t : State} (h : t.rf = s.rf) (tid : Nat) (r : RegIdx) :
    readReg t tid r = readReg s tid r := by
  unfold readReg
  rw [h]

/-- No register changes but the destination of the executing thread (R18). -/
theorem exec_readReg_of_not_destination {i : Instr} {s t : State} (h : exec i s = .next t) {tid : Nat}
    {r : RegIdx} (hr : ¬(tid = s.ctx.threadId ∧ destination? i = some r)) :
    readReg t tid r = readReg s tid r := by
  rcases exec_rf_destination h with he | ⟨rd, v, hd, he⟩
  · exact readReg_congr he tid r
  · calc readReg t tid r = readReg (writeReg s s.ctx.threadId rd v) tid r := readReg_congr he tid r
      _ = readReg s tid r := by
        rw [readReg_writeReg, if_neg]
        rintro ⟨rfl, rfl⟩
        exact hr ⟨rfl, hd⟩

/-- Only a load or a store changes global memory, the cache or the queue (R37). -/
theorem exec_sameMemory {i : Instr} {s t : State} (h : exec i s = .next t)
    (hi : accessesMemory i = false) : SameMemory s t := by
  rcases exec_cases h with ⟨pc, rfl⟩ | rfl | ⟨rd, v, rfl⟩ | ⟨rd, rs1, imm, rfl, -⟩ | ⟨rd, rs1, imm, rfl, -⟩
  · exact ⟨rfl, rfl, rfl⟩
  · exact ⟨rfl, rfl, rfl⟩
  · exact ⟨rfl, rfl, rfl⟩
  · cases hi
  · cases hi

end Sys2Proof.Machine

namespace Sys2Proof.Proofs
open Sys2Proof.Machine

/-- Settles O22, from the frames of registers, of memory and of the engine. -/
theorem instructionsChangeOnlyTheirDestination :
    Obligations.InstructionsChangeOnlyTheirDestination := fun _ _ _ h =>
  ⟨fun _ _ => exec_readReg_of_not_destination h, exec_sameMemory h, exec_sameEngine h⟩

end Sys2Proof.Proofs
end

section
/-! What every step keeps of the program, the parameters, global memory and the inactive threads
(R23, R31, R33, R38, R70): the induction over a step, then one lemma for a lane for each. -/

namespace Sys2Proof.Machine

/-- The induction over a step: what the choice of a warp, every lane and the end of the cycle keep, the
step keeps (R91). -/
theorem step_induction {P : State → Prop} (hpick : ∀ u, P u → P (getNextWarp u).state)
    (hlane : ∀ u v l, stepLane u l = .next v → P u → P v) (hend : ∀ u k, P u → P (endCycle u k))
    {s t : State} (h : step s = .next t) (hs : P s) : P t := by
  rcases executeCycle_cases h with rfl | ⟨k, u, -, -, hu, rfl⟩
  · exact hs
  · exact hend u k (runLanes_induction (fun l _ v w => hlane v w l) hu (hpick s hs))

/-- No step changes the program or a parameter (R33, R38, R70). -/
theorem step_imem_cfg_maxCycles {s t : State} (h : step s = .next t) :
    t.imem = s.imem ∧ t.cfg = s.cfg ∧ t.maxCycles = s.maxCycles := by
  refine step_induction (P := fun u => u.imem = s.imem ∧ u.cfg = s.cfg ∧ u.maxCycles = s.maxCycles)
    (fun u hu => ?_) (fun u v l hv hu => ?_) (fun u k hu => hu) h ⟨rfl, rfl, rfl⟩
  · rw [getNextWarp_eq]
    exact hu
  · have hc := stepLane_sameControl hv
    rwa [hc.imem, hc.cfg, hc.maxCycles]

/-- A lane does not change an inactive thread, its own or another one's (R92). -/
theorem stepLane_threadAt?_of_inactive {s t : State} {l : Lane} {r : ThreadRef} {th : Thread}
    (h : stepLane s l = .next t) (hr : threadAt? s r = some th) (ha : th.active = false) :
    threadAt? t r = some th := by
  by_cases hrl : r = l.place
  · have hskip : threadActive s l.place = false := by simp [threadActive, ← hrl, hr, ha]
    rwa [← Host.Outcome.next.inj ((stepLane_of_not_active hskip).symm.trans h)]
  · rwa [stepLane_threadAt?_of_ne h hrl]

/-- A step does not change an inactive thread (R23). -/
theorem step_threadAt?_of_inactive {s t : State} {r : ThreadRef} {th : Thread} (h : step s = .next t)
    (hr : threadAt? s r = some th) (ha : th.active = false) : threadAt? t r = some th := by
  refine step_induction (P := fun u => threadAt? u r = some th) (fun u hu => ?_)
    (fun u v l hv hu => stepLane_threadAt?_of_inactive hv hu ha) (fun u k hu => hu) h hr
  rw [getNextWarp_eq]
  exact hu

/-- A lane keeps the canonical form of memory. -/
theorem stepLane_memoryInv {s t : State} {l : Lane} (h : stepLane s l = .next t) (hm : MemoryInv s) :
    MemoryInv t := by
  rcases stepLane_cases h with ⟨rfl, -⟩ | ⟨th, -, -, -, rfl⟩ | ⟨th, w, u, -, -, -, hu, rfl⟩
  · exact hm
  · exact hm
  · exact exec_memoryInv (s := enterThread s th) (t := u) hu hm

/-- The end of a cycle keeps the canonical form of memory. -/
theorem MemoryInv.endCycle {s : State} (h : MemoryInv s) (k : Nat) : MemoryInv (endCycle s k) :=
  h.processRequests.settleStores s.mcQueue

/-- A step keeps the canonical form of memory (R31, R39). -/
theorem step_memoryInv {s t : State} (h : step s = .next t) (hm : MemoryInv s) : MemoryInv t := by
  refine step_induction (P := MemoryInv) (fun u hu => ?_) (fun u v l => stepLane_memoryInv)
    (fun u k hu => hu.endCycle k) h hm
  rw [getNextWarp_eq]
  exact hu

end Sys2Proof.Machine

namespace Sys2Proof.Proofs
open Sys2Proof.Machine

/-- Settles O39, by the induction over a step. -/
theorem stepKeepsProgramAndConfiguration : Obligations.StepKeepsProgramAndConfiguration :=
  fun _ _ => step_imem_cfg_maxCycles

/-- Settles O40, by the induction over a step: a lane skips an inactive thread. -/
theorem inactiveThreadsStayUnchanged : Obligations.InactiveThreadsStayUnchanged :=
  fun _ _ _ _ => step_threadAt?_of_inactive

/-- Settles O48, by the induction over a step. -/
theorem stepKeepsMemoryCanonical : Obligations.StepKeepsMemoryCanonical :=
  fun _ _ hm h => step_memoryInv h hm

end Sys2Proof.Proofs
end

section
/-! What every step keeps of the threads: their ids and blocks, and the snapshots of their registers
(R20, R24). -/

namespace Sys2Proof.Machine

/-! ### Identities -/

/-- An update of a thread that keeps the thread's id and its block's id (R20). -/
def KeepsIdentity (f : Thread → Thread) : Prop :=
  ∀ th, (f th).threadId = th.threadId ∧ (f th).blockId = th.blockId

/-- What leaving a thread writes back to it: the PC and the active flag of the context, and its bank as
the snapshot (R24, R94). -/
def writeBackThread (c : ExecContext) (regs : RegBank) (th : Thread) : Thread :=
  { th with pc := c.pc, active := c.active, regs := regs }

theorem leaveThread_blocks (s : State) (r : ThreadRef) :
    (leaveThread s r).blocks =
      (updateThread s r (writeBackThread s.ctx (bankOf s.rf s.ctx.threadId))).blocks := rfl

theorem updateThread_id (s : State) (r : ThreadRef) : updateThread s r id = s := by
  have hblock : (fun b : Block => { b with threads := b.threads.modify r.thread id }) = id := by
    funext b
    rw [List.modify_id]
    rfl
  unfold updateThread
  rw [hblock, List.modify_id]

theorem updateThread_blocks_congr {s t : State} (h : t.blocks = s.blocks) (r : ThreadRef)
    (f : Thread → Thread) : (updateThread t r f).blocks = (updateThread s r f).blocks := by
  unfold updateThread
  rw [h]

theorem threadAt?_congr {s t : State} (h : t.blocks = s.blocks) (r : ThreadRef) :
    threadAt? t r = threadAt? s r := by
  unfold threadAt?
  rw [h]

theorem allThreads_congr {s t : State} (h : t.blocks = s.blocks) : allThreads t = allThreads s := by
  unfold allThreads
  rw [h]

/-! ### The threads after a lane -/

/-- All that a lane does to the threads is an update of its own one, which keeps its identity and
leaves its snapshot in sync if it was (R20, R24). -/
theorem stepLane_blocks {s t : State} {l : Lane} (h : stepLane s l = .next t) :
    ∃ f, KeepsIdentity f ∧ t.blocks = (updateThread s l.place f).blocks ∧
      ∀ th, threadAt? s l.place = some th → th.regs = bankOf s.rf th.threadId →
        (f th).regs = bankOf t.rf th.threadId := by
  rcases stepLane_cases h with ⟨rfl, -⟩ | ⟨_, -, -, -, rfl⟩ | ⟨th, w, u, hth, -, -, hu, rfl⟩
  · exact ⟨id, fun _ => ⟨rfl, rfl⟩, by rw [updateThread_id], fun _ _ hs => hs⟩
  · exact ⟨fun th => { th with active := false }, fun _ => ⟨rfl, rfl⟩, rfl, fun _ _ hs => hs⟩
  · have hblocks : (settleLoad (decode s.cfg.opcodeMap w) l.openWords u).blocks = s.blocks :=
      (exec_sameEngine hu).blocks
    have hid : u.ctx.threadId = th.threadId := (exec_ctx hu).1
    refine ⟨writeBackThread u.ctx _, fun _ => ⟨rfl, rfl⟩,
      (leaveThread_blocks _ _).trans (updateThread_blocks_congr hblocks _ _), fun th' hth' _ => ?_⟩
    obtain rfl := Option.some.inj (hth.symm.trans hth')
    simp only [writeBackThread, settleLoad_ctx, leaveThread_rf, hid]

/-- A lane keeps the ids of all threads, in order. -/
theorem stepLane_threadIds {s t : State} {l : Lane} (h : stepLane s l = .next t) :
    (allThreads t).map (·.threadId) = (allThreads s).map (·.threadId) := by
  obtain ⟨f, hf, he, -⟩ := stepLane_blocks h
  rw [allThreads_congr he, allThreads_updateThread_ids s l.place f fun th => (hf th).1]

/-- A lane leaves a thread where one stood. -/
theorem stepLane_threadAt?_isSome {s t : State} {l : Lane} (h : stepLane s l = .next t) {r : ThreadRef}
    (hr : (threadAt? s r).isSome) : (threadAt? t r).isSome := by
  obtain ⟨f, -, he, -⟩ := stepLane_blocks h
  rw [threadAt?_congr he, threadAt?_updateThread]
  split_ifs with hrl
  · rwa [Option.isSome_map, ← hrl]
  · exact hr

/-- The lane's own thread has its snapshot in sync after the lane, if it had before (R24). -/
theorem stepLane_own_snapshot {s t : State} {l : Lane} (h : stepLane s l = .next t)
    (hs : ∀ th, threadAt? s l.place = some th → th.regs = bankOf s.rf th.threadId) {th' : Thread}
    (ht : threadAt? t l.place = some th') : th'.regs = bankOf t.rf th'.threadId := by
  obtain ⟨f, hf, he, hsync⟩ := stepLane_blocks h
  rw [threadAt?_congr he, threadAt?_updateThread, if_pos rfl] at ht
  obtain ⟨th, hth, rfl⟩ := Option.map_eq_some_iff.1 ht
  rw [(hf th).1]
  exact hsync th hth (hs th hth)

/-- A lane does not change the bank of a thread at another place (R18, R95). -/
theorem stepLane_bankOf_of_ne {s t : State} {l : Lane} (h : stepLane s l = .next t) (hu : UniqueIds s)
    {q : ThreadRef} {th : Thread} (hq : threadAt? s q = some th) (hne : q ≠ l.place) :
    bankOf t.rf th.threadId = bankOf s.rf th.threadId := by
  rcases stepLane_rf h with he | ⟨th₀, b, h₀, hbank⟩
  · rw [he]
  · rw [hbank, if_neg fun he => hne (hu.place_eq hq h₀ he)]

/-- A lane keeps the snapshots in sync and the thread ids unique (R20, R24). -/
theorem stepLane_snapshotInv {s t : State} {l : Lane} (h : stepLane s l = .next t)
    (hs : SnapshotInv s) : SnapshotInv t := by
  obtain ⟨hunique, hsync⟩ := hs
  have hat : ∀ {q th}, threadAt? s q = some th → th.regs = bankOf s.rf th.threadId :=
    fun hq => hsync _ (mem_allThreads.2 ⟨_, hq⟩)
  refine ⟨(congrArg List.Nodup (stepLane_threadIds h)).mpr hunique, fun th' hmem => ?_⟩
  obtain ⟨q, hq⟩ := mem_allThreads.1 hmem
  by_cases hql : q = l.place
  · subst hql
    exact stepLane_own_snapshot h (fun _ => hat) hq
  · rw [stepLane_threadAt?_of_ne h hql] at hq
    rw [stepLane_bankOf_of_ne h hunique hq hql]
    exact hat hq

/-- A step keeps the snapshots in sync and the thread ids unique (R20, R24). -/
theorem step_snapshotInv {s t : State} (h : step s = .next t) (hs : SnapshotInv s) : SnapshotInv t := by
  refine step_induction (P := SnapshotInv) (fun u hu => ?_) (fun u v l => stepLane_snapshotInv)
    (fun u k hu => hu) h hs
  rw [getNextWarp_eq]
  exact hu

end Sys2Proof.Machine

namespace Sys2Proof.Proofs
open Sys2Proof.Machine

/-- Settles O50, by the induction over a step: a lane refreshes the snapshot of its own thread, and
changes the bank of no other one because thread ids are unique. -/
theorem stepKeepsSnapshotsInSync : Obligations.StepKeepsSnapshotsInSync :=
  fun _ _ hs h => step_snapshotInv h hs

end Sys2Proof.Proofs
end

section
/-! What every step keeps of the scheduler, the blocks and the warps (R20, R26, R27). -/

namespace Sys2Proof.Machine

/-! ### The round-robin index -/

/-- The choice of a warp changes the members of none, in order. -/
theorem getNextWarp_map_members (s : State) :
    (getNextWarp s).state.warps.map (·.members) = s.warps.map (·.members) := by
  apply List.ext_getElem?
  intro q
  rw [List.getElem?_map, List.getElem?_map, getNextWarp_members]

/-- The end of a cycle changes the members of no warp, in order. -/
theorem endCycle_map_members (s : State) (k : Nat) :
    (endCycle s k).warps.map (·.members) = s.warps.map (·.members) := by
  apply List.ext_getElem?
  intro q
  rw [List.getElem?_map, List.getElem?_map, endCycle_members]

/-- Warp lists with the same members in order are equally long. -/
theorem warps_length_congr {s t : State} (h : t.warps.map (·.members) = s.warps.map (·.members)) :
    t.warps.length = s.warps.length := by
  simpa only [List.length_map] using congrArg List.length h

/-- The choice of a warp moves `rr` past the picked warp, modulo their number, or keeps it (R89). -/
theorem getNextWarp_rr (s : State) :
    (getNextWarp s).state.rr < s.warps.length ∨ (getNextWarp s).state.rr = s.rr := by
  unfold getNextWarp
  simp only
  split
  · rename_i k hk
    have hlt : k < s.warps.length := (mem_scanOrder s k).1 (List.mem_of_find?_eq_some hk)
    exact .inl (Nat.mod_lt _ (by omega))
  · exact .inr rfl

/-- An index that stays below the number of warps, or stays where it was, stays in range (R27). -/
theorem SchedulerInv.congr {s t : State} (hs : SchedulerInv s) (hlen : t.warps.length = s.warps.length)
    (hrr : t.rr < s.warps.length ∨ t.rr = s.rr) : SchedulerInv t := by
  unfold SchedulerInv
  rw [hlen, ← List.length_eq_zero_iff, hlen]
  rcases hs with hs | ⟨hnil, hzero⟩
  · left
    omega
  · have : s.warps.length = 0 := List.length_eq_zero_iff.2 hnil
    omega

/-- A step keeps the round-robin index in range (R27). -/
theorem step_schedulerInv {s t : State} (h : step s = .next t) (hs : SchedulerInv s) :
    SchedulerInv t := by
  refine step_induction (P := SchedulerInv) (fun u hu => ?_) (fun u v l hv hu => ?_)
    (fun u k hu => ?_) h hs
  · exact hu.congr (warps_length_congr (getNextWarp_map_members u)) (getNextWarp_rr u)
  · have hc := stepLane_sameControl hv
    exact hu.congr (congrArg List.length hc.warps) (.inr hc.rr)
  · exact hu.congr (warps_length_congr (endCycle_map_members u k)) (.inr rfl)

/-! ### Blocks -/

theorem mem_or_eq_of_mem_modify {α : Type} {as : List α} {i : Nat} {f : α → α} {b : α}
    (h : b ∈ as.modify i f) : b ∈ as ∨ ∃ a ∈ as, b = f a := by
  obtain ⟨j, hj⟩ := List.mem_iff_getElem?.1 h
  rw [List.getElem?_modify] at hj
  obtain ⟨a, ha, hab⟩ := Option.map_eq_some_iff.1 hj
  have hmem := List.mem_of_getElem? ha
  by_cases hij : i = j
  · exact .inr ⟨a, hmem, by rw [← hab, if_pos hij]⟩
  · exact .inl (by rwa [← hab, if_neg hij])

/-- An update that keeps a thread's identity keeps the threads with their blocks (R20). -/
theorem OwnershipInv.updateThread {s : State} (hs : OwnershipInv s) (r : ThreadRef)
    {f : Thread → Thread} (hf : KeepsIdentity f) : OwnershipInv (updateThread s r f) := by
  intro b hb th hth
  rcases mem_or_eq_of_mem_modify hb with hb | ⟨b₀, hb₀, rfl⟩
  · exact hs b hb th hth
  · rcases mem_or_eq_of_mem_modify hth with hth | ⟨th₀, hth₀, rfl⟩
    · exact hs b₀ hb₀ th hth
    · exact (hf th₀).2.trans (hs b₀ hb₀ th₀ hth₀)

theorem stepLane_ownershipInv {s t : State} {l : Lane} (h : stepLane s l = .next t)
    (hs : OwnershipInv s) : OwnershipInv t := by
  obtain ⟨f, hf, he, -⟩ := stepLane_blocks h
  unfold OwnershipInv
  rw [he]
  exact hs.updateThread l.place hf

/-- A step keeps the threads with their blocks (R20). -/
theorem step_ownershipInv {s t : State} (h : step s = .next t) (hs : OwnershipInv s) :
    OwnershipInv t := by
  refine step_induction (P := OwnershipInv) (fun u hu => ?_) (fun u v l => stepLane_ownershipInv)
    (fun u k hu => hu) h hs
  rw [getNextWarp_eq]
  exact hu

/-! ### Warps -/

/-- The warps stay well formed where their members stay and no thread goes (R26). -/
theorem WarpInv.congr {s t : State} (hs : WarpInv s)
    (hw : t.warps.map (·.members) = s.warps.map (·.members))
    (ht : ∀ r, (threadAt? s r).isSome → (threadAt? t r).isSome) : WarpInv t := by
  obtain ⟨hnodup, hwarp⟩ := hs
  refine ⟨?_, fun w hwt => ?_⟩
  · rwa [List.flatMap_def, hw, ← List.flatMap_def]
  · obtain ⟨w₀, hw₀, he⟩ : ∃ w₀ ∈ s.warps, w₀.members = w.members :=
      List.mem_map.1 (hw ▸ List.mem_map_of_mem hwt)
    obtain ⟨hpos, hsize, hplace, hblock⟩ := hwarp w₀ hw₀
    rw [he] at hpos hsize hplace hblock
    exact ⟨hpos, hsize, fun r hr => ht r (hplace r hr), hblock⟩

/-- A step keeps the warps well formed (R20, R26). -/
theorem step_warpInv {s t : State} (h : step s = .next t) (hs : WarpInv s) : WarpInv t := by
  refine step_induction (P := WarpInv) (fun u hu => ?_) (fun u v l hv hu => ?_)
    (fun u k hu => ?_) h hs
  · refine hu.congr (getNextWarp_map_members u) fun r hr => ?_
    rw [getNextWarp_eq]
    exact hr
  · exact hu.congr (by rw [(stepLane_sameControl hv).warps]) fun r => stepLane_threadAt?_isSome hv
  · exact hu.congr (endCycle_map_members u k) fun r hr => hr

end Sys2Proof.Machine

namespace Sys2Proof.Proofs
open Sys2Proof.Machine

/-- Settles O51, by the induction over a step for each of the three parts. -/
theorem stepKeepsSchedulerAndWarps : Obligations.StepKeepsSchedulerAndWarps :=
  fun _ _ hs ho hw h => ⟨step_schedulerInv h hs, step_ownershipInv h ho, step_warpInv h hw⟩

end Sys2Proof.Proofs
end

section
/-! The whole invariant: at power-on, and kept by every step. Within a cycle the queue is not empty;
what holds there in its place is that every queued store agrees with memory (R52, R56, R58). -/

namespace Sys2Proof.Machine

/-! ### Coherence -/

/-- Memory canonical, the cache coherent, and the queued stores in agreement with memory: what holds
between the lanes of a cycle, too. -/
structure CoherentInv (s : State) : Prop where
  memory : MemoryInv s
  cache : CacheInv s
  queue : QueueAgrees s

theorem queueAgrees_of_empty {s : State} (h : s.mcQueue = []) : QueueAgrees s := by
  intro a _ v hv
  rw [h] at hv
  cases hv

/-- The choice of a warp keeps memory, cache and queue. -/
theorem CoherentInv.getNextWarp {s : State} (h : CoherentInv s) : CoherentInv (getNextWarp s).state := by
  rw [getNextWarp_eq]
  exact ⟨h.memory, h.cache, h.queue⟩

/-- A lane keeps the cache coherent and the queue in agreement with memory (R52, R56). -/
theorem stepLane_coherentInv {s t : State} {l : Lane} (h : stepLane s l = .next t)
    (hs : CoherentInv s) : CoherentInv t := by
  have hm := stepLane_memoryInv h hs.memory
  rcases stepLane_cases h with ⟨rfl, -⟩ | ⟨th, -, -, -, rfl⟩ | ⟨th, w, u, -, -, -, hu, rfl⟩
  · exact hs
  · exact ⟨hm, hs.cache, hs.queue⟩
  · obtain ⟨hcache, hqueue⟩ := exec_coherent (s := enterThread s th) hu hs.memory hs.cache hs.queue
    exact ⟨hm, hcache, hqueue⟩

/-- The drain commits nothing new, so it keeps the cache coherent (R58). -/
theorem CoherentInv.processRequests_cache {s : State} (h : CoherentInv s) :
    CacheInv (processRequests s) := by
  unfold CacheInv globalRead
  rw [processRequests_mem_of_agrees h.memory h.queue]
  exact h.cache

/-- The end of a cycle keeps the cache coherent: the drain commits nothing new, and the racing stores
are settled in memory and cache together (R58, R66, R67). -/
theorem CoherentInv.endCycle {s : State} (h : CoherentInv s) (k : Nat) : CoherentInv (endCycle s k) :=
  ⟨h.memory.endCycle k, h.processRequests_cache.settleStores s.mcQueue, queueAgrees_of_empty rfl⟩

theorem step_coherentInv {s t : State} (h : step s = .next t) (hs : CoherentInv s) : CoherentInv t :=
  step_induction (fun _ => CoherentInv.getNextWarp) (fun _ _ _ => stepLane_coherentInv)
    (fun _ k hu => hu.endCycle k) h hs

/-! ### Between cycles -/

/-- A lane leaves no thread being stepped (R94). -/
theorem stepLane_ctx_idle {s t : State} {l : Lane} (h : stepLane s l = .next t)
    (hs : s.ctx = ExecContext.idle) : t.ctx = ExecContext.idle := by
  rcases stepLane_cases h with ⟨rfl, -⟩ | ⟨th, -, -, -, rfl⟩ | ⟨th, w, u, -, -, -, -, rfl⟩
  · exact hs
  · exact hs
  · rfl

/-- A step leaves the queue empty and no thread being stepped (R30). -/
theorem step_quietInv {s t : State} (h : step s = .next t) (hs : QuietInv s) : QuietInv t := by
  obtain ⟨hqueue, hctx⟩ := hs
  constructor
  · rcases executeCycle_cases h with rfl | ⟨k, u, -, -, -, rfl⟩
    · exact hqueue
    · rfl
  · refine step_induction (P := fun u => u.ctx = ExecContext.idle) (fun u hu => ?_)
      (fun u v l => stepLane_ctx_idle) (fun u k hu => hu) h hctx
    rw [getNextWarp_eq]
    exact hu

/-- A lane keeps the register file's canonical form. -/
theorem stepLane_sorted_rf {s t : State} {l : Lane} (h : stepLane s l = .next t)
    (hs : Table.Sorted s.rf) : Table.Sorted t.rf := by
  rcases stepLane_cases h with ⟨rfl, -⟩ | ⟨th, -, -, -, rfl⟩ | ⟨th, w, u, -, -, -, hu, rfl⟩
  · exact hs
  · exact hs
  · have hsu : Table.Sorted u.rf := by
      rcases exec_rf hu with he | ⟨b, he⟩
      · rwa [he]
      · exact he ▸ Table.sorted_put _ b hs
    rw [leaveThread_rf]
    rcases settleLoad_rf (decode s.cfg.opcodeMap w) l.openWords u with he | ⟨b, he⟩
    · rwa [he]
    · exact he ▸ Table.sorted_put _ b hsu

theorem step_sorted_rf {s t : State} (h : step s = .next t) (hs : Table.Sorted s.rf) :
    Table.Sorted t.rf := by
  refine step_induction (P := fun u => Table.Sorted u.rf) (fun u hu => ?_)
    (fun u v l => stepLane_sorted_rf) (fun u k hu => hu) h hs
  rw [getNextWarp_eq]
  exact hu

/-! ### The invariant -/

/-- Every step keeps the whole invariant. -/
theorem step_inv {s t : State} (h : step s = .next t) (hs : Inv s) : Inv t := by
  obtain ⟨hcfg, himem, hrf, hmem, hcache, hquiet, hsched, hsnap, hown, hwarp⟩ := hs
  obtain ⟨eimem, ecfg, -⟩ := step_imem_cfg_maxCycles h
  have hcoherent := step_coherentInv h ⟨hmem, hcache, queueAgrees_of_empty hquiet.1⟩
  exact ⟨ecfg ▸ hcfg, eimem ▸ himem, step_sorted_rf h hrf, hcoherent.memory, hcoherent.cache,
    step_quietInv h hquiet, step_schedulerInv h hsched, step_snapshotInv h hsnap,
    step_ownershipInv h hown, step_warpInv h hwarp⟩

/-- Power-on meets the invariant under every well-formed configuration: all tables and lists are empty
(R36, R141). -/
theorem State.powerOn_inv {cfg : Config} (h : cfg.wf = true) (maxCycles : Nat) :
    Inv (State.powerOn cfg maxCycles) :=
  have vacuous {α : Type} {P : α → Prop} : ∀ a ∈ ([] : List α), P a := List.forall_mem_nil P
  ⟨h, Nat.two_pow_pos 32, .nil, ⟨⟨.nil, vacuous⟩, vacuous⟩, ⟨.nil, vacuous⟩, ⟨rfl, rfl⟩,
    .inr ⟨rfl, rfl⟩, ⟨.nil, vacuous⟩, vacuous, .nil, vacuous⟩

end Sys2Proof.Machine

namespace Sys2Proof.Proofs
open Sys2Proof.Machine

/-- Settles O52, from what a step keeps of each part of the invariant. -/
theorem stepKeepsTheInvariant : Obligations.StepKeepsTheInvariant := fun _ _ hs h => step_inv h hs

/-- Settles O47: reset is power-on with the default configuration, which is well formed. -/
theorem resetMeetsTheInvariant : Obligations.ResetMeetsTheInvariant :=
  State.powerOn_inv (by decide) defaultMaxCycles

end Sys2Proof.Proofs
end

section
/-! Coherence at every cycle boundary (R30, R56). -/

namespace Sys2Proof.Proofs
open Sys2Proof.Machine

/-- Settles O49: between cycles the queue is empty, so it agrees with memory; and a step keeps memory,
cache and queue coherent. -/
theorem stepKeepsCacheCoherent : Obligations.StepKeepsCacheCoherent := fun _ _ hm hc hq h =>
  have hcoherent := step_coherentInv h ⟨hm, hc, queueAgrees_of_empty hq.1⟩
  ⟨hcoherent.memory, hcoherent.cache, step_quietInv h hq⟩

end Sys2Proof.Proofs
end

section
/-! The cache: its geometry, and what one access does to counters, lines and memory (R47 to R53, R61). -/

namespace Sys2Proof.Machine

/-! ### Geometry -/

/-- Two addresses have the same tag and index exactly if they lie in the same memory line (R47). -/
theorem cacheTag_cacheIndex_eq_iff (c : Config) (a b : Word) :
    (cacheTag c a = cacheTag c b ∧ cacheIndex c a = cacheIndex c b) ↔
      a.toNat - a.toNat % 4 = b.toNat - b.toNat % 4 := by
  rw [← lineBase_cacheTag c a, ← lineBase_cacheTag c b]
  constructor
  · rintro ⟨htag, hindex⟩
    rw [htag, hindex]
  · exact lineBase_injective c (cacheIndex_lt c a) (cacheIndex_lt c b)

/-! ### Out of range -/

/-- A read out of range does not use the cache (R53). -/
theorem cacheRead_of_ge {s : State} {a : Word} (h : s.cfg.memWords ≤ a.toNat) :
    cacheRead s a = { data := 0, hit := false, state := s } :=
  if_neg fun ha => Nat.not_lt.2 h ((inRange_iff s a).1 ha)

/-- A write out of range is dropped (R53). -/
theorem cacheWrite_of_ge {s : State} {a : Word} (h : s.cfg.memWords ≤ a.toNat) (v : Word) :
    cacheWrite s a v = { hit := false, state := s } :=
  if_neg fun ha => Nat.not_lt.2 h ((inRange_iff s a).1 ha)

theorem globalWrite_of_ge {s : State} {a : Nat} (h : s.cfg.memWords ≤ a) (v : Word) :
    globalWrite s a v = s := by
  unfold globalWrite Memory.store
  rw [if_neg (Nat.not_lt.2 h)]

/-! ### In range -/

theorem cacheRead_of_lt {s : State} {a : Word} (h : a.toNat < s.cfg.memWords) :
    cacheRead s a =
      { data := (makeResident s a).line.data[(cacheOffset a).val], hit := (makeResident s a).hit,
        state := (makeResident s a).state } :=
  if_pos ((inRange_iff s a).2 h)

/-- The line that a write leaves (R52). -/
def writtenLine (l : Line) (a v : Word) : Line :=
  { l with dirty := true, data := l.data.set (cacheOffset a).val v }

theorem cacheWrite_of_lt {s : State} {a : Word} (h : a.toNat < s.cfg.memWords) (v : Word) :
    cacheWrite s a v =
      { hit := (makeResident s a).hit,
        state := globalWrite (setLine (makeResident s a).state (cacheIndex s.cfg a)
          (writtenLine (makeResident s a).line a v)) a.toNat v } :=
  if_pos ((inRange_iff s a).2 h)

/-! ### Hits and misses -/

theorem residentLine?_eq_some_iff {s : State} {a : Word} {l : Line} :
    residentLine? s a = some l ↔
      lineAt? s (cacheIndex s.cfg a) = some l ∧ l.tag = cacheTag s.cfg a := by
  unfold residentLine?
  cases lineAt? s (cacheIndex s.cfg a) with
  | none => simp
  | some l' =>
    simp only [Option.ite_none_right_eq_some, Option.some.injEq]
    constructor
    · rintro ⟨ht, rfl⟩
      exact ⟨rfl, ht⟩
    · rintro ⟨rfl, ht⟩
      exact ⟨ht, rfl⟩

/-- What a hit does: it counts (R48). -/
theorem makeResident_of_hit {s : State} {a : Word} {l : Line} (h : residentLine? s a = some l) :
    makeResident s a = { state := countHit s, line := l, hit := true } := by
  unfold makeResident
  rw [h]

/-- The state of a miss before its line is filled: counted, and the victim written back (R48, R49). -/
def evictedFor (s : State) (a : Word) : State := evict (countMiss s) (cacheIndex s.cfg a)

/-- What a miss does: it counts, writes back the victim and fills the line (R48, R49, R50). -/
theorem makeResident_of_miss {s : State} {a : Word} (h : residentLine? s a = none) :
    makeResident s a =
      { state := setLine (evictedFor s a) (cacheIndex s.cfg a) (filledLine (evictedFor s a) a),
        line := filledLine (evictedFor s a) a, hit := false } := by
  unfold makeResident
  rw [h]
  rfl

/-- The miss touches memory, in its write-back, and the counter of misses before the line is filled. -/
theorem evictedFor_eq (s : State) (a : Word) :
    evictedFor s a = { countMiss s with mem := (evictedFor s a).mem } := evict_eq _ _

theorem evictedFor_cfg (s : State) (a : Word) : (evictedFor s a).cfg = s.cfg := by
  rw [evictedFor_eq]
  rfl

theorem evictedFor_cache (s : State) (a : Word) : (evictedFor s a).cache = (countMiss s).cache := by
  rw [evictedFor_eq]

theorem makeResident_hit (s : State) (a : Word) :
    (makeResident s a).hit = (residentLine? s a).isSome := by
  cases h : residentLine? s a with
  | none => rw [makeResident_of_miss h]; rfl
  | some l => rw [makeResident_of_hit h]; rfl

theorem cacheRead_hit_of_lt {s : State} {a : Word} (h : a.toNat < s.cfg.memWords) :
    (cacheRead s a).hit = (residentLine? s a).isSome := by
  rw [cacheRead_of_lt h]
  exact makeResident_hit s a

/-- An access counts one hit or one miss (R48). -/
theorem makeResident_counters (s : State) (a : Word) :
    (makeResident s a).state.cache.hits =
      s.cache.hits + (if (makeResident s a).hit then 1 else 0) ∧
    (makeResident s a).state.cache.misses =
      s.cache.misses + (if (makeResident s a).hit then 0 else 1) := by
  cases h : residentLine? s a with
  | none =>
    rw [makeResident_of_miss h]
    simp [evictedFor_cache]
  | some l =>
    rw [makeResident_of_hit h]
    simp

/-! ### Write-backs -/

/-- A write-back puts each in-range word of the line at its tag-derived address (R49). -/
theorem globalRead_writeBack_of_word (s : State) (i : Nat) (l : Line) (k : Fin 4)
    (h : lineBase s.cfg l.tag i + k.val < s.cfg.memWords) :
    globalRead (writeBack s i l) (lineBase s.cfg l.tag i + k.val) = l.data[k.val] := by
  unfold writeBack lineOffsets
  simp only [List.foldl_cons, List.foldl_nil, globalRead_globalWrite, globalWrite_cfg, h, and_true]
  fin_cases k <;> simp

/-- A write-back changes no word outside the line (R49). -/
theorem globalRead_writeBack_of_outside (s : State) (i : Nat) (l : Line) {b : Nat}
    (h : ¬(lineBase s.cfg l.tag i ≤ b ∧ b < lineBase s.cfg l.tag i + 4)) :
    globalRead (writeBack s i l) b = globalRead s b := by
  have hne : ∀ k : Fin 4, b ≠ lineBase s.cfg l.tag i + k.val := fun k => by omega
  unfold writeBack lineOffsets
  simp only [List.foldl_cons, List.foldl_nil, globalRead_globalWrite, globalWrite_cfg, hne, false_and,
    if_false]

/-- Every word after a write-back (R49). -/
theorem globalRead_writeBack (s : State) (i : Nat) (l : Line) (b : Nat) :
    globalRead (writeBack s i l) b =
      if h : lineBase s.cfg l.tag i ≤ b ∧ b < lineBase s.cfg l.tag i + 4 ∧ b < s.cfg.memWords then
        l.data[b - lineBase s.cfg l.tag i]'(by omega)
      else globalRead s b := by
  have hcfg : (writeBack s i l).cfg = s.cfg := by rw [writeBack_eq]
  split_ifs with h
  · obtain ⟨hlow, hhigh, hb⟩ := h
    have hk := globalRead_writeBack_of_word s i l ⟨b - lineBase s.cfg l.tag i, by omega⟩
      (by simp only; omega)
    rwa [show lineBase s.cfg l.tag i + (b - lineBase s.cfg l.tag i) = b by omega] at hk
  · by_cases hb : b < s.cfg.memWords
    · exact globalRead_writeBack_of_outside s i l fun hin => h ⟨hin.1, hin.2, hb⟩
    · rw [globalRead_of_ge _ (by rw [hcfg]; omega), globalRead_of_ge _ (by omega)]

theorem evict_of_dirty {s : State} {i : Nat} {l : Line} (hl : lineAt? s i = some l)
    (hd : l.dirty = true) : evict s i = writeBack s i l := by
  unfold evict
  rw [hl]
  exact if_pos hd

/-- Nothing is written back for a clean or invalid line (R49). -/
theorem evict_of_not_dirty {s : State} {i : Nat} (h : ∀ l, lineAt? s i = some l → l.dirty = false) :
    evict s i = s := by
  unfold evict
  split
  · rename_i l hl
    rw [h l hl]
    rfl
  · rfl

end Sys2Proof.Machine

namespace Sys2Proof.Proofs
open Sys2Proof.Machine

/-- Settles O25, from the formulas of tag and base and from the injectivity of the base. -/
theorem cacheGeometryNamesOneMemoryLine : Obligations.CacheGeometryNamesOneMemoryLine := by
  intro c a
  refine ⟨?_, ?_, rfl, fun tag i => ?_, lineBase_cacheTag c a, cacheTag_cacheIndex_eq_iff c a⟩
  · rw [Nat.shiftRight_eq_div_pow]
    rfl
  · rw [Nat.shiftRight_eq_div_pow, cacheTag_toNat]
  · rw [Nat.shiftLeft_eq, Nat.shiftLeft_eq]
    rfl

/-- Settles O26: reads and writes make the line resident alike, and that counts the access. -/
theorem cacheCountsHitsAndMisses : Obligations.CacheCountsHitsAndMisses := by
  intro s a v ha
  refine ⟨?_, ?_, fun c hc => ?_⟩
  · simp only [cacheRead_hit_of_lt ha, Option.isSome_iff_exists, residentLine?_eq_some_iff]
  · rw [cacheRead_of_lt ha, cacheWrite_of_lt ha]
  · rw [cacheRead_of_lt ha, cacheWrite_of_lt ha] at hc
    rw [cacheRead_of_lt ha]
    simp only [List.mem_cons, List.not_mem_nil, or_false] at hc
    rcases hc with rfl | rfl
    · exact makeResident_counters s a
    · exact makeResident_counters s a

/-- Settles O27. -/
theorem outOfRangeAccessBypassesCache : Obligations.OutOfRangeAccessBypassesCache := by
  intro s a v ha
  rw [cacheRead_of_ge ha, cacheWrite_of_ge ha]
  exact ⟨rfl, rfl, rfl, rfl, rfl⟩

/-- Settles O28: a miss is an eviction, whose write-back `globalRead_writeBack` describes, and then
the fill of the one line. -/
theorem missWritesBackVictimAndFillsLine : Obligations.MissWritesBackVictimAndFillsLine := by
  intro s a ha hmiss
  have hnone : residentLine? s a = none := by simpa [cacheRead_hit_of_lt ha] using hmiss
  rw [cacheRead_of_lt ha, makeResident_of_miss hnone]
  refine ⟨fun l hl hd b => ?_, fun hclean => ?_, ⟨filledLine (evictedFor s a) a, ?_, rfl, ?_, ?_, rfl⟩,
    fun j hj => ?_, fun v b => ?_⟩
  · show globalRead (evictedFor s a) b = _
    rw [evictedFor, evict_of_dirty (s := countMiss s) hl hd]
    exact globalRead_writeBack (countMiss s) _ l b
  · show (evictedFor s a).mem = s.mem
    rw [evictedFor, evict_of_not_dirty (s := countMiss s) hclean]
    rfl
  · exact Table.get?_put_self _ _ _
  · rw [filledLine_tag, evictedFor_cfg]
  · exact filledLine_data (evictedFor s a) a
  · show Table.get? (Table.put (evictedFor s a).cache.lines _ _) j = _
    rw [Table.get?_put_of_ne _ _ hj, evictedFor_cache]
    rfl
  · rw [cacheWrite_of_lt ha, makeResident_of_miss hnone, globalRead_globalWrite]
    show (if b = a.toNat ∧ b < (evictedFor s a).cfg.memWords then v else globalRead (evictedFor s a) b) =
      if b = a.toNat then v else globalRead (evictedFor s a) b
    rw [evictedFor_cfg]
    by_cases hb : b = a.toNat
    · simp [hb, ha]
    · simp [hb]

/-- Settles O59: the direct path is one read or write of global memory. -/
theorem directPathReadsAndWritesOneWord : Obligations.DirectPathReadsAndWritesOneWord := by
  intro s a v
  refine ⟨fun ha => ⟨globalRead_of_ge s ha, globalWrite_of_ge ha v⟩, fun ha => ?_, fun b hb => ?_,
    rfl, rfl, rfl, rfl, rfl⟩
  · exact (globalRead_globalWrite s a a v).trans (if_pos ⟨rfl, ha⟩)
  · exact (globalRead_globalWrite s a b v).trans (if_neg fun h => hb h.1)

end Sys2Proof.Proofs
end

section
/-! A load and a store in a coherent state (R52, R56, R63, R115, R116), and the flush (R54). -/

namespace Sys2Proof.Machine

/-! ### The state after a load -/

theorem exec_ldr (rd rs1 : RegIdx) (imm : Word) (s : State) :
    exec (.ldr rd rs1 imm) s = .next (afterLdr rd rs1 imm s) := rfl

/-- A load puts what the cache read returns into its destination (R115). -/
theorem x_afterLdr (rd rs1 : RegIdx) (imm : Word) (s : State) :
    x (afterLdr rd rs1 imm s) rd = (cacheRead s (effectiveAddress (x s rs1) imm)).data :=
  (readReg_writeReg _ _ _ _ _ _).trans (if_pos ⟨rfl, rfl⟩)

theorem afterLdr_cache (rd rs1 : RegIdx) (imm : Word) (s : State) :
    (afterLdr rd rs1 imm s).cache = (cacheRead s (effectiveAddress (x s rs1) imm)).state.cache := rfl

theorem afterLdr_ctx (rd rs1 : RegIdx) (imm : Word) (s : State) :
    (afterLdr rd rs1 imm s).ctx = { s.ctx with pc := s.ctx.pc + 1 } := by
  obtain ⟨m, c, b, he⟩ := afterLdr_eq rd rs1 imm s
  rw [he]

/-- A load in a coherent cache returns the word of memory and keeps memory (R56). -/
theorem afterLdr_of_coherent {s : State} (hm : MemoryInv s) (hc : CacheInv s) (rd rs1 : RegIdx)
    (imm : Word) :
    x (afterLdr rd rs1 imm s) rd = globalRead s (effectiveAddress (x s rs1) imm).toNat ∧
    (afterLdr rd rs1 imm s).mem = s.mem ∧ CacheInv (afterLdr rd rs1 imm s) := by
  obtain ⟨hdata, hmem, hcache⟩ := cacheRead_of_coherent hm hc (effectiveAddress (x s rs1) imm)
  exact ⟨(x_afterLdr rd rs1 imm s).trans hdata, hmem, hcache⟩

/-! ### The state after a store -/

theorem exec_str (rd rs1 : RegIdx) (imm : Word) (s : State) :
    exec (.str rd rs1 imm) s = .next (afterStr rd rs1 imm s) := rfl

theorem afterStr_mem (rd rs1 : RegIdx) (imm : Word) (s : State) :
    (afterStr rd rs1 imm s).mem =
      (cacheWrite s (effectiveAddress (x s rs1) imm) (x s rd)).state.mem := rfl

theorem afterStr_cache (rd rs1 : RegIdx) (imm : Word) (s : State) :
    (afterStr rd rs1 imm s).cache =
      (cacheWrite s (effectiveAddress (x s rs1) imm) (x s rd)).state.cache := rfl

/-- A store moves the PC and writes no register (R116). -/
theorem afterStr_ctx_rf (rd rs1 : RegIdx) (imm : Word) (s : State) :
    (afterStr rd rs1 imm s).ctx = { s.ctx with pc := s.ctx.pc + 1 } ∧
    (afterStr rd rs1 imm s).rf = s.rf := by
  obtain ⟨m, c, he⟩ := afterStr_eq rd rs1 imm s
  rw [he]
  exact ⟨rfl, rfl⟩

/-- A store in a coherent cache changes the one word, dropped out of range, and keeps the cache
coherent (R52, R56). -/
theorem afterStr_of_coherent {s : State} (hm : MemoryInv s) (hc : CacheInv s) (rd rs1 : RegIdx)
    (imm : Word) :
    (∀ b, globalRead (afterStr rd rs1 imm s) b =
      if b = (effectiveAddress (x s rs1) imm).toNat ∧ b < s.cfg.memWords then x s rd
      else globalRead s b) ∧
    CacheInv (afterStr rd rs1 imm s) :=
  cacheWrite_of_coherent hm hc _ _

theorem afterStr_cfg (rd rs1 : RegIdx) (imm : Word) (s : State) :
    (afterStr rd rs1 imm s).cfg = s.cfg := (exec_sameEngine (exec_str rd rs1 imm s)).cfg

/-! ### The line of a write -/

/-- The line that an access makes resident carries the tag of the address (R48, R50). -/
theorem makeResident_line_tag (s : State) (a : Word) :
    (makeResident s a).line.tag = cacheTag s.cfg a := by
  cases h : residentLine? s a with
  | none =>
    rw [makeResident_of_miss h]
    simp only [filledLine_tag, evictedFor_cfg]
  | some l =>
    rw [makeResident_of_hit h]
    exact (residentLine?_eq_some_iff.1 h).2

/-- After an in-range write the line of the address is valid and dirty under its tag (R52). -/
theorem cacheWrite_line {s : State} {a : Word} (h : a.toNat < s.cfg.memWords) (v : Word) :
    ∃ l, lineAt? (cacheWrite s a v).state (cacheIndex s.cfg a) = some l ∧ l.dirty = true ∧
      l.tag = cacheTag s.cfg a := by
  rw [cacheWrite_of_lt h]
  exact ⟨_, Table.get?_put_self _ _ _, rfl, makeResident_line_tag s a⟩

/-- A valid line of a coherent cache under the tag of an address holds the words of its memory line
(R56). -/
theorem CacheInv.line_words {s : State} (hc : CacheInv s) {a : Word} {l : Line}
    (hl : lineAt? s (cacheIndex s.cfg a) = some l) (ht : l.tag = cacheTag s.cfg a) (k : Fin 4) :
    l.data[k.val] = globalRead s (a.toNat - a.toNat % 4 + k.val) :=
  (hc.resident (residentLine?_eq_some_iff.2 ⟨hl, ht⟩)).2 k

/-! ### The flush -/

/-- What the flush does with one line (R54). -/
def flushLine (s : State) (e : Nat × Line) : State := if e.2.dirty then writeBack s e.1 e.2 else s

/-- The flush writes the lines back and cleans them (R54). -/
theorem flush_eq (s : State) :
    flush s = { s.cache.lines.foldl flushLine s with
      cache := { s.cache with lines := s.cache.lines.map fun e => (e.1, { e.2 with dirty := false }) } } :=
  rfl

theorem globalRead_flush (s : State) (b : Nat) :
    globalRead (flush s) b = globalRead (s.cache.lines.foldl flushLine s) b := rfl

theorem flushLine_cfg (s : State) (e : Nat × Line) : (flushLine s e).cfg = s.cfg := by
  unfold flushLine
  split_ifs
  · rw [writeBack_eq]
  · rfl

/-- Flushing lines changes no word outside the dirty ones (R54). -/
theorem globalRead_foldl_flushLine_of_outside {es : List (Nat × Line)} {s : State} {b : Nat}
    (h : ∀ e ∈ es, e.2.dirty = true →
      ¬(lineBase s.cfg e.2.tag e.1 ≤ b ∧ b < lineBase s.cfg e.2.tag e.1 + 4)) :
    globalRead (es.foldl flushLine s) b = globalRead s b := by
  induction es generalizing s with
  | nil => rfl
  | cons e es ih =>
    obtain ⟨he, hes⟩ := List.forall_mem_cons.1 h
    rw [List.foldl_cons, ih (by rwa [flushLine_cfg])]
    unfold flushLine
    split_ifs with hd
    · exact globalRead_writeBack_of_outside s e.1 e.2 (he hd)
    · rfl

/-- Lines at different indices hold no word in common (R47). -/
theorem lineBase_disjoint (c : Config) {t u : Word} {i j b : Nat} (hi : i < c.cacheLines)
    (hj : j < c.cacheLines) (hne : i ≠ j) (hb : lineBase c t i ≤ b ∧ b < lineBase c t i + 4) :
    ¬(lineBase c u j ≤ b ∧ b < lineBase c u j + 4) := by
  intro hb'
  have hti := lineBase_mod_four c t i
  have huj := lineBase_mod_four c u j
  exact hne (lineBase_injective c (t := t) (u := u) hi hj (by omega)).2

/-- Flushing lines at different indices leaves in memory the in-range words of every dirty one
(R54). -/
theorem globalRead_foldl_flushLine_of_word {es : List (Nat × Line)} {s : State}
    (hs : Table.Sorted es) (hi : ∀ e ∈ es, e.1 < s.cfg.cacheLines) {e : Nat × Line} (he : e ∈ es)
    (hd : e.2.dirty = true) (k : Fin 4) (hk : lineBase s.cfg e.2.tag e.1 + k.val < s.cfg.memWords) :
    globalRead (es.foldl flushLine s) (lineBase s.cfg e.2.tag e.1 + k.val) = e.2.data[k.val] := by
  induction es generalizing s with
  | nil => cases he
  | cons f es ih =>
    obtain ⟨hf, hes⟩ := List.pairwise_cons.1 hs
    obtain ⟨hif, hies⟩ := List.forall_mem_cons.1 hi
    rw [List.foldl_cons]
    rcases List.mem_cons.1 he with rfl | he
    · rw [globalRead_foldl_flushLine_of_outside fun g hg _ => ?_]
      · unfold flushLine
        rw [if_pos hd]
        exact globalRead_writeBack_of_word s e.1 e.2 k hk
      · rw [flushLine_cfg]
        exact lineBase_disjoint s.cfg hif (hies g hg) (hf g hg).ne (t := e.2.tag) (by omega)
    · have h := ih (s := flushLine s f) hes (by rwa [flushLine_cfg]) he
      rw [flushLine_cfg] at h
      exact h hk

/-- Flushing lines that agree with memory changes nothing (R54, R56). -/
theorem foldl_flushLine_of_agrees {es : List (Nat × Line)} {s : State} (hm : MemoryInv s)
    (h : ∀ e ∈ es, ∀ k : Fin 4, e.2.data[k.val] = globalRead s (lineBase s.cfg e.2.tag e.1 + k.val)) :
    es.foldl flushLine s = s := by
  induction es with
  | nil => rfl
  | cons e es ih =>
    obtain ⟨he, hes⟩ := List.forall_mem_cons.1 h
    have hline : flushLine s e = s := by
      unfold flushLine
      split_ifs
      · exact writeBack_of_agrees hm e.1 e.2 he
      · rfl
    rw [List.foldl_cons, hline, ih hes]

theorem Table.get?_map_snd {α β : Type} (f : α → β) (t : Table α) (a : Nat) :
    Table.get? (t.map fun e => (e.1, f e.2)) a = (Table.get? t a).map f := by
  induction t with
  | nil => rfl
  | cons e t ih =>
    simp only [List.map_cons, Table.get?, ih]
    split_ifs <;> rfl

end Sys2Proof.Machine

namespace Sys2Proof.Proofs
open Sys2Proof.Machine

/-- Settles O15, from the load's effect in a coherent cache and the frame of every instruction. -/
theorem ldrLoadsTheMemoryWord : Obligations.LdrLoadsTheMemoryWord := by
  intro rd rs1 imm s hm hc
  have hexec := exec_ldr rd rs1 imm s
  obtain ⟨hdata, hmem, hcache⟩ := afterLdr_of_coherent hm hc rd rs1 imm
  refine ⟨_, hexec, hdata, fun hge => ⟨?_, ?_⟩, fun tid r hr => ?_, hmem, hcache,
    afterLdr_ctx rd rs1 imm s, exec_sameEngine hexec⟩
  · rw [hdata, globalRead_of_ge s hge]
  · rw [afterLdr_cache, cacheRead_of_ge hge]
  · refine exec_readReg_of_not_destination hexec ?_
    rintro ⟨rfl, hd⟩
    exact hr.elim (· rfl) (· (Option.some.inj hd).symm)

/-- Settles O17, from the store's effect in a coherent cache; the line of the address holds the words
of memory because the cache stays coherent. -/
theorem strStoresExactlyOneWord : Obligations.StrStoresExactlyOneWord := by
  intro rd rs1 imm s hm hc
  have hexec := exec_str rd rs1 imm s
  have hcfg := afterStr_cfg rd rs1 imm s
  obtain ⟨hread, hcache⟩ := afterStr_of_coherent hm hc rd rs1 imm
  obtain ⟨hctx, hrf⟩ := afterStr_ctx_rf rd rs1 imm s
  refine ⟨_, hexec, fun a ha => ?_, fun hlt => ⟨?_, ?_⟩, fun hge => ?_, exec_memoryInv hexec hm, hcache,
    hrf, hctx, exec_sameEngine hexec⟩
  · rw [hread, if_neg fun h => ha h.1]
  · rw [hread, if_pos ⟨rfl, hlt⟩]
  · obtain ⟨l, hl, hd, ht⟩ := cacheWrite_line hlt (x s rd)
    refine ⟨l, hl, hd, ht, hcache.line_words ?_ ?_⟩
    · rw [hcfg]
      exact hl
    · rw [hcfg]
      exact ht
  · rw [afterStr_mem, afterStr_cache, cacheWrite_of_ge hge]
    exact ⟨rfl, rfl⟩

/-- Settles O29: lines at different indices are disjoint, so no later write-back undoes an earlier
one. -/
theorem flushKeepsMemoryAndCleansLines : Obligations.FlushKeepsMemoryAndCleansLines := by
  refine ⟨fun s hs hi => ⟨fun e he hd k hk => ?_, fun b hb => ?_⟩,
    fun s => ⟨fun i => ?_, rfl, rfl⟩, fun s hm hc => ?_⟩
  · rw [globalRead_flush]
    exact globalRead_foldl_flushLine_of_word hs hi he hd k hk
  · rw [globalRead_flush]
    exact globalRead_foldl_flushLine_of_outside hb
  · exact Table.get?_map_snd (fun l : Line => { l with dirty := false }) s.cache.lines i
  · rw [flush_eq, foldl_flushLine_of_agrees hm fun e he => (hc.2 e he).2.2]

end Sys2Proof.Proofs
end

section
/-! The drain of the request queue (R58 to R62) and the statistics (R55, R139). -/

namespace Sys2Proof.Machine

/-! ### The sort -/

/-- A request goes in front of the requests to its own address and passes only those to lower ones
(D29). -/
theorem filter_insertByAddress (r : MemoryRequest) (q : List MemoryRequest) (a : Nat) :
    (insertByAddress r q).filter (fun e => e.address.toNat == a) =
      (r :: q).filter fun e => e.address.toNat == a := by
  induction q with
  | nil => rfl
  | cons p q ih =>
    unfold insertByAddress
    split_ifs with h
    · rfl
    · rw [List.filter_cons, ih]
      by_cases hr : r.address.toNat = a
      · have hp : p.address.toNat ≠ a := by omega
        simp [hr, hp]
      · simp [hr, List.filter_cons]

/-- The sort is stable: the requests to one address keep their order (R58, D29). -/
theorem filter_sortByAddress (q : List MemoryRequest) (a : Nat) :
    (sortByAddress q).filter (fun e => e.address.toNat == a) =
      q.filter fun e => e.address.toNat == a := by
  induction q with
  | nil => rfl
  | cons r q ih => simp only [sortByAddress, filter_insertByAddress, List.filter_cons, ih]

/-! ### The responses -/

/-- The response to a request comes from the memory that the requests before it leave (R58). -/
theorem serviceRequests_getElem? (n : Nat) (m : Memory) (q : List MemoryRequest) (i : Nat) :
    (serviceRequests n m q).2[i]? =
      (q[i]?).map (responseTo n (serviceRequests n m (q.take i)).1) := by
  induction q generalizing m i with
  | nil => rfl
  | cons r q ih =>
    cases i with
    | zero => rfl
    | succ i => exact ih (commitRequest n m r) i

theorem responseTo_valid (n : Nat) (m : Memory) (r : MemoryRequest) :
    (responseTo n m r).valid = true ↔ r.address.toNat < n := by
  simp [responseTo]

/-- The response to a store carries the stored word (R58). -/
theorem responseTo_data_of_store {r : MemoryRequest} {v : Word} (hw : r.write = true)
    (hd : r.data = some v) (n : Nat) (m : Memory) : (responseTo n m r).data = v := by
  simp [responseTo, hw, hd]

/-- The response to a load carries the word of memory, 0 out of range (R58). -/
theorem responseTo_data_of_load {r : MemoryRequest} (hw : r.write = false) (n : Nat) (m : Memory) :
    (responseTo n m r).data = Memory.load n m r.address.toNat := by
  simp [responseTo, hw]

theorem Memory.load_of_ge {n a : Nat} (m : Memory) (h : n ≤ a) : Memory.load n m a = 0 :=
  if_neg (Nat.not_lt.2 h)

theorem globalRead_processRequests {s : State} {a : Nat} (ha : a < s.cfg.memWords) :
    globalRead (processRequests s) a = (queuedStores s.mcQueue a).getLast?.getD (globalRead s a) := by
  rw [← queuedStores_sortByAddress]
  exact load_serviceRequests s.cfg.memWords s.mem _ a ha

/-! ### The groups of the coalescer -/

/-- Requests that join the current group open none (R59). -/
theorem countGroups_append_of_join {g : Group} {q : List MemoryRequest}
    (h : ∀ e ∈ q, joinsGroup g e = true) (p : List MemoryRequest) :
    countGroups (some g) (q ++ p) = countGroups (some g) p := by
  induction q with
  | nil => rfl
  | cons e q ih =>
    obtain ⟨he, hq⟩ := List.forall_mem_cons.1 h
    rw [List.cons_append, countGroups, if_pos he, ih hq]

/-- A request that does not join the current group opens a new one, as with no current group (R59). -/
theorem countGroups_of_head_not_join {g : Group} {p : List MemoryRequest}
    (h : ∀ e, p.head? = some e → joinsGroup g e = false) :
    countGroups (some g) p = countGroups none p := by
  cases p with
  | nil => rfl
  | cons e p => simp [countGroups, h e rfl]

/-! ### The warps with an active thread -/

theorem warpRunnable_eq (s : State) (k : Nat) :
    warpRunnable s k = (s.warps[k]?).any fun w => w.members.any (threadActive s) := by
  unfold warpRunnable
  cases s.warps[k]? <;> rfl

theorem threadActive_iff (s : State) (r : ThreadRef) :
    threadActive s r = true ↔ ∃ th, threadAt? s r = some th ∧ th.active = true := by
  unfold threadActive
  cases threadAt? s r <;> simp

theorem length_filter_range_getElem? {α : Type} (p : α → Bool) (l : List α) :
    ((List.range l.length).filter fun k => (l[k]?).any p).length = l.countP p := by
  induction l with
  | nil => rfl
  | cons a l ih =>
    rw [List.length_cons, List.range_succ_eq_map, List.filter_cons, List.filter_map, List.countP_cons,
      ← ih]
    by_cases h : p a = true <;> simp [h, Function.comp_def]

/-- The hit rate times the number of accesses is the number of hits (R55). -/
theorem hitRate_mul (hits misses : Nat) :
    hitRate hits misses * ((hits + misses : Nat) : Rat) = (hits : Rat) := by
  unfold hitRate
  split_ifs with h
  · obtain rfl : hits = 0 := by omega
    simp
  · exact div_mul_cancel₀ _ (Nat.cast_ne_zero.2 h)

end Sys2Proof.Machine

namespace Sys2Proof.Proofs
open Sys2Proof.Machine

/-- Settles O30. -/
theorem queueSortIsStable : Obligations.QueueSortIsStable := fun q =>
  ⟨sortByAddress_perm q, sortByAddress_sorted q, filter_sortByAddress q⟩

/-- Settles O31: the commits by the last queued store, the responses by the memory that the requests
before each of them leave. -/
theorem drainCommitsLastQueuedStores : Obligations.DrainCommitsLastQueuedStores := by
  intro s
  refine ⟨fun a => globalRead_processRequests, rfl, rfl, rfl, rfl, serviceRequests_ids _ _ _,
    fun i r hr => ?_⟩
  have hresp := serviceRequests_getElem? s.cfg.memWords s.mem (sortByAddress s.mcQueue) i
  rw [hr] at hresp
  refine ⟨_, hresp, responseTo_valid _ _ r, fun v hw hd => responseTo_data_of_store hw hd _ _,
    fun hw ha => ?_, fun hw ha => ?_⟩
  · rw [responseTo_data_of_load hw, Memory.load_of_ge _ ha]
  · rw [responseTo_data_of_load hw, load_serviceRequests _ _ _ _ ha]
    rfl

/-- Settles O32: the group of the first request takes in the requests that join it, and the next one
opens a new group. -/
theorem coalescerCountsRequestsAndGroups : Obligations.CoalescerCountsRequestsAndGroups := by
  refine ⟨fun s => ⟨?_, rfl⟩, fun r q p hq hp => ?_, rfl⟩
  · rw [processRequests_mcStats, coalesce, sortByAddress_length]
  · have hjoin : ∀ e ∈ q, joinsGroup ⟨r.address.toNat, r.write⟩ e = true := fun e he => by
      obtain ⟨hwrite, -, hnear⟩ := hq e he
      simp [joinsGroup, hwrite, coalesceWindow, hnear]
    have hopen : ∀ e, p.head? = some e → joinsGroup ⟨r.address.toNat, r.write⟩ e = false :=
      fun e he => by
        rcases hp e he with hwrite | hfar
        · simp [joinsGroup, hwrite]
        · have : ¬e.address.toNat - r.address.toNat < 4 := by omega
          simp [joinsGroup, coalesceWindow, this]
    rw [List.cons_append, countGroups, countGroups_append_of_join hjoin,
      countGroups_of_head_not_join hopen]

/-- Settles O60. -/
theorem statisticsReportTheCounters : Obligations.StatisticsReportTheCounters := by
  intro s
  refine ⟨rfl, rfl, rfl, ?_, fun k => ?_, ?_, rfl, rfl, hitRate_mul _ _, fun h => if_pos h⟩
  · simp only [funext (warpRunnable_eq s)]
    exact (length_filter_range_getElem? _ s.warps).symm
  · simp only [warpRunnable_eq, Option.any_eq_true, List.any_eq_true, threadActive_iff]
  · show s.warps.countP _ = 0 ↔ _
    rw [List.countP_eq_zero, isComplete, List.all_eq_true]
    simp only [Bool.not_eq_true, Bool.not_eq_true']

end Sys2Proof.Proofs
end

section
/-! The requests of the lanes and the order in which they are queued (R57, R92, R128, D33). -/

namespace Sys2Proof.Machine

/-! ### The request of an instruction -/

/-- A load, a store, or an instruction that does not access memory (R37). -/
theorem accessesMemory_cases (i : Instr) :
    accessesMemory i = false ∨ (∃ rd rs1 imm, i = .ldr rd rs1 imm) ∨
      ∃ rd rs1 imm, i = .str rd rs1 imm := by
  cases i with
  | ldr rd rs1 imm => exact .inr (.inl ⟨rd, rs1, imm, rfl⟩)
  | str rd rs1 imm => exact .inr (.inr ⟨rd, rs1, imm, rfl⟩)
  | _ => exact .inl rfl

/-- Only a load or a store queues a request (R57). -/
theorem instrRequest?_eq_none {i : Instr} (h : accessesMemory i = false) (s : State) :
    instrRequest? i s = none := by
  cases i with
  | ldr | str => cases h
  | _ => rfl

/-- The request depends on the context and on the executing thread's registers only (R95). -/
theorem instrRequest?_congr {s t : State} (hctx : t.ctx = s.ctx) (hx : ∀ r, x t r = x s r) (i : Instr) :
    instrRequest? i t = instrRequest? i s := by
  rcases accessesMemory_cases i with hi | ⟨rd, rs1, imm, rfl⟩ | ⟨rd, rs1, imm, rfl⟩
  · rw [instrRequest?_eq_none hi, instrRequest?_eq_none hi]
  · simp only [instrRequest?, loadRequest, hctx, hx]
  · simp only [instrRequest?, storeRequest, hctx, hx]

/-- An instruction queues its request behind what the queue holds (R57). -/
theorem exec_mcQueue {i : Instr} {s t : State} (h : exec i s = .next t) :
    t.mcQueue = s.mcQueue ++ (instrRequest? i s).toList := by
  rcases accessesMemory_cases i with hi | ⟨rd, rs1, imm, rfl⟩ | ⟨rd, rs1, imm, rfl⟩
  · rw [instrRequest?_eq_none hi, (exec_sameMemory h hi).mcQueue]
    simp
  · obtain ⟨m, c, b, he⟩ := afterLdr_eq rd rs1 imm s
    rw [← Host.Outcome.next.inj ((exec_ldr rd rs1 imm s).symm.trans h), he]
    rfl
  · obtain ⟨m, c, he⟩ := afterStr_eq rd rs1 imm s
    rw [← Host.Outcome.next.inj ((exec_str rd rs1 imm s).symm.trans h), he]
    rfl

/-! ### The request of a lane -/

theorem laneRequest?_of_not_active {s : State} {r : ThreadRef} (h : threadActive s r = false) :
    laneRequest? s r = none := by
  unfold laneRequest?
  unfold threadActive at h
  cases hth : threadAt? s r with
  | none => rfl
  | some th =>
    rw [hth] at h
    simp only [show th.active = false from h, Bool.false_eq_true, if_false]

section
variable {s : State} {r : ThreadRef} {th : Thread}

theorem laneRequest?_of_no_fetch (hth : threadAt? s r = some th) (hf : fetch? s th.pc = none) :
    laneRequest? s r = none := by
  simp only [laneRequest?, hth, hf, ite_self]

/-- An active lane queues the request of its decoded instruction (R57, R94). -/
theorem laneRequest?_of_fetch (hth : threadAt? s r = some th) (ha : th.active = true) {w : Word}
    (hw : fetch? s th.pc = some w) :
    laneRequest? s r = instrRequest? (decode s.cfg.opcodeMap w) (enterThread s th) := by
  simp only [laneRequest?, hth, ha, hw, if_true]

theorem laneRequest?_of_ldr (hth : threadAt? s r = some th) (ha : th.active = true) {w : Word}
    (hw : fetch? s th.pc = some w) {rd rs1 : RegIdx} {imm : Word}
    (hd : decode s.cfg.opcodeMap w = .ldr rd rs1 imm) :
    laneRequest? s r = some ⟨effectiveAddress (readReg s th.threadId rs1) imm, none, false,
      th.threadId, th.blockId⟩ := by
  rw [laneRequest?_of_fetch hth ha hw, hd]
  rfl

theorem laneRequest?_of_str (hth : threadAt? s r = some th) (ha : th.active = true) {w : Word}
    (hw : fetch? s th.pc = some w) {rd rs1 : RegIdx} {imm : Word}
    (hd : decode s.cfg.opcodeMap w = .str rd rs1 imm) :
    laneRequest? s r = some ⟨effectiveAddress (readReg s th.threadId rs1) imm,
      some (readReg s th.threadId rd), true, th.threadId, th.blockId⟩ := by
  rw [laneRequest?_of_fetch hth ha hw, hd]
  rfl

theorem laneRequest?_of_not_accessesMemory (hth : threadAt? s r = some th) (ha : th.active = true)
    {w : Word} (hw : fetch? s th.pc = some w) (hi : accessesMemory (decode s.cfg.opcodeMap w) = false) :
    laneRequest? s r = none := by
  rw [laneRequest?_of_fetch hth ha hw, instrRequest?_eq_none hi]

end

/-- The request of a lane depends on its thread, that thread's registers, the program and the parameters
only (R95). -/
theorem laneRequest?_congr {s t : State} {r : ThreadRef} (hcfg : t.cfg = s.cfg) (himem : t.imem = s.imem)
    (hth : threadAt? t r = threadAt? s r)
    (hbank : ∀ th, threadAt? s r = some th → bankOf t.rf th.threadId = bankOf s.rf th.threadId) :
    laneRequest? t r = laneRequest? s r := by
  unfold laneRequest?
  rw [hth]
  cases hs : threadAt? s r with
  | none => rfl
  | some th =>
    have hx : ∀ i, x (enterThread t th) i = x (enterThread s th) i := fun i =>
      congrArg (·[i.val]) (hbank th hs)
    simp only [fetch?, himem, hcfg, instrRequest?_congr (s := enterThread s th) (t := enterThread t th) rfl hx]

/-! ### The queue after the lanes -/

/-- A lane queues its request (R57). -/
theorem stepLane_mcQueue {s t : State} {l : Lane} (h : stepLane s l = .next t) :
    t.mcQueue = s.mcQueue ++ (laneRequest? s l.place).toList := by
  rcases stepLane_cases h with ⟨rfl, ha⟩ | ⟨th, hth, -, hf, rfl⟩ | ⟨th, w, u, hth, ha, hw, hu, rfl⟩
  · simp [laneRequest?_of_not_active ha]
  · simp [laneRequest?_of_no_fetch hth hf]
  · rw [laneRequest?_of_fetch hth ha hw]
    exact exec_mcQueue hu

theorem stepLane_uniqueIds {s t : State} {l : Lane} (h : stepLane s l = .next t) (hu : UniqueIds s) :
    UniqueIds t := (congrArg List.Nodup (stepLane_threadIds h)).mpr hu

/-- A lane does not change the request of another one: where ids are unique, it leaves that one's
registers alone (R95). -/
theorem stepLane_laneRequest?_of_ne {s t : State} {l : Lane} (h : stepLane s l = .next t)
    (hu : UniqueIds s) {q : ThreadRef} (hne : q ≠ l.place) : laneRequest? t q = laneRequest? s q :=
  have hc := stepLane_sameControl h
  laneRequest?_congr hc.cfg hc.imem (stepLane_threadAt?_of_ne h hne)
    fun _ hth => stepLane_bankOf_of_ne h hu hth hne

theorem runLanes_cons {l : Lane} {ls : List Lane} {s t : State} (h : runLanes (l :: ls) s = .next t) :
    ∃ u, stepLane s l = .next u ∧ runLanes ls u = .next t := by
  obtain ⟨u, hu⟩ := stepLane_answers_next s l
  rw [runLanes, hu, andThen_next] at h
  exact ⟨u, hu, h⟩

/-- The lanes queue their requests in lane order, races or not (R57, R92, D33). -/
theorem runLanes_mcQueue {ls : List Lane} {s t : State} (h : runLanes ls s = .next t) (hu : UniqueIds s)
    (hnodup : (ls.map (·.place)).Nodup) :
    t.mcQueue = s.mcQueue ++ (ls.map (·.place)).filterMap (laneRequest? s) := by
  induction ls generalizing s with
  | nil => simp [← Host.Outcome.next.inj h]
  | cons l ls ih =>
    obtain ⟨u, hl, hls⟩ := runLanes_cons h
    obtain ⟨hfresh, hrest⟩ := List.nodup_cons.1 hnodup
    have hsame : (ls.map (·.place)).filterMap (laneRequest? u) =
        (ls.map (·.place)).filterMap (laneRequest? s) := by
      refine List.filterMap_congr fun q hq => stepLane_laneRequest?_of_ne hl hu ?_
      rintro rfl
      exact hfresh hq
    rw [ih hls (stepLane_uniqueIds hl hu) hrest, stepLane_mcQueue hl, hsame, List.map_cons,
      List.filterMap_cons]
    cases laneRequest? s l.place <;> simp

/-! ### The cycle -/

/-- A running step runs the lanes of the picked warp and ends the cycle (R91). -/
theorem step_runs_lanes {s t : State} {k : Nat} (hh : halted s = false)
    (hk : (getNextWarp s).warp = some k) (h : step s = .next t) :
    ∃ u, runLanes (planLanes (getNextWarp s).state (membersOf s k)) (getNextWarp s).state = .next u ∧
      t = endCycle u k := by
  obtain ⟨u, hu⟩ := runLanes_answers_next
    (planLanes (getNextWarp s).state (membersOf s k)) (getNextWarp s).state
  unfold step executeCycle at h
  simp only [hh, hk, Bool.false_eq_true, if_false, membersOf_getNextWarp, hu, andThen_next] at h
  exact ⟨u, hu, (Host.Outcome.next.inj h).symm⟩

theorem UniqueIds.getNextWarp {s : State} (h : UniqueIds s) : UniqueIds (getNextWarp s).state := by
  rw [getNextWarp_eq]
  exact h

/-- The queue when the lanes of a cycle have run (R57). -/
theorem runLanes_planLanes_mcQueue {s u : State} {lanes : List ThreadRef} (hu : UniqueIds s)
    (hnodup : lanes.Nodup) (h : runLanes (planLanes s lanes) s = .next u) :
    u.mcQueue = s.mcQueue ++ lanes.filterMap (laneRequest? s) := by
  have hq := runLanes_mcQueue h hu (by rwa [planLanes_places])
  rwa [planLanes_places] at hq

end Sys2Proof.Machine

namespace Sys2Proof.Proofs
open Sys2Proof.Machine

/-- Settles O42, by the induction over the lanes: none of them changes the request of a later one. -/
theorem lanesActAndQueueInAscendingOrder : Obligations.LanesActAndQueueInAscendingOrder := by
  refine ⟨fun s t lanes hu hnodup => runLanes_planLanes_mcQueue hu hnodup,
    fun s t k hu hnodup hh hk hstep => ?_, fun s r th w rd rs1 imm hth ha hw => ⟨?_, ?_, ?_⟩,
    fun s r => laneRequest?_of_not_active⟩
  · obtain ⟨u, hrun, rfl⟩ := step_runs_lanes hh hk hstep
    have hqueue := runLanes_planLanes_mcQueue hu.getNextWarp hnodup hrun
    have hstats := (runLanes_sameControl hrun).mcStats
    rw [laneRequest?_getNextWarp] at hqueue
    rw [getNextWarp_eq] at hqueue hstats
    rw [endCycle_mcStats, processRequests_mcStats, coalesce, hqueue, hstats, sortByAddress_length]
    exact ⟨rfl, rfl⟩
  · exact laneRequest?_of_ldr hth ha hw
  · exact laneRequest?_of_str hth ha hw
  · exact laneRequest?_of_not_accessesMemory hth ha hw

end Sys2Proof.Proofs
end

section
/-! What the stores and loads of a cycle leave in memory and in the registers (R56, R63 to R67). -/

namespace Sys2Proof.Machine

/-! ### The stores of the lanes -/

theorem mem_laneStores {s : State} {lanes : List ThreadRef} {a : Nat} {v : Word} :
    v ∈ laneStores s lanes a ↔ ∃ r ∈ lanes, ∃ q, laneRequest? s r = some q ∧
      q.write = true ∧ q.address.toNat = a ∧ q.data = some v := by
  simp only [laneStores, queuedStores, List.mem_filterMap, Bool.and_eq_true, beq_iff_eq,
    Option.ite_none_right_eq_some]
  constructor
  · rintro ⟨q, ⟨r, hr, hq⟩, ⟨hw, ha⟩, hd⟩
    exact ⟨r, hr, q, hq, hw, ha, hd⟩
  · rintro ⟨r, hr, q, hq, hw, ha, hd⟩
    exact ⟨q, ⟨r, hr, hq⟩, ⟨hw, ha⟩, hd⟩

theorem laneStores_mono {s : State} {lanes lanes' : List ThreadRef} (h : lanes ⊆ lanes') (a : Nat) :
    laneStores s lanes a ⊆ laneStores s lanes' a := fun _ hv =>
  have ⟨r, hr, hq⟩ := mem_laneStores.1 hv
  mem_laneStores.2 ⟨r, h hr, hq⟩

theorem laneStores_getNextWarp (s : State) (lanes : List ThreadRef) (a : Nat) :
    laneStores (getNextWarp s).state lanes a = laneStores s lanes a := by
  unfold laneStores
  rw [laneRequest?_getNextWarp]

/-- What a lane has open for its load is the word before the cycle, or one that another lane stores
(R65). -/
theorem mem_openWords {s : State} {lanes : List ThreadRef} {r : ThreadRef} {q : MemoryRequest} {v : Word}
    (hq : laneRequest? s r = some q) (hv : v ∈ openWords s lanes r) :
    v = (cacheRead s q.address).data ∨
      v ∈ laneStores s (lanes.filter (· != r)) q.address.toNat := by
  unfold openWords at hv
  simp only [hq] at hv
  split_ifs at hv
  · cases hv
  · split at hv
    · cases hv
    · rename_i v₀ vs heq
      rw [heq]
      exact List.mem_cons.1 hv

/-! ### Memory after the lanes -/

/-- An instruction that stores nothing to a word leaves it (R52, R56). -/
theorem exec_globalRead_of_no_store {i : Instr} {s t : State} (h : exec i s = .next t)
    (hs : CoherentInv s) {a : Nat} (ha : queuedStores (instrRequest? i s).toList a = []) :
    globalRead t a = globalRead s a := by
  have hcfg := (exec_sameEngine h).cfg
  rcases accessesMemory_cases i with hi | ⟨rd, rs1, imm, rfl⟩ | ⟨rd, rs1, imm, rfl⟩
  · rw [globalRead, (exec_sameMemory h hi).mem, hcfg]
    rfl
  · obtain rfl := Host.Outcome.next.inj ((exec_ldr rd rs1 imm s).symm.trans h)
    obtain ⟨-, hmem, -⟩ := afterLdr_of_coherent hs.memory hs.cache rd rs1 imm
    rw [globalRead, hmem, hcfg]
    rfl
  · obtain rfl := Host.Outcome.next.inj ((exec_str rd rs1 imm s).symm.trans h)
    obtain ⟨hread, -⟩ := afterStr_of_coherent hs.memory hs.cache rd rs1 imm
    rw [hread, if_neg]
    rintro ⟨rfl, -⟩
    simp [instrRequest?, storeRequest, queuedStores] at ha

/-- A lane that stores nothing to a word leaves it. -/
theorem stepLane_globalRead_of_no_store {s t : State} {l : Lane} (h : stepLane s l = .next t)
    (hs : CoherentInv s) {a : Nat} (ha : queuedStores (laneRequest? s l.place).toList a = []) :
    globalRead t a = globalRead s a := by
  rcases stepLane_cases h with ⟨rfl, -⟩ | ⟨th, -, -, -, rfl⟩ | ⟨th, w, u, hth, hact, hw, hu, rfl⟩
  · rfl
  · rfl
  · rw [laneRequest?_of_fetch hth hact hw] at ha
    exact exec_globalRead_of_no_store (s := enterThread s th) hu ⟨hs.memory, hs.cache, hs.queue⟩ ha

theorem runLanes_coherentInv {s t : State} {ls : List Lane} (h : runLanes ls s = .next t)
    (hs : CoherentInv s) : CoherentInv t :=
  runLanes_induction (fun _ _ _ _ => stepLane_coherentInv) h hs

/-- A word to which no store is queued after the lanes holds what it held before them. -/
theorem runLanes_globalRead_of_no_store {s t : State} {ls : List Lane} (h : runLanes ls s = .next t)
    (hs : CoherentInv s) {a : Nat} (ha : queuedStores t.mcQueue a = []) :
    globalRead t a = globalRead s a := by
  obtain ⟨-, hkept⟩ := runLanes_induction
    (P := fun u => CoherentInv u ∧ (queuedStores u.mcQueue a = [] → globalRead u a = globalRead s a))
    (fun l _ u v hv ⟨hcoherent, hkept⟩ => ⟨stepLane_coherentInv hv hcoherent, fun hqueue => by
      rw [stepLane_mcQueue hv, queuedStores_append, List.append_eq_nil_iff] at hqueue
      obtain ⟨hbefore, hlane⟩ := hqueue
      exact (stepLane_globalRead_of_no_store hv hcoherent hlane).trans (hkept hbefore)⟩)
    h ⟨hs, fun _ => rfl⟩
  exact hkept ha

/-- The start of the lanes of a cycle: memory, cache and queue coherent, the queue empty, ids unique. -/
structure LaneStart (s : State) : Prop where
  coherent : CoherentInv s
  queue : s.mcQueue = []
  ids : UniqueIds s

/-- After some lanes a word holds the last word that they stored to it, or what it held
(R52, R56, R92). -/
theorem runLanes_globalRead {s t : State} {ls : List Lane} (h : runLanes ls s = .next t)
    (hs : LaneStart s) (hnodup : (ls.map (·.place)).Nodup) {a : Nat} (ha : a < s.cfg.memWords) :
    globalRead t a = (laneStores s (ls.map (·.place)) a).getLast?.getD (globalRead s a) := by
  have hqueue := runLanes_mcQueue h hs.ids hnodup
  rw [hs.queue, List.nil_append] at hqueue
  unfold laneStores
  rw [← hqueue]
  cases hlast : (queuedStores t.mcQueue a).getLast? with
  | none => exact runLanes_globalRead_of_no_store h hs.coherent (List.getLast?_eq_none_iff.1 hlast)
  | some v =>
    exact (runLanes_coherentInv h hs.coherent).queue a (by rwa [(runLanes_sameControl h).cfg]) v hlast

theorem getLast?_getD_mem_cons {α : Type} (a : α) (l : List α) : l.getLast?.getD a ∈ a :: l := by
  cases h : l.getLast? with
  | none => exact List.mem_cons_self
  | some b => exact List.mem_cons_of_mem _ (List.mem_of_getLast? h)

/-! ### The register of a lane's load -/

theorem runLanes_append {ls ms : List Lane} {s t : State} (h : runLanes (ls ++ ms) s = .next t) :
    ∃ u, runLanes ls s = .next u ∧ runLanes ms u = .next t := by
  induction ls generalizing s with
  | nil => exact ⟨s, rfl, h⟩
  | cons l ls ih =>
    obtain ⟨u, hl, hls⟩ := runLanes_cons h
    obtain ⟨v, hv, hms⟩ := ih hls
    exact ⟨v, by rw [runLanes, hl, andThen_next, hv], hms⟩

/-- Lanes at other places leave a thread and its registers alone (R95). -/
theorem runLanes_thread_of_not_mem {s t : State} {ls : List Lane} (h : runLanes ls s = .next t)
    (hu : UniqueIds s) {q : ThreadRef} {th : Thread} (hq : threadAt? s q = some th)
    (hne : ∀ l ∈ ls, q ≠ l.place) :
    UniqueIds t ∧ threadAt? t q = some th ∧ bankOf t.rf th.threadId = bankOf s.rf th.threadId := by
  refine runLanes_induction (P := fun u => UniqueIds u ∧ threadAt? u q = some th ∧
    bankOf u.rf th.threadId = bankOf s.rf th.threadId) (fun l hl u v hv hP => ?_) h ⟨hu, hq, rfl⟩
  obtain ⟨hids, hthread, hbank⟩ := hP
  exact ⟨stepLane_uniqueIds hv hids, (stepLane_threadAt?_of_ne hv (hne l hl)).trans hthread,
    (stepLane_bankOf_of_ne hv hids hthread (hne l hl)).trans hbank⟩

theorem readReg_of_bankOf_eq {s t : State} {tid : Nat} (h : bankOf t.rf tid = bankOf s.rf tid)
    (r : RegIdx) : readReg t tid r = readReg s tid r := congrArg (·[r.val]) h

/-- A lane leaves a thread of the same id at its place (R20). -/
theorem stepLane_own_threadId {s t : State} {l : Lane} (h : stepLane s l = .next t) {th : Thread}
    (hth : threadAt? s l.place = some th) :
    ∃ th', threadAt? t l.place = some th' ∧ th'.threadId = th.threadId := by
  obtain ⟨f, hf, he, -⟩ := stepLane_blocks h
  refine ⟨f th, ?_, (hf th).1⟩
  rw [threadAt?_congr he, threadAt?_updateThread, if_pos rfl, hth]
  rfl

/-- The lane of the cycle at a place (R92). -/
def laneOf (s : State) (lanes : List ThreadRef) (r : ThreadRef) : Lane :=
  { place := r, openWords := openWords s lanes r }

theorem planLanes_eq (s : State) (lanes : List ThreadRef) :
    planLanes s lanes = lanes.map (laneOf s lanes) := rfl

/-- The turn of one lane among those of a cycle: before it only other lanes run, and neither they nor
those after it touch its thread's registers (R92, R95). -/
theorem runLanes_turn {s t : State} {lanes : List ThreadRef}
    (h : runLanes (planLanes s lanes) s = .next t) (hu : UniqueIds s) (hnodup : lanes.Nodup)
    {r : ThreadRef} (hr : r ∈ lanes) {th : Thread} (hth : threadAt? s r = some th) :
    ∃ before p p', runLanes before s = .next p ∧ (before.map (·.place)).Nodup ∧
      before.map (·.place) ⊆ lanes.filter (· != r) ∧ threadAt? p r = some th ∧
      bankOf p.rf th.threadId = bankOf s.rf th.threadId ∧
      stepLane p (laneOf s lanes r) = .next p' ∧
      bankOf t.rf th.threadId = bankOf p'.rf th.threadId := by
  obtain ⟨pre, post, hsplit⟩ := List.append_of_mem hr
  have hparts := hnodup
  rw [hsplit, List.nodup_append, List.nodup_cons] at hparts
  obtain ⟨hpre, ⟨hpost, -⟩, hdisjoint⟩ := hparts
  have hother : ∀ q ∈ pre, q ≠ r := fun q hq => hdisjoint q hq r List.mem_cons_self
  have hplan := congrArg (List.map (laneOf s lanes)) hsplit
  rw [← planLanes_eq, List.map_append, List.map_cons] at hplan
  rw [hplan] at h
  obtain ⟨p, hbefore, hrest⟩ := runLanes_append h
  obtain ⟨p', hturn, hafter⟩ := runLanes_cons hrest
  have hplaces : (pre.map (laneOf s lanes)).map (·.place) = pre := by
    simp [laneOf, Function.comp_def]
  obtain ⟨hids, hthread, hbank⟩ := runLanes_thread_of_not_mem hbefore hu hth
    (List.forall_mem_map.2 fun q hq => (hother q hq).symm)
  obtain ⟨th', hth', hid⟩ := stepLane_own_threadId hturn hthread
  obtain ⟨-, -, hbank'⟩ := runLanes_thread_of_not_mem hafter (stepLane_uniqueIds hturn hids) hth'
    (List.forall_mem_map.2 fun q hq => (ne_of_mem_of_not_mem hq hpost).symm)
  rw [hid] at hbank'
  refine ⟨_, p, p', hbefore, by rwa [hplaces], ?_, hthread, hbank, hturn, hbank'⟩
  rw [hplaces, hsplit]
  intro q hq
  simp [hq, hother q hq]

/-- A lane's load gives its register the word of memory at its turn, or one of those left open
(R65, R115). -/
theorem stepLane_load {s t : State} {l : Lane} (h : stepLane s l = .next t) (hs : CoherentInv s)
    {th : Thread} (hth : threadAt? s l.place = some th) (ha : th.active = true) {w : Word}
    (hw : fetch? s th.pc = some w) {rd rs1 : RegIdx} {imm : Word}
    (hd : decode s.cfg.opcodeMap w = .ldr rd rs1 imm) :
    readReg t th.threadId rd ∈
      globalRead s (effectiveAddress (readReg s th.threadId rs1) imm).toNat :: l.openWords := by
  set v := afterLdr rd rs1 imm (enterThread s th) with hv
  have ht : t = leaveThread (settleLoad (.ldr rd rs1 imm) l.openWords v) l.place := by
    unfold stepLane stepThread at h
    simp only [hth, ha, hw, hd, exec_ldr, andThen_next, if_true] at h
    exact (Host.Outcome.next.inj h).symm
  have hid : (settleLoad (.ldr rd rs1 imm) l.openWords v).ctx.threadId = th.threadId := by
    rw [settleLoad_ctx, hv, afterLdr_ctx]
    rfl
  obtain ⟨hread, -, -⟩ := afterLdr_of_coherent (s := enterThread s th) hs.memory hs.cache rd rs1 imm
  have hsettle := (readReg_settleLoad (.ldr rd rs1 imm) l.openWords v).1 rd rfl
  rw [hv, hread, ← hv] at hsettle
  unfold x at hsettle
  rw [hid] at hsettle
  rw [ht]
  exact hsettle

/-- The load of one of several lanes gives its register the word before them, or one that another of
them stores (R65, R67). -/
theorem runLanes_load {s t : State} {lanes : List ThreadRef}
    (h : runLanes (planLanes s lanes) s = .next t) (hs : LaneStart s) (hnodup : lanes.Nodup)
    {r : ThreadRef} (hr : r ∈ lanes) {th : Thread} (hth : threadAt? s r = some th)
    (ha : th.active = true) {w : Word} (hw : fetch? s th.pc = some w) {rd rs1 : RegIdx} {imm ea : Word}
    (hd : decode s.cfg.opcodeMap w = .ldr rd rs1 imm)
    (hea : ea = effectiveAddress (readReg s th.threadId rs1) imm) (hlt : ea.toNat < s.cfg.memWords) :
    readReg t th.threadId rd ∈
      globalRead s ea.toNat :: laneStores s (lanes.filter (· != r)) ea.toNat := by
  obtain ⟨before, p, p', hbefore, hplaces, hothers, hthread, hbank, hturn, hbank'⟩ :=
    runLanes_turn h hs.ids hnodup hr hth
  have hctl := runLanes_sameControl hbefore
  have hword : globalRead p ea.toNat ∈
      globalRead s ea.toNat :: laneStores s (lanes.filter (· != r)) ea.toNat := by
    rw [runLanes_globalRead hbefore hs hplaces hlt]
    exact List.cons_subset_cons _ (laneStores_mono hothers _) (getLast?_getD_mem_cons _ _)
  have hopen : openWords s lanes r ⊆
      globalRead s ea.toNat :: laneStores s (lanes.filter (· != r)) ea.toNat := by
    intro v hv
    have hcases := mem_openWords (laneRequest?_of_ldr hth ha hw hd) hv
    simp only [← hea] at hcases
    rwa [(cacheRead_of_coherent hs.coherent.memory hs.coherent.cache ea).1, ← List.mem_cons] at hcases
  have hload := stepLane_load hturn (runLanes_coherentInv hbefore hs.coherent) hthread ha
    (by rwa [fetch?, hctl.imem]) (by rwa [hctl.cfg])
  rw [readReg_of_bankOf_eq hbank, ← hea] at hload
  rw [readReg_of_bankOf_eq hbank']
  rcases List.mem_cons.1 hload with heq | hmem
  · rwa [heq]
  · exact hopen hmem

/-! ### The words of a cycle -/

theorem Inv.coherentInv {s : State} (h : Inv s) : CoherentInv s :=
  have ⟨_, _, _, hm, hc, hq, _⟩ := h
  ⟨hm, hc, queueAgrees_of_empty hq.1⟩

theorem Inv.membersOf_nodup {s : State} (h : Inv s) (k : Nat) : (membersOf s k).Nodup := by
  obtain ⟨-, -, -, -, -, -, -, -, -, hnodup, -⟩ := h
  unfold membersOf
  split
  · rename_i w hw
    exact (List.nodup_flatMap.1 hnodup).1 w (List.mem_of_getElem? hw)
  · exact List.nodup_nil

/-- The lanes of a cycle start in a coherent state with an empty queue. -/
theorem Inv.laneStart {s : State} (h : Inv s) : LaneStart (getNextWarp s).state := by
  have hcoherent := h.coherentInv.getNextWarp
  obtain ⟨-, -, -, -, -, ⟨hqueue, -⟩, -, ⟨hids, -⟩, -⟩ := h
  refine ⟨hcoherent, ?_, hids.getNextWarp⟩
  rw [getNextWarp_eq]
  exact hqueue

theorem globalRead_getNextWarp (s : State) (a : Nat) :
    globalRead (getNextWarp s).state a = globalRead s a := by
  rw [getNextWarp_eq]
  rfl

/-- The end of a cycle leaves in a word what the lanes left, or one of several words queued for it: the
drain commits nothing new (R58, R66). -/
theorem CoherentInv.globalRead_endCycle {s : State} (h : CoherentInv s) (k a : Nat) :
    globalRead (Machine.endCycle s k) a = globalRead s a ∨
      globalRead (Machine.endCycle s k) a ∈ queuedStores s.mcQueue a := by
  have hdrain : globalRead (processRequests s) a = globalRead s a := by
    rw [globalRead, processRequests_mem_of_agrees h.memory h.queue]
    rfl
  rcases globalRead_settleStores s.mcQueue (processRequests s) a with he | ⟨-, hmem⟩
  · exact .inl (he.trans hdrain)
  · exact .inr hmem

/-- After a running step a word holds what it held if no lane stored to it, else one of the words
stored to it (R66, R67). -/
theorem step_globalRead {s t : State} {k a : Nat} (hs : Inv s) (hh : halted s = false)
    (hk : (getNextWarp s).warp = some k) (h : step s = .next t) (ha : a < s.cfg.memWords) :
    (laneStores s (membersOf s k) a = [] → globalRead t a = globalRead s a) ∧
    (laneStores s (membersOf s k) a ≠ [] → globalRead t a ∈ laneStores s (membersOf s k) a) := by
  obtain ⟨u, hrun, rfl⟩ := step_runs_lanes hh hk h
  have hstart := hs.laneStart
  have hlt : a < (getNextWarp s).state.cfg.memWords := by
    rw [getNextWarp_eq]
    exact ha
  have hqueue := runLanes_planLanes_mcQueue hstart.ids (hs.membersOf_nodup k) hrun
  rw [hstart.queue, List.nil_append, laneRequest?_getNextWarp] at hqueue
  have hword := runLanes_globalRead hrun hstart (by simpa using hs.membersOf_nodup k) hlt
  rw [planLanes_places, laneStores_getNextWarp, globalRead_getNextWarp] at hword
  have hend := (runLanes_coherentInv hrun hstart.coherent).globalRead_endCycle k a
  rw [hqueue, show queuedStores ((membersOf s k).filterMap (laneRequest? s)) a =
    laneStores s (membersOf s k) a from rfl, hword] at hend
  constructor
  · intro hnone
    simpa [hnone] using hend
  · intro hsome
    rw [List.getLast?_eq_some_getLast hsome, Option.getD_some] at hend
    rcases hend with he | hmem
    · exact he ▸ List.getLast_mem hsome
    · exact hmem

/-- A step whose cycle stores nothing to a word leaves it (R64, R67). -/
theorem step_globalRead_of_no_store {s t : State} {a : Nat} (hs : Inv s) (hno : NoStoreTo s a)
    (h : step s = .next t) (ha : a < s.cfg.memWords) : globalRead t a = globalRead s a := by
  rcases executeCycle_cases h with rfl | ⟨k, -, hh, hk, -, -⟩
  · rfl
  · exact (step_globalRead hs hh hk h ha).1 (hno k hk)

/-- Steps that store nothing to a word leave it, and keep the invariant (R64). -/
theorem StoreFreeSteps.globalRead_eq {a n : Nat} {s t : State} (h : StoreFreeSteps a n s t)
    (hs : Inv s) (ha : a < s.cfg.memWords) :
    Inv t ∧ t.cfg = s.cfg ∧ globalRead t a = globalRead s a := by
  induction n generalizing s with
  | zero =>
    obtain rfl : s = t := h
    exact ⟨hs, rfl, rfl⟩
  | succ n ih =>
    obtain ⟨u, hno, hstep, hrest⟩ := h
    have hcfg := (step_imem_cfg_maxCycles hstep).2.1
    obtain ⟨hinv, hcfg', hread⟩ := ih hrest (step_inv hstep hs) (by rwa [hcfg])
    exact ⟨hinv, hcfg'.trans hcfg, hread.trans (step_globalRead_of_no_store hs hno hstep ha)⟩

/-- A word that one lane alone stores to holds after the cycle what that lane stored (R64). -/
theorem step_globalRead_of_single_store {s t : State} {k : Nat} {r : ThreadRef} {q : MemoryRequest}
    {v : Word} (hs : Inv s) (hh : halted s = false) (hk : (getNextWarp s).warp = some k)
    (hr : r ∈ membersOf s k) (hq : laneRequest? s r = some q) (hw : q.write = true)
    (hd : q.data = some v) (hlt : q.address.toNat < s.cfg.memWords)
    (hothers : laneStores s ((membersOf s k).filter (· != r)) q.address.toNat = [])
    (h : step s = .next t) : globalRead t q.address.toNat = v := by
  have hstored : v ∈ laneStores s (membersOf s k) q.address.toNat :=
    mem_laneStores.2 ⟨r, hr, q, hq, hw, rfl, hd⟩
  obtain ⟨r', hr', q', hq', hw', ha', hd'⟩ :=
    mem_laneStores.1 ((step_globalRead hs hh hk h hlt).2 (List.ne_nil_of_mem hstored))
  by_cases hrr : r' = r
  · subst hrr
    obtain rfl := Option.some.inj (hq'.symm.trans hq)
    exact Option.some.inj (hd'.symm.trans hd)
  · have hother : r' ∈ (membersOf s k).filter (· != r) := by simp [hr', hrr]
    have hmem := mem_laneStores.2 ⟨r', hother, q', hq', hw', ha', hd'⟩
    rw [hothers] at hmem
    cases hmem

/-- After a running step the register of a load holds the word before the cycle or one that another lane
stores (R65, R67). -/
theorem step_load {s t : State} {k : Nat} (hs : Inv s) (hh : halted s = false)
    (hk : (getNextWarp s).warp = some k) (h : step s = .next t) {r : ThreadRef}
    (hr : r ∈ membersOf s k) {th : Thread} (hth : threadAt? s r = some th) (ha : th.active = true)
    {w : Word} (hw : fetch? s th.pc = some w) {rd rs1 : RegIdx} {imm ea : Word}
    (hd : decode s.cfg.opcodeMap w = .ldr rd rs1 imm)
    (hea : ea = effectiveAddress (readReg s th.threadId rs1) imm) (hlt : ea.toNat < s.cfg.memWords) :
    readReg t th.threadId rd ∈
      globalRead s ea.toNat :: laneStores s ((membersOf s k).filter (· != r)) ea.toNat := by
  obtain ⟨u, hrun, rfl⟩ := step_runs_lanes hh hk h
  rw [← globalRead_getNextWarp, ← laneStores_getNextWarp]
  have hstart := hs.laneStart
  refine runLanes_load hrun hstart (hs.membersOf_nodup k) hr (th := th) ?_ ha (w := w) (rs1 := rs1)
    (imm := imm) ?_ ?_ ?_ ?_
  all_goals rw [getNextWarp_eq]
  · exact hth
  · exact hw
  · exact hd
  · exact hea
  · exact hlt

/-- A store and then a load of the same in-range word gives the stored word (R63). -/
theorem x_afterLdr_afterStr {s : State} (hm : MemoryInv s) (hc : CacheInv s) {rd rs1 rs1' : RegIdx}
    {imm imm' : Word} (hlt : (effectiveAddress (x s rs1) imm).toNat < s.cfg.memWords)
    (hea : effectiveAddress (x s rs1') imm' = effectiveAddress (x s rs1) imm) (rd' : RegIdx) :
    x (afterLdr rd' rs1' imm' (afterStr rd rs1 imm s)) rd' = x s rd := by
  obtain ⟨hread, hcache⟩ := afterStr_of_coherent hm hc rd rs1 imm
  obtain ⟨hctx, hrf⟩ := afterStr_ctx_rf rd rs1 imm s
  have hreg : x (afterStr rd rs1 imm s) rs1' = x s rs1' := by
    unfold x
    rw [hctx, readReg_congr hrf]
  obtain ⟨hload, -, -⟩ :=
    afterLdr_of_coherent (exec_memoryInv (exec_str rd rs1 imm s) hm) hcache rd' rs1' imm'
  rw [hload, hreg, hea, hread, if_pos ⟨rfl, hlt⟩]

end Sys2Proof.Machine

namespace Sys2Proof.Proofs
open Sys2Proof.Machine

/-- Settles O44: the words from the lanes and the end of the cycle, the lines from the coherence that
the step keeps. -/
theorem storedWordsEndWithAStoredValue : Obligations.StoredWordsEndWithAStoredValue := by
  intro s t k a hs hh hk hstep ha
  obtain ⟨hkept, hstored⟩ := step_globalRead hs hh hk hstep ha
  refine ⟨hkept, hstored, fun b l hb hl ht => ?_⟩
  have hword := (step_coherentInv hstep hs.coherentInv).cache.line_words hl ht (cacheOffset b)
  rwa [show b.toNat - b.toNat % 4 + (cacheOffset b).val = a by simp only [cacheOffset]; omega] at hword

/-- Settles O43: the stored word is the only one that the cycle can leave. -/
theorem storesAreVisibleInTheNextCycle : Obligations.StoresAreVisibleInTheNextCycle := by
  intro s t k r th w rd rs1 imm ea hs hh hk hr hth ha hw hd hea hlt hothers hstep
  subst hea
  exact step_globalRead_of_single_store hs hh hk hr (laneRequest?_of_str hth ha hw hd) rfl rfl hlt
    hothers hstep

/-- Settles O45, from what a lane reads at its turn and what is left open for it. -/
theorem loadsReturnTheOldOrAStoredWord : Obligations.LoadsReturnTheOldOrAStoredWord :=
  fun _ _ _ _ _ _ _ _ _ _ hs hh hk hr hth ha hw hd hea hlt hstep =>
    step_load hs hh hk hstep hr hth ha hw hd hea hlt

/-- Settles O18: the store is in memory when its cycle ends, the steps in between keep the word, and the
load returns it because nothing is stored in its cycle. -/
theorem ownStoreThenLoadReturnsTheValue : Obligations.OwnStoreThenLoadReturnsTheValue := by
  refine ⟨fun rd rs1 rd' rs1' imm imm' s hm hc hlt hea =>
    ⟨_, _, exec_str rd rs1 imm s, exec_ldr rd' rs1' imm' _, x_afterLdr_afterStr hm hc hlt hea rd'⟩, ?_⟩
  intro n s t u v k k' r r' th th' w w' rd rs1 rd' rs1' imm imm' ea hs hh hk hr hth ha hw hd hea hlt
    hothers hstep hsteps hh' hk' hr' hth' ha' hw' hd' hea' hno hstep'
  have hstored := storesAreVisibleInTheNextCycle s t k r th w rd rs1 imm ea hs hh hk hr hth ha hw hd hea
    hlt hothers hstep
  have hcfg := (step_imem_cfg_maxCycles hstep).2.1
  obtain ⟨hinv, hcfg', hkept⟩ := hsteps.globalRead_eq (step_inv hstep hs) (by rwa [hcfg])
  have hload := step_load hinv hh' hk' hstep' hr' hth' ha' hw' hd' hea'.symm (by rwa [hcfg', hcfg])
  have hnone : laneStores u ((membersOf u k').filter (· != r')) ea.toNat = [] :=
    List.subset_nil.1 (hno k' hk' ▸ laneStores_mono (List.filter_subset_self _) _)
  rw [hnone, List.mem_singleton, hkept, hstored] at hload
  exact hload

end Sys2Proof.Proofs
end

section
/-! The decoder inverts the encoder, reads only the fields of the row, and gives well-formed
instructions (R73 to R80). -/

namespace Sys2Proof
open Sys2Proof.Machine

/-! ### The decoder by its opcode byte -/

theorem decode_of_opOf?_some {m : OpcodeMap} {w : Word} {op : Opcode}
    (h : m.opOf? (opField w) = some op) : decode m w = decodeOp op w := by
  unfold decode
  rw [h]

theorem decode_of_opOf?_none {m : OpcodeMap} {w : Word} (h : m.opOf? (opField w) = none) :
    decode m w = unassignedNop (opField w) := by
  unfold decode
  rw [h]

/-- Under a map that gives no byte twice, a word with an opcode's byte is read as that opcode (R79). -/
theorem decode_of_opField {m : OpcodeMap} (hm : m.wf = true) {op : Opcode} {w : Word}
    (h : opField w = m.byteOf op) : decode m w = decodeOp op w :=
  decode_of_opOf?_some (h ▸ opOf?_byteOf m hm op)

/-! ### Immediates -/

/-- R74: the immediate is the low 16 bits read as a two's-complement number. -/
theorem immField_toInt (w : Word) : (immField w).toInt =
    if w.toNat % 65536 < 32768 then ((w.toNat % 65536 : Nat) : Int)
    else ((w.toNat % 65536 : Nat) : Int) - 65536 := by
  have hlow : (imm16Field w).toNat = w.toNat % 65536 := imm16Field_toNat w
  have hsext : (immField w).toInt = (imm16Field w).toInt :=
    BitVec.toInt_signExtend_of_le (by decide)
  rw [hsext, BitVec.toInt_eq_toNat_cond, hlow]
  split <;> split <;> omega

theorem immField_congr {w v : Word} (h : imm16Field w = imm16Field v) : immField w = immField v :=
  congrArg (·.signExtend 32) h

theorem immWellFormed_iff {imm : Word} :
    immWellFormed imm = true ↔ -32768 ≤ imm.toInt ∧ imm.toInt ≤ 32767 := by
  simp [immWellFormed]

/-- R74: every immediate that the decoder reads is in range. -/
theorem immWellFormed_immField (w : Word) : immWellFormed (immField w) = true := by
  have hval := immField_toInt w
  rw [immWellFormed_iff]
  split at hval <;> omega

/-- An immediate in range survives the cut to 16 bits and the sign extension back (R74, R80). -/
theorem immField_encodeI {imm : Word} (h : immWellFormed imm = true) (op : OpByte) (rd rs1 : RegIdx) :
    immField (encodeI op rd rs1 imm) = imm := by
  obtain ⟨hlo, hhi⟩ := immWellFormed_iff.1 h
  have hlow : (encodeI op rd rs1 imm).toNat % 65536 = imm.toNat % 65536 := by
    rw [encodeI_toNat]
    omega
  apply BitVec.eq_of_toInt_eq
  rw [immField_toInt, hlow]
  rw [BitVec.toInt_eq_toNat_cond] at hlo hhi ⊢
  split at hlo <;> split <;> omega

/-! ### Round trips, one for each class of encoding (R73) -/

section RoundTrip
variable {m : OpcodeMap} (hm : m.wf = true) (op : Opcode)
include hm

/-- Class R: an instruction built from the three register fields comes back. -/
theorem decode_encodeR (f : RegIdx → RegIdx → RegIdx → Instr)
    (hf : ∀ w, decodeOp op w = f (rdField w) (rs1Field w) (rs2Field w)) (rd rs1 rs2 : RegIdx) :
    decode m (encodeR (m.byteOf op) rd rs1 rs2) = f rd rs1 rs2 := by
  rw [decode_of_opField hm (opField_encodeR _ _ _ _), hf, rdField_encodeR, rs1Field_encodeR,
    rs2Field_encodeR]

/-- Class I: an instruction built from two register fields and an immediate in range comes back. -/
theorem decode_encodeI (f : RegIdx → RegIdx → Word → Instr)
    (hf : ∀ w, decodeOp op w = f (rdField w) (rs1Field w) (immField w)) (rd rs1 : RegIdx) {imm : Word}
    (himm : immWellFormed imm = true) :
    decode m (encodeI (m.byteOf op) rd rs1 imm) = f rd rs1 imm := by
  rw [decode_of_opField hm (opField_encodeI _ _ _ _), hf, rdField_encodeI, rs1Field_encodeI,
    immField_encodeI himm]

/-- Class N: the opcode byte alone gives the instruction. -/
theorem decode_encodeN : decode m (encodeN (m.byteOf op)) = decodeOp op (encodeN (m.byteOf op)) :=
  decode_of_opField hm (opField_encodeN _)

end RoundTrip

/-- An unassigned byte comes back as the NOP of its row (R77). -/
theorem decode_encodeN_of_unassigned {m : OpcodeMap} {b : OpByte}
    (h : unassignedWellFormed m b = true) : decode m (encodeN b) = unassignedNop b := by
  have hb : b ∉ m.assigned := by simpa [unassignedWellFormed] using h
  have hnone : m.opOf? (opField (encodeN b)) = none := by
    rw [opField_encodeN]
    exact (opOf?_eq_none_iff m b).2 hb
  rw [decode_of_opOf?_none hnone, opField_encodeN]

/-- Decoding inverts encoding on well-formed instructions. -/
theorem decode_encode {m : OpcodeMap} (hm : m.wf = true) {i : Instr} (hi : i.wellFormed m = true) :
    decode m (encode m i) = i := by
  cases i with
  | nop => exact decode_encodeN hm .nop
  | const rd imm => exact decode_encodeI hm .const (fun rd _ imm => .const rd imm) (fun _ => rfl) rd 0 hi
  | add rd rs1 rs2 => exact decode_encodeR hm .add .add (fun _ => rfl) rd rs1 rs2
  | sub rd rs1 rs2 => exact decode_encodeR hm .sub .sub (fun _ => rfl) rd rs1 rs2
  | mul rd rs1 rs2 => exact decode_encodeR hm .mul .mul (fun _ => rfl) rd rs1 rs2
  | div rd rs1 rs2 => exact decode_encodeR hm .div .div (fun _ => rfl) rd rs1 rs2
  | and rd rs1 rs2 => exact decode_encodeR hm .and .and (fun _ => rfl) rd rs1 rs2
  | or rd rs1 rs2 => exact decode_encodeR hm .or .or (fun _ => rfl) rd rs1 rs2
  | xor rd rs1 rs2 => exact decode_encodeR hm .xor .xor (fun _ => rfl) rd rs1 rs2
  | ldr rd rs1 imm => exact decode_encodeI hm .ldr .ldr (fun _ => rfl) rd rs1 hi
  | str rd rs1 imm => exact decode_encodeI hm .str .str (fun _ => rfl) rd rs1 hi
  | br imm => exact decode_encodeI hm .br (fun _ _ imm => .br imm) (fun _ => rfl) 0 0 hi
  | brz rs1 imm => exact decode_encodeI hm .brz (fun _ => .brz) (fun _ => rfl) 0 rs1 hi
  | brnz rs1 imm => exact decode_encodeI hm .brnz (fun _ => .brnz) (fun _ => rfl) 0 rs1 hi
  | brn rs1 imm => exact decode_encodeI hm .brn (fun _ => .brn) (fun _ => rfl) 0 rs1 hi
  | brp rs1 imm => exact decode_encodeI hm .brp (fun _ => .brp) (fun _ => rfl) 0 rs1 hi
  | cmp rs1 rs2 => exact decode_encodeR hm .cmp (fun _ => .cmp) (fun _ => rfl) 0 rs1 rs2
  | ret => exact decode_encodeN hm .ret
  | nopU12 => exact decode_encodeN_of_unassigned hi
  | nopU14 => exact decode_encodeN_of_unassigned hi
  | nopU18 => exact decode_encodeN_of_unassigned hi
  | nopU20 => exact decode_encodeN_of_unassigned hi
  | nopU40 => exact decode_encodeN_of_unassigned hi
  | nopU80 => exact decode_encodeN_of_unassigned hi

/-! ### What the decoder gives -/

/-- An assigned opcode gives a well-formed instruction under every map: only its immediate is checked. -/
theorem decodeOp_wellFormed (m : OpcodeMap) (op : Opcode) (w : Word) :
    (decodeOp op w).wellFormed m = true := by
  cases op with
  | nop | add | sub | mul | div | and | or | xor | cmp | ret => rfl
  | const | ldr | str | br | brz | brnz | brn | brp => exact immWellFormed_immField w

/-- The rows for unassigned bytes begin above the bytes of the default map (R76, R77). -/
theorem unassignedNop_wellFormed (b : OpByte) :
    (unassignedNop b).wellFormed defaultOpcodeMap = true := by
  unfold unassignedNop
  split_ifs <;> decide

theorem decode_wellFormed (m : OpcodeMap) (w : Word) :
    (decode m w).wellFormed defaultOpcodeMap = true := by
  cases h : m.opOf? (opField w) with
  | none => rw [decode_of_opOf?_none h]; exact unassignedNop_wellFormed _
  | some op => rw [decode_of_opOf?_some h]; exact decodeOp_wellFormed _ op w

/-! ### What the decoder reads -/

/-- R75, R78: an opcode's instruction depends on the fields of its row only. -/
theorem decodeOp_congr {op : Opcode} {w v : Word} (h : UsedFieldsAgree (some op) w v) :
    decodeOp op w = decodeOp op v := by
  cases op with
  | nop | ret => rfl
  | const =>
    obtain ⟨hrd, himm⟩ := h
    simp only [decodeOp, hrd, immField_congr himm]
  | add | sub | mul | div | and | or | xor =>
    obtain ⟨hrd, hrs1, hrs2⟩ := h
    simp only [decodeOp, hrd, hrs1, hrs2]
  | ldr | str =>
    obtain ⟨hrd, hrs1, himm⟩ := h
    simp only [decodeOp, hrd, hrs1, immField_congr himm]
  | br => exact congrArg Instr.br (immField_congr h)
  | brz | brnz | brn | brp =>
    obtain ⟨hrs1, himm⟩ := h
    simp only [decodeOp, hrs1, immField_congr himm]
  | cmp =>
    obtain ⟨hrs1, hrs2⟩ := h
    simp only [decodeOp, hrs1, hrs2]

end Sys2Proof

namespace Sys2Proof.Proofs
open Sys2Proof.Machine

/-- Settles O2: each class of encoding gives back the fields that its rows decode. -/
theorem decodeOfEncodeIsIdentity : Obligations.DecodeOfEncodeIsIdentity :=
  fun _ hm _ hi => decode_encode hm hi

/-- Settles O3: the immediate's value puts it in range, which is all that an assigned opcode needs. -/
theorem decodedInstructionsAreWellFormed : Obligations.DecodedInstructionsAreWellFormed :=
  ⟨immField_toInt, decode_wellFormed⟩

/-- Settles O4: an unassigned byte alone gives its NOP, an opcode its row's fields. -/
theorem unusedBitsDoNotChangeDecoding : Obligations.UnusedBitsDoNotChangeDecoding := by
  intro m w v hop hused
  cases h : m.opOf? (opField w) with
  | none => rw [decode_of_opOf?_none h, decode_of_opOf?_none (hop ▸ h), hop]
  | some op =>
    rw [decode_of_opOf?_some h, decode_of_opOf?_some (hop ▸ h)]
    exact decodeOp_congr (h ▸ hused)

/-- Settles O1: the decoder evaluates each word. -/
theorem sampleWordsDecode : Obligations.SampleWordsDecode := by
  unfold Obligations.SampleWordsDecode
  decide

end Sys2Proof.Proofs
end

section
/-! What an accepted launch leaves: the registers, the threads, the warps and the invariant (R20, R26,
R27, R85 to R87). -/

namespace Sys2Proof.Machine

/-! ### Acceptance -/

/-- The repeated id that a refusal names stands in the launch at least twice (D37). -/
theorem two_le_count_of_duplicateId? {is : List Nat} {i : Nat} (h : duplicateId? is = some i) :
    2 ≤ is.count i := by
  induction is with
  | nil => cases h
  | cons j is ih =>
    unfold duplicateId? at h
    split_ifs at h with hj
    · obtain rfl := Option.some.inj h
      have hpos : 0 < is.count j := List.count_pos_iff.2 (by simpa using hj)
      rw [List.count_cons_self]
      omega
    · exact (ih h).trans List.count_le_count_cons

/-- A launch is accepted exactly where its ids differ, and then it is carried out (R85, D37). -/
theorem initializeBlocks_eq_next_iff {bs : List BlockInit} {s t : State} :
    initializeBlocks bs s = .next t ↔ (launchIds bs).Nodup ∧ t = launch bs s := by
  rw [← duplicateId?_eq_none_iff]
  unfold initializeBlocks
  cases duplicateId? (launchIds bs) with
  | none => simp [eq_comm]
  | some tid => simp

/-- A launch that repeats an id is refused, and the refusal names one that it repeats (D37, H1). -/
theorem initializeBlocks_refused {bs : List BlockInit} (h : ¬(launchIds bs).Nodup) (s : State) :
    ∃ tid, initializeBlocks bs s = .refused (.duplicateThreadId tid) ∧
      2 ≤ (launchIds bs).count tid := by
  rw [← duplicateId?_eq_none_iff, ← ne_eq, Option.ne_none_iff_exists'] at h
  obtain ⟨tid, htid⟩ := h
  refine ⟨tid, ?_, two_le_count_of_duplicateId? htid⟩
  unfold initializeBlocks
  rw [htid]

/-! ### The fields of the launched state -/

/-- A launch sets the register file, the blocks, the warps and `rr`, and nothing else (R85). -/
theorem launch_eq (bs : List BlockInit) (s : State) :
    launch bs s =
      { s with
        rf := (allocateAll s bs).rf, blocks := bs.map (launchedBlock (allocateAll s bs)),
        warps := (launch bs s).warps, rr := 0 } := by
  unfold launch
  rw [allocateAll_eq]

@[simp] theorem launch_rf (bs : List BlockInit) (s : State) :
    (launch bs s).rf = (allocateAll s bs).rf := rfl

/-- The snapshots of the launched threads are those of the launched register file (R24, R85). -/
@[simp] theorem launch_blocks (bs : List BlockInit) (s : State) :
    (launch bs s).blocks = bs.map (launchedBlock (launch bs s)) := rfl

/-- The warps of a launch are those that its blocks form (R86). -/
theorem launch_warps (bs : List BlockInit) (s : State) :
    (launch bs s).warps = formWarps (launch bs s) := rfl

/-! ### Registers -/

theorem launchIds_eq (bs : List BlockInit) :
    launchIds bs = (bs.flatMap (·.threads)).map (·.threadId) := List.map_flatMap.symm

/-- The registers of a thread outside the launch stay (R85). -/
theorem readReg_launch_of_not_mem {bs : List BlockInit} {tid : Nat} (h : tid ∉ launchIds bs) (s : State)
    (i : RegIdx) : readReg (launch bs s) tid i = readReg s tid i := by
  rw [readReg_congr (launch_rf bs s), allocateAll_eq_foldl]
  refine readReg_foldl_allocateThread_of_not_mem _ s i tid fun ti hti he => h ?_
  rw [launchIds_eq]
  exact List.mem_map.2 ⟨ti, hti, he⟩

/-- A launched thread's register holds what the host supplies, else what it held (R16, R85). -/
theorem readReg_launch_of_mem {bs : List BlockInit} (hn : (launchIds bs).Nodup) {b : BlockInit}
    (hb : b ∈ bs) {ti : ThreadInit} (hti : ti ∈ b.threads) (s : State) (i : RegIdx) :
    readReg (launch bs s) ti.threadId i = (ti.registers[i.val]).getD (readReg s ti.threadId i) := by
  rw [readReg_congr (launch_rf bs s), allocateAll_eq_foldl]
  exact readReg_foldl_allocateThread _ (launchIds_eq bs ▸ hn) s i (List.mem_flatMap.2 ⟨b, hb, hti⟩)

/-- A launch keeps the register file's canonical form. -/
theorem sorted_launch_rf {s : State} (h : Table.Sorted s.rf) (bs : List BlockInit) :
    Table.Sorted (launch bs s).rf := by
  rw [launch_rf, allocateAll_eq_foldl]
  generalize bs.flatMap (·.threads) = ts
  induction ts generalizing s with
  | nil => exact h
  | cons ti ts ih => exact ih (sorted_allocateThread h ti)

/-! ### Threads -/

/-- A launch places the host's threads where the host lists them (R25, R85). -/
theorem threadAt?_launch {bs : List BlockInit} {r : ThreadRef} {b : BlockInit} {ti : ThreadInit}
    (hb : bs[r.block]? = some b) (hti : b.threads[r.thread]? = some ti) (s : State) :
    threadAt? (launch bs s) r = some (launchedThread (launch bs s) b.blockId ti) := by
  unfold threadAt?
  simp only [launch_blocks, launchedBlock, List.getElem?_map, hb, hti, Option.map_some]

/-- The ids of the launched threads are those that the host gives, in order (R20). -/
theorem allThreads_launch_ids (bs : List BlockInit) (s : State) :
    (allThreads (launch bs s)).map (·.threadId) = launchIds bs := by
  unfold allThreads launchIds
  rw [launch_blocks, List.flatMap_map, List.map_flatMap]
  simp only [launchedBlock, List.map_map]
  rfl

/-- A launched thread belongs to the block that owns it, and its snapshot is its bank (R20, R24). -/
theorem mem_launch_threads {bs : List BlockInit} {s : State} {b : Block} {th : Thread}
    (hb : b ∈ (launch bs s).blocks) (hth : th ∈ b.threads) :
    th.blockId = b.blockId ∧ th.regs = bankOf (launch bs s).rf th.threadId := by
  rw [launch_blocks] at hb
  obtain ⟨bi, -, rfl⟩ := List.mem_map.1 hb
  obtain ⟨ti, -, rfl⟩ := List.mem_map.1 hth
  exact ⟨rfl, rfl⟩

theorem snapshotInv_launch {bs : List BlockInit} (hn : (launchIds bs).Nodup) (s : State) :
    SnapshotInv (launch bs s) := by
  refine ⟨(congrArg List.Nodup (allThreads_launch_ids bs s)).mpr hn, fun th hth => ?_⟩
  obtain ⟨b, hb, hth⟩ := List.mem_flatMap.1 hth
  exact (mem_launch_threads hb hth).2

/-! ### The groups of a block -/

/-- The groups put together again are the list. -/
theorem flatten_chunksOf32 {α : Type} (fuel : Nat) (l : List α) (hf : l.length ≤ fuel) :
    (chunksOf32 fuel l).flatten = l := by
  induction fuel generalizing l with
  | zero => simp [chunksOf32, List.length_eq_zero_iff.1 (Nat.le_zero.1 hf)]
  | succ fuel ih =>
    cases l with
    | nil => rfl
    | cons a l =>
      have hrest : ((a :: l).drop warpSize).length ≤ fuel := by
        simp only [List.length_drop, List.length_cons, warpSize] at hf ⊢
        omega
      rw [chunksOf32, List.flatten_cons, ih _ hrest, List.take_append_drop]

/-- Warp `k` of a block of `n` threads (R86). -/
def warpMembers (bi n k : Nat) : List ThreadRef :=
  (List.range (min 32 (n - 32 * k))).map fun j => { block := bi, thread := 32 * k + j }

theorem blockWarpMembers_getElem? (bi n k : Nat) :
    (blockWarpMembers bi n)[k]? = if 32 * k < n then some (warpMembers bi n k) else none := by
  have hgroup : (((List.range n).map fun ti => (⟨bi, ti⟩ : ThreadRef)).drop (32 * k)).take 32 =
      warpMembers bi n k := by
    apply List.ext_getElem
    · simp [warpMembers]
    · intro j _ _
      simp [warpMembers]
  rw [blockWarpMembers, chunksOf32_getElem? _ _ (by simp), hgroup, List.length_map, List.length_range]

/-- The warps of a block hold its threads in order, each once (R86). -/
theorem flatten_blockWarpMembers (bi n : Nat) :
    (blockWarpMembers bi n).flatten = (List.range n).map fun ti => { block := bi, thread := ti } :=
  flatten_chunksOf32 _ _ (by simp)

/-! ### The groups of a launch -/

theorem launchMembers_eq (bi : Nat) (bs : List Block) :
    launchMembers bi bs =
      ((bs.zipIdx bi).map fun e => blockWarpMembers e.2 e.1.threads.length).flatten := by
  induction bs generalizing bi with
  | nil => rfl
  | cons b bs ih => rw [launchMembers, ih, List.zipIdx_cons, List.map_cons, List.flatten_cons]

/-- Each group of a launch is a warp of one of its blocks. -/
theorem mem_launchMembers {bs : List Block} {ms : List ThreadRef} (h : ms ∈ launchMembers 0 bs) :
    ∃ bi b k, bs[bi]? = some b ∧ 32 * k < b.threads.length ∧ ms = warpMembers bi b.threads.length k := by
  rw [launchMembers_eq] at h
  obtain ⟨_, hgroups, hms⟩ := List.mem_flatten.1 h
  obtain ⟨⟨b, bi⟩, hb, rfl⟩ := List.mem_map.1 hgroups
  obtain ⟨k, hk⟩ := List.getElem?_of_mem hms
  rw [blockWarpMembers_getElem?] at hk
  split_ifs at hk with hlt
  exact ⟨bi, b, k, List.mem_zipIdx_iff_getElem?.1 hb, hlt, (Option.some.inj hk).symm⟩

/-- The groups of the blocks from number `bi` on hold no thread of an earlier block. -/
theorem le_block_of_mem_launchMembers {bi : Nat} {bs : List Block} {r : ThreadRef}
    (h : r ∈ (launchMembers bi bs).flatten) : bi ≤ r.block := by
  induction bs generalizing bi with
  | nil => cases h
  | cons b bs ih =>
    rw [launchMembers, List.flatten_append, List.mem_append, flatten_blockWarpMembers] at h
    rcases h with h | h
    · obtain ⟨ti, -, rfl⟩ := List.mem_map.1 h
      exact le_rfl
    · exact (Nat.le_succ bi).trans (ih h)

/-- No thread stands in two places of the groups (R86). -/
theorem nodup_flatten_launchMembers (bi : Nat) (bs : List Block) :
    (launchMembers bi bs).flatten.Nodup := by
  induction bs generalizing bi with
  | nil => exact List.nodup_nil
  | cons b bs ih =>
    rw [launchMembers, List.flatten_append, flatten_blockWarpMembers, List.nodup_append']
    refine ⟨List.nodup_range.map fun i j h => congrArg ThreadRef.thread h, ih (bi + 1), fun r hr hr' => ?_⟩
    obtain ⟨ti, -, rfl⟩ := List.mem_map.1 hr
    exact absurd (le_block_of_mem_launchMembers hr') (Nat.not_succ_le_self bi)

/-! ### The warps -/

theorem formWarps_map_members (s : State) : (formWarps s).map (·.members) = launchMembers 0 s.blocks := by
  unfold formWarps
  rw [List.map_map]
  exact List.zipIdx_map_fst 0 _

theorem formWarps_getElem?_eq_some {s : State} {k : Nat} {w : Warp} (h : (formWarps s)[k]? = some w) :
    w = formedWarp s k w.members := by
  unfold formWarps at h
  rw [List.getElem?_map] at h
  obtain ⟨⟨ms, k'⟩, hms, rfl⟩ := Option.map_eq_some_iff.1 h
  rw [List.getElem?_zipIdx] at hms
  obtain ⟨ms', -, he⟩ := Option.map_eq_some_iff.1 hms
  obtain ⟨rfl, rfl⟩ := Prod.mk.inj he
  simp [formedWarp]

/-- Each formed warp has the members of a warp of one of the blocks (R86). -/
theorem members_of_mem_formWarps {s : State} {w : Warp} (h : w ∈ formWarps s) :
    ∃ bi b k, s.blocks[bi]? = some b ∧ 32 * k < b.threads.length ∧
      w.members = warpMembers bi b.threads.length k :=
  mem_launchMembers (formWarps_map_members s ▸ List.mem_map_of_mem h)

/-- A member of a block's warp is one of the block's threads. -/
theorem threadAt?_of_mem_warpMembers {s : State} {bi k : Nat} {b : Block} (hb : s.blocks[bi]? = some b)
    {r : ThreadRef} (hr : r ∈ warpMembers bi b.threads.length k) : (threadAt? s r).isSome := by
  obtain ⟨j, hj, rfl⟩ := List.mem_map.1 hr
  have hlt : 32 * k + j < b.threads.length := by
    have := List.mem_range.1 hj
    omega
  simp [threadAt?, hb, hlt]

theorem block_of_mem_warpMembers {bi n k : Nat} {r : ThreadRef} (hr : r ∈ warpMembers bi n k) :
    r.block = bi := by
  obtain ⟨j, -, rfl⟩ := List.mem_map.1 hr
  rfl

/-- Where the warps are those that the blocks form, they are well formed (R20, R26, R86). -/
theorem warpInv_of_formWarps {s : State} (h : s.warps = formWarps s) : WarpInv s := by
  refine ⟨?_, fun w hw => ?_⟩
  · rw [h, List.flatMap_def, formWarps_map_members]
    exact nodup_flatten_launchMembers 0 s.blocks
  · obtain ⟨bi, b, k, hb, hk, hmem⟩ := members_of_mem_formWarps (h ▸ hw)
    have hlen : w.members.length = min 32 (b.threads.length - 32 * k) := by simp [hmem, warpMembers]
    rw [hmem] at hlen ⊢
    refine ⟨by omega, by unfold warpSize; omega, fun r => threadAt?_of_mem_warpMembers hb,
      fun r hr q hq => ?_⟩
    rw [block_of_mem_warpMembers hr, block_of_mem_warpMembers hq]

/-- A formed warp has a first lane, and its PC is that of the thread there (R87). -/
theorem formedWarp_pc {s : State} (h : s.warps = formWarps s) {k : Nat} {w : Warp}
    (hw : s.warps[k]? = some w) :
    ∃ r th, w.members.head? = some r ∧ threadAt? s r = some th ∧ w.pc = th.pc := by
  obtain ⟨hpos, -, hplace, -⟩ := (warpInv_of_formWarps h).2 w (List.mem_of_getElem? hw)
  have hform := formWarps_getElem?_eq_some (h ▸ hw)
  cases hms : w.members with
  | nil => simp [hms] at hpos
  | cons r ms =>
    obtain ⟨th, hth⟩ := Option.isSome_iff_exists.1 (hplace r (hms ▸ List.mem_cons_self))
    refine ⟨r, th, rfl, hth, ?_⟩
    rw [hform, hms]
    simp [formedWarp, pcAt, hth]

/-! ### The invariant -/

/-- Every accepted launch keeps the whole invariant: memory, cache and queue stay, and the launch builds
threads and warps anew. -/
theorem launch_inv {bs : List BlockInit} (hn : (launchIds bs).Nodup) {s : State} (hs : Inv s) :
    Inv (launch bs s) := by
  obtain ⟨hcfg, himem, hrf, hmem, hcache, hquiet, -, -, -, -⟩ := hs
  have hkept : MemoryInv (launch bs s) ∧ CacheInv (launch bs s) ∧ QuietInv (launch bs s) ∧
      (launch bs s).cfg = s.cfg ∧ (launch bs s).imem = s.imem := by
    rw [launch_eq]
    exact ⟨hmem, hcache, hquiet, rfl, rfl⟩
  obtain ⟨hmem', hcache', hquiet', ecfg, eimem⟩ := hkept
  have hsched : SchedulerInv (launch bs s) :=
    (Nat.eq_zero_or_pos (launch bs s).warps.length).symm.imp id fun h0 =>
      ⟨List.length_eq_zero_iff.1 h0, rfl⟩
  exact ⟨ecfg ▸ hcfg, eimem ▸ himem, sorted_launch_rf hrf bs, hmem', hcache', hquiet', hsched,
    snapshotInv_launch hn s, fun b hb th hth => (mem_launch_threads hb hth).1,
    warpInv_of_formWarps (launch_warps bs s)⟩

end Sys2Proof.Machine

namespace Sys2Proof.Proofs
open Sys2Proof.Machine

/-- Settles O53: what the launch leaves alone keeps its part of the invariant, and what it builds meets
the rest. -/
theorem launchKeepsTheInvariant : Obligations.LaunchKeepsTheInvariant := by
  intro bs s t hs h
  obtain ⟨hn, rfl⟩ := initializeBlocks_eq_next_iff.1 h
  exact launch_inv hn hs

/-- Settles O55, from the search for a repeated id. -/
theorem launchRefusesRepeatedThreadIds : Obligations.LaunchRefusesRepeatedThreadIds := by
  refine fun bs s => ⟨⟨fun ⟨t, h⟩ => ?_, fun hn => ?_⟩, fun hn => initializeBlocks_refused hn s⟩
  · exact (initializeBlocks_eq_next_iff.1 h).1
  · exact ⟨_, initializeBlocks_eq_next_iff.2 ⟨hn, rfl⟩⟩

/-- Settles O56: the threads from the blocks that the launch builds, the registers from the allocation
of the threads in order. -/
theorem launchRegistersTheHostsThreads : Obligations.LaunchRegistersTheHostsThreads := by
  intro bs s t h
  obtain ⟨hn, rfl⟩ := initializeBlocks_eq_next_iff.1 h
  refine ⟨?_, fun r b ti hb hti => ⟨threadAt?_launch hb hti s, ?_⟩,
    fun tid i htid => readReg_launch_of_not_mem htid s i, ?_⟩
  · rw [launch_blocks, List.map_map]
    exact List.map_congr_left fun b _ => by simp [launchedBlock]
  · exact readReg_launch_of_mem hn (List.mem_of_getElem? hb) (List.mem_of_getElem? hti) s
  · rw [launch_eq]
    exact ⟨rfl, rfl, rfl, rfl, rfl, rfl, rfl, rfl, rfl, rfl, rfl⟩

/-- Settles O57: the groups of a block in closed form, and the formed warps' members and first lanes. -/
theorem warpsAreConsecutiveGroupsOf32 : Obligations.WarpsAreConsecutiveGroupsOf32 := by
  refine ⟨blockWarpMembers_getElem?, fun bs s t h => ?_⟩
  obtain ⟨-, rfl⟩ := initializeBlocks_eq_next_iff.1 h
  have hform := launch_warps bs s
  refine ⟨?_, fun k w hw => ?_⟩
  · rw [hform, formWarps_map_members, launchMembers_eq, launch_blocks, List.zipIdx_map, List.map_map]
    simp [launchedBlock, Function.comp_def]
  · have hw' : w = formedWarp (launch bs s) k w.members := formWarps_getElem?_eq_some (hform ▸ hw)
    exact ⟨congrArg Warp.warpId hw', congrArg Warp.active hw', formedWarp_pc hform hw⟩

end Sys2Proof.Proofs
end

section
/-! The step of one lane: the fetch, the decoded instruction, and what is written back to the thread
(R24, R93, R94). -/

namespace Sys2Proof.Machine

theorem stepLane_of_active {s : State} {l : Lane} {th : Thread} (hth : threadAt? s l.place = some th)
    (ha : th.active = true) : stepLane s l = stepThread s l th := by
  unfold stepLane
  simp [hth, ha]

/-- A lane whose thread fetches a word executes what the word decodes to, settles the load, and leaves
the thread (R94). -/
theorem stepLane_of_fetch {s : State} {l : Lane} {th : Thread} {w : Word}
    (hth : threadAt? s l.place = some th) (ha : th.active = true) (hw : fetch? s th.pc = some w) :
    stepLane s l = andThen (exec (decode s.cfg.opcodeMap w) (enterThread s th)) fun u =>
      .next (leaveThread (settleLoad (decode s.cfg.opcodeMap w) l.openWords u) l.place) := by
  rw [stepLane_of_active hth ha]
  unfold stepThread
  simp only [hw]

/-- A lane whose thread has no word at its PC deactivates the thread (R93). -/
theorem stepLane_of_no_fetch {s : State} {l : Lane} {th : Thread} (hth : threadAt? s l.place = some th)
    (ha : th.active = true) (hw : fetch? s th.pc = none) :
    stepLane s l = .next (overrunThread s l.place) := by
  rw [stepLane_of_active hth ha]
  unfold stepThread
  simp only [hw]

/-- The first of the lanes that executes an instruction: the others run after its thread is left. -/
theorem runLanes_cons_of_fetch {s : State} {l : Lane} {th : Thread} {w : Word}
    (hth : threadAt? s l.place = some th) (ha : th.active = true) (hw : fetch? s th.pc = some w)
    (ls : List Lane) :
    runLanes (l :: ls) s = andThen (exec (decode s.cfg.opcodeMap w) (enterThread s th)) fun u =>
      runLanes ls (leaveThread (settleLoad (decode s.cfg.opcodeMap w) l.openWords u) l.place) := by
  obtain ⟨u, hu⟩ := exec_answers_next (decode s.cfg.opcodeMap w) (enterThread s th)
  rw [runLanes, stepLane_of_fetch hth ha hw, hu]
  rfl

theorem threadAt?_leaveThread (s : State) (r : ThreadRef) :
    threadAt? (leaveThread s r) r =
      (threadAt? s r).map (writeBackThread s.ctx (bankOf s.rf s.ctx.threadId)) := by
  rw [threadAt?_congr (leaveThread_blocks s r), threadAt?_updateThread, if_pos rfl]

end Sys2Proof.Machine

namespace Sys2Proof.Proofs
open Sys2Proof.Machine

/-- Settles O34, by the lane whose fetch finds no word. -/
theorem fetchPastTheEndDeactivates : Obligations.FetchPastTheEndDeactivates := by
  intro s l th hth ha hpc
  have hstep := stepLane_of_no_fetch hth ha (List.getElem?_eq_none hpc)
  refine ⟨_, hstep, ?_, fun q hq => stepLane_threadAt?_of_ne hstep hq, rfl⟩
  unfold overrunThread
  rw [threadAt?_updateThread, if_pos rfl, hth, Option.map_some]

/-- Settles O35: settling the load changes the destination register at most, and leaving the thread
writes the context and the bank back to it. -/
theorem stepThreadWritesBackPcAndSnapshot : Obligations.StepThreadWritesBackPcAndSnapshot := by
  intro s u l th w hth ha hw hu
  have hstep := stepLane_of_fetch hth ha hw
  rw [hu, andThen_next] at hstep
  have hid : u.ctx.threadId = th.threadId := (exec_ctx hu).1
  have hblocks : (settleLoad (decode s.cfg.opcodeMap w) l.openWords u).blocks = s.blocks :=
    (exec_sameEngine hu).blocks
  obtain ⟨hdest, hother⟩ := readReg_settleLoad (decode s.cfg.opcodeMap w) l.openWords u
  unfold x at hdest
  rw [settleLoad_ctx, hid] at hdest
  rw [hid] at hother
  refine ⟨_, hstep, ?_, fun q hq => stepLane_threadAt?_of_ne hstep hq, ⟨rfl, rfl, rfl⟩,
    fun hopen => ?_, hother, hdest⟩
  · rw [threadAt?_leaveThread, threadAt?_congr hblocks, hth, settleLoad_ctx, hid, leaveThread_rf]
    rfl
  · rw [hopen, settleLoad_nil, leaveThread_rf]

end Sys2Proof.Proofs
end

section
/-! The round-robin choice of a warp (R87, R89, R90). -/

namespace Sys2Proof.Machine

/-! ### Where no warp is runnable -/

/-- The core is complete exactly where no member of any warp is active (R90). -/
theorem isComplete_iff (s : State) :
    isComplete s = true ↔ ∀ w ∈ s.warps, ∀ r ∈ w.members, threadActive s r = false := by
  simp [isComplete]

theorem isComplete_iff_not_warpRunnable (s : State) :
    isComplete s = true ↔ ∀ k, k < s.warps.length → warpRunnable s k = false := by
  simp only [isComplete, List.all_eq_true, List.forall_mem_iff_getElem, Bool.not_eq_true']
  refine forall₂_congr fun k hk => ?_
  rw [warpRunnable_eq, List.getElem?_eq_getElem hk, Option.any_some]

/-! ### The choice -/

/-- The picked warp is the first runnable one of the scan (R89). -/
theorem getNextWarp_warp (s : State) :
    (getNextWarp s).warp = (scanOrder s).find? (warpRunnable s) := by
  unfold getNextWarp
  cases (scanOrder s).find? (warpRunnable s) <;> rfl

/-- The warps of the scan before the first runnable one. -/
def skippedWarps (s : State) : List Nat := (scanOrder s).takeWhile fun k => !warpRunnable s k

theorem getNextWarp_state_of_some {s : State} {k : Nat} (h : (getNextWarp s).warp = some k) :
    (getNextWarp s).state = { retireWarps s (skippedWarps s) with rr := (k + 1) % s.warps.length } := by
  rw [getNextWarp_warp] at h
  unfold getNextWarp
  simp only [h]
  rfl

theorem getNextWarp_state_of_none {s : State} (h : (getNextWarp s).warp = none) :
    (getNextWarp s).state = retireWarps s (skippedWarps s) := by
  rw [getNextWarp_warp] at h
  unfold getNextWarp
  simp only [h]
  rfl

/-- No warp is picked exactly where no member of any warp is active (R89, R90). -/
theorem getNextWarp_eq_none_iff (s : State) : (getNextWarp s).warp = none ↔ isComplete s = true := by
  rw [getNextWarp_warp, List.find?_eq_none, isComplete_iff_not_warpRunnable]
  simp only [mem_scanOrder, Bool.not_eq_true]

/-- Where no warp is picked, the whole scan is skipped (R89). -/
theorem skippedWarps_of_none {s : State} (h : (getNextWarp s).warp = none) :
    skippedWarps s = scanOrder s := by
  rw [getNextWarp_warp, List.find?_eq_none] at h
  exact List.takeWhile_eq_self_iff.2 fun k hk => by simpa using h k hk

/-- The place of the picked warp in the scan: every warp before it is not runnable, and exactly these
are skipped (R89). -/
theorem getNextWarp_eq_some {s : State} {k : Nat} (h : (getNextWarp s).warp = some k) :
    ∃ i, i < s.warps.length ∧ k = (s.rr + i) % s.warps.length ∧ warpRunnable s k = true ∧
      (∀ j, j < i → warpRunnable s ((s.rr + j) % s.warps.length) = false) ∧
      ∀ q, q ∈ skippedWarps s ↔ ∃ j, j < i ∧ q = (s.rr + j) % s.warps.length := by
  rw [getNextWarp_warp] at h
  obtain ⟨i, hi, hrun, hbefore, hskip⟩ := find?_takeWhile h
  have hlt : i < s.warps.length := scanOrder_length s ▸ (List.getElem?_eq_some_iff.1 hi).1
  rw [scanOrder_getElem? s hlt, Option.some.injEq] at hi
  refine ⟨i, hlt, hi.symm, hrun,
    fun j hj => hbefore j hj _ (scanOrder_getElem? s (hj.trans hlt)), fun q => ?_⟩
  rw [skippedWarps, hskip, scanOrder, ← List.map_take, List.take_range, min_eq_left hlt.le]
  simp only [List.mem_map, List.mem_range, eq_comm]

/-- Retiring every warp of the scan clears every `active` flag (R89). -/
theorem retireWarps_scanOrder (s : State) :
    (retireWarps s (scanOrder s)).warps = s.warps.map fun w => { w with active := false } := by
  apply List.ext_getElem?
  intro q
  rw [retireWarps_getElem?, List.getElem?_map]
  refine Option.map_congr fun w hw => if_pos ?_
  exact (mem_scanOrder s q).2 (List.getElem?_eq_some_iff.1 hw).1

end Sys2Proof.Machine

namespace Sys2Proof.Proofs
open Sys2Proof.Machine

/-- Settles O36, from the place of the picked warp in the scan and the warps that retire before it. -/
theorem roundRobinPicksNextRunnableWarp : Obligations.RoundRobinPicksNextRunnableWarp := by
  refine fun s => ⟨fun k hk => ⟨?_, ?_⟩, getNextWarp_eq_none_iff s, fun hnone => ?_, isComplete_iff s⟩
  · obtain ⟨i, hi, hki, hrun, hbefore, hskip⟩ := getNextWarp_eq_some hk
    refine ⟨i, hi, hki, hrun, hbefore, fun q => ?_⟩
    rw [getNextWarp_state_of_some hk]
    simp only [retireWarps_getElem?, hskip]
  · rw [getNextWarp_state_of_some hk]
  · rw [getNextWarp_state_of_none hnone, skippedWarps_of_none hnone]
    exact ⟨rfl, retireWarps_scanOrder s⟩

end Sys2Proof.Proofs
end

section
/-! One cycle, and the run to the end (R87, R91, R97, R98, R135). -/

namespace Sys2Proof.Machine

/-! ### A halted and a running core -/

theorem halted_iff (s : State) : halted s = true ↔ s.maxCycles ≤ s.cycle ∨ isComplete s = true := by
  simp [halted]

theorem executeCycleReturns_eq_false_iff (s : State) :
    executeCycleReturns s = false ↔ halted s = true := by
  simp [executeCycleReturns]

/-- A halted core steps to the same state (R91). -/
theorem step_of_halted {s : State} (h : halted s = true) : step s = .next s := by
  unfold step executeCycle
  rw [if_pos h]

/-- A core that is not halted picks a warp (R89, R91). -/
theorem getNextWarp_of_running {s : State} (h : halted s = false) :
    ∃ k, (getNextWarp s).warp = some k := by
  rw [← Option.ne_none_iff_exists', ne_eq, getNextWarp_eq_none_iff]
  intro hc
  rw [(halted_iff s).2 (.inr hc)] at h
  cases h

/-- A running step runs the lanes of the picked warp in order and ends the cycle (R91). -/
theorem step_of_running {s : State} {k : Nat} (hh : halted s = false)
    (hk : (getNextWarp s).warp = some k) :
    step s = andThen
      (runLanes (planLanes (getNextWarp s).state (membersOf s k)) (getNextWarp s).state)
      fun t => .next (endCycle t k) := by
  obtain ⟨t, ht⟩ := executeCycle_answers_next s
  obtain ⟨u, hu, rfl⟩ := step_runs_lanes hh hk ht
  rw [hu]
  exact ht

/-! ### What a cycle leaves -/

/-- A warp with its PC refreshed: that of its lowest-lane active thread (R87). -/
def refreshedWarp (s : State) (w : Warp) : Warp :=
  match (w.members.filterMap (threadAt? s)).find? (·.active) with
  | some t => { w with pc := t.pc }
  | none => w

/-- The end of a cycle refreshes the PC of the warp that ran (R87). -/
theorem endCycle_warps_getElem?_self (s : State) (k : Nat) :
    (endCycle s k).warps[k]? = (s.warps[k]?).map (refreshedWarp (endCycle s k)) := by
  rw [endCycle_warps]
  exact List.getElem?_modify_eq _ _ _

/-- A running step counts one cycle and one tick (R91, R135). -/
theorem step_counts {s t : State} {k : Nat} (hh : halted s = false) (hk : (getNextWarp s).warp = some k)
    (h : step s = .next t) : t.cycle = s.cycle + 1 ∧ t.ticks = s.ticks + 1 := by
  obtain ⟨u, hu, rfl⟩ := step_runs_lanes hh hk h
  have hc := runLanes_sameControl hu
  rw [endCycle_cycle, endCycle_ticks, hc.cycle, hc.ticks, getNextWarp_eq]
  exact ⟨rfl, rfl⟩

/-! ### Running to the end -/

/-- `n` steps lead from `s` to the halted state `t`, and none of them steps from a halted state. -/
structure HaltsAfter (n : Nat) (s t : State) : Prop where
  steps : stepTimes n s = .next t
  running : ∀ m u, m < n → stepTimes m s = .next u → halted u = false
  ends : halted t = true

theorem HaltsAfter.zero {s : State} (h : halted s = true) : HaltsAfter 0 s s :=
  ⟨rfl, fun _ _ hm => absurd hm (Nat.not_lt_zero _), h⟩

theorem HaltsAfter.succ {n : Nat} {s u t : State} (hs : halted s = false)
    (hu : step s = .next u) (h : HaltsAfter n u t) : HaltsAfter (n + 1) s t := by
  refine ⟨by rw [stepTimes, hu]; exact h.steps, fun m v hm hv => ?_, h.ends⟩
  cases m with
  | zero => exact Host.Outcome.next.inj hv ▸ hs
  | succ m =>
    rw [stepTimes, hu] at hv
    exact h.running m v (Nat.lt_of_succ_lt_succ hm) hv

/-- A running step leaves one cycle less of the budget (R91, R135). -/
theorem step_uses_budget {s t : State} (hh : halted s = false) (h : step s = .next t) :
    t.maxCycles - t.cycle + 1 = s.maxCycles - s.cycle := by
  obtain ⟨k, hk⟩ := getNextWarp_of_running hh
  have hbudget : ¬s.maxCycles ≤ s.cycle := fun hb => by
    rw [(halted_iff s).2 (.inl hb)] at hh
    cases hh
  rw [(step_counts hh hk h).1, (step_imem_cfg_maxCycles h).2.2]
  omega

/-- Cycles up to the budget reach the first halted state (R97). -/
theorem runCycles_halts {n : Nat} {s : State} (hn : s.maxCycles - s.cycle = n) :
    ∃ m t, m ≤ n ∧ runCycles n s = .next t ∧ HaltsAfter m s t := by
  induction n generalizing s with
  | zero => exact ⟨0, s, le_rfl, rfl, .zero ((halted_iff s).2 (.inl (Nat.sub_eq_zero_iff_le.1 hn)))⟩
  | succ n ih =>
    unfold runCycles
    cases hh : halted s with
    | true => exact ⟨0, s, Nat.zero_le _, rfl, .zero hh⟩
    | false =>
      obtain ⟨u, hu⟩ : ∃ u, step s = .next u := executeCycle_answers_next s
      have hleft := step_uses_budget hh hu
      obtain ⟨m, t, hm, hrun, hhalts⟩ := ih (s := u) (by omega)
      refine ⟨m + 1, t, Nat.succ_le_succ hm, ?_, hhalts.succ hh hu⟩
      rw [if_neg Bool.false_ne_true, show executeCycle s = .next u from hu]
      exact hrun

/-- A halted core has one end kind: complete where no thread is active, else budget (R98). -/
theorem endKind_of_halted {s : State} (h : halted s = true) :
    (endKind s = some .complete ∧ isComplete s = true) ∨
      (endKind s = some .budget ∧ isComplete s = false ∧ s.maxCycles ≤ s.cycle) := by
  unfold endKind
  cases hc : isComplete s with
  | true => exact .inl ⟨rfl, rfl⟩
  | false =>
    have hb : s.maxCycles ≤ s.cycle := ((halted_iff s).1 h).resolve_right (by simp [hc])
    exact .inr ⟨by rw [if_neg Bool.false_ne_true, if_pos hb], rfl, hb⟩

end Sys2Proof.Machine

namespace Sys2Proof.Proofs
open Sys2Proof.Machine

/-- Settles O33, by the running step and the first of its lanes. -/
theorem stepRunsTheDecodedInstruction : Obligations.StepRunsTheDecodedInstruction := by
  refine ⟨fun s k => step_of_running, fun s l ls th w i hth ha hw hi => ?_, planLanes_places,
    fun i s => settleLoad_nil s i⟩
  rw [runLanes_cons_of_fetch hth ha hw, hi]

/-- Settles O37. -/
theorem haltedStepChangesNothing : Obligations.HaltedStepChangesNothing := fun s =>
  ⟨(executeCycleReturns_eq_false_iff s).trans (halted_iff s),
    fun h => step_of_halted ((executeCycleReturns_eq_false_iff s).1 h)⟩

/-- Settles O38: no lane touches the counters or the warps, so all of it is the end of the cycle. -/
theorem runningStepCountsOneCycle : Obligations.RunningStepCountsOneCycle := by
  intro s k hh hk
  obtain ⟨t, ht⟩ : ∃ t, step s = .next t := executeCycle_answers_next s
  obtain ⟨hcycle, hticks⟩ := step_counts hh hk ht
  obtain ⟨u, hu, rfl⟩ := step_runs_lanes hh hk ht
  refine ⟨_, ht, hcycle, hticks, rfl, fun w hw => ?_⟩
  rw [endCycle_warps_getElem?_self, (runLanes_sameControl hu).warps, hw]
  rfl

/-- Settles O46: the run halts within the budget, and a halted core stays and has one end kind. -/
theorem runEndsWithOneEndKind : Obligations.RunEndsWithOneEndKind := by
  intro s
  obtain ⟨n, t, hn, hrun, hhalts⟩ := runCycles_halts (s := s) rfl
  refine ⟨n, t, hn, hhalts.steps, hrun, fun m u hm hu => ?_,
    (executeCycleReturns_eq_false_iff t).2 hhalts.ends, step_of_halted hhalts.ends,
    endKind_of_halted hhalts.ends⟩
  simp [executeCycleReturns, hhalts.running m u hm hu]

end Sys2Proof.Proofs
end

section
/-! NOP, the unassigned opcode bytes and CONST: how their words decode, and what they leave unchanged
(R77, R100, R101). -/

namespace Sys2Proof

/-! ### The rows that execute as NOP -/

/-- The opcode table's rows for the bytes that the default map does not assign (R77). -/
def unassignedRows : List Instr := [.nopU12, .nopU14, .nopU18, .nopU20, .nopU40, .nopU80]

/-- From 0x12 on, a byte falls into one of the rows for unassigned bytes. -/
theorem unassignedNop_mem_unassignedRows {b : OpByte} (h : 0x12 ≤ b.toNat) :
    unassignedNop b ∈ unassignedRows := by
  unfold unassignedNop
  rw [if_neg (Nat.not_lt.2 h)]
  split_ifs <;> decide

/-- Below 0x12 an unassigned byte is NOP itself. -/
theorem unassignedNop_mem_nop_cons (b : OpByte) : unassignedNop b ∈ .nop :: unassignedRows := by
  rcases Nat.lt_or_ge b.toNat 0x12 with h | h
  · have hnop : unassignedNop b = .nop := if_pos h
    exact hnop ▸ List.mem_cons_self
  · exact List.mem_cons_of_mem _ (unassignedNop_mem_unassignedRows h)

/-! ### The default opcode map -/

theorem defaultOpcodeMap_wf : defaultOpcodeMap.wf = true := by decide

/-- The default map numbers its opcodes below 0x12 (R76). -/
theorem toNat_lt_of_mem_assigned {b : OpByte} (h : b ∈ defaultOpcodeMap.assigned) :
    b.toNat < 0x12 := by
  have hall : ∀ c ∈ defaultOpcodeMap.assigned, c.toNat < 0x12 := by decide
  exact hall b h

/-- A byte that the map does not assign is read as the NOP of its row (R77). -/
theorem decode_of_not_assigned {m : OpcodeMap} {w : Word} (h : opField w ∉ m.assigned) :
    decode m w = unassignedNop (opField w) :=
  decode_of_opOf?_none ((opOf?_eq_none_iff m _).2 h)

/-! ### Immediates -/

/-- R74: the decoder's immediate is the sign extension of the word's low half. -/
theorem immField_eq_signExtend (w : Word) : immField w = (w.setWidth 16).signExtend 32 := by
  have hlow : imm16Field w = w.setWidth 16 :=
    BitVec.eq_of_toNat_eq ((imm16Field_toNat w).trans (BitVec.toNat_setWidth 16 w).symm)
  unfold immField
  rw [hlow]

end Sys2Proof

namespace Sys2Proof.Machine

/-! ### Frames by the state after the instruction -/

/-- An instruction that only sets the PC changes nothing else. -/
theorem movesPc_of_exec {i : Instr} {s : State} {pc : Word} (h : exec i s = .next (setPc s pc)) :
    MovesPc i s pc :=
  ⟨_, h, rfl, rfl, ⟨rfl, rfl, rfl⟩, exec_sameEngine h⟩

/-- An instruction that writes `rd` and advances changes nothing else (R18, R102). -/
theorem writesRegister_of_exec {i : Instr} {s : State} {rd : RegIdx} {v : Word}
    (h : exec i s = .next (advance (writeX s rd v))) : WritesRegister i s rd v := by
  have hread : ∀ tid r, readReg (advance (writeX s rd v)) tid r =
      if tid = s.ctx.threadId ∧ r = rd then v else readReg s tid r := fun tid r =>
    readReg_writeReg s s.ctx.threadId tid rd r v
  refine ⟨_, h, (hread _ rd).trans (if_pos ⟨rfl, rfl⟩), fun tid r hne => ?_, rfl, ⟨rfl, rfl, rfl⟩,
    exec_sameEngine h⟩
  exact (hread tid r).trans (if_neg (not_and_or.2 hne))

/-! ### The instructions -/

/-- NOP and every row for unassigned bytes only advance (R77, R100). -/
theorem exec_of_mem_nop_cons {i : Instr} (hi : i ∈ .nop :: unassignedRows) (s : State) :
    exec i s = .next (advance s) := by
  simp only [unassignedRows, List.mem_cons, List.not_mem_nil, or_false] at hi
  obtain rfl | rfl | rfl | rfl | rfl | rfl | rfl := hi <;> rfl

theorem exec_const (rd : RegIdx) (imm : Word) (s : State) :
    exec (.const rd imm) s = .next (advance (writeX s rd imm)) := rfl

end Sys2Proof.Machine

namespace Sys2Proof.Proofs
open Sys2Proof.Machine

/-- Settles O5: the row of an unassigned byte is one of those that only advance. -/
theorem nopAndUnassignedOpcodesOnlyAdvancePc :
    Obligations.NopAndUnassignedOpcodesOnlyAdvancePc := by
  refine ⟨fun w h => decode_of_opField defaultOpcodeMap_wf (op := .nop) h, fun w h => ?_,
    fun m w h => ?_, fun i hi s => movesPc_of_exec (exec_of_mem_nop_cons hi s)⟩
  · have hfree : opField w ∉ defaultOpcodeMap.assigned := fun ha =>
      absurd (toNat_lt_of_mem_assigned ha) (Nat.not_lt.2 h)
    rw [decode_of_not_assigned hfree]
    exact unassignedNop_mem_unassignedRows h
  · rw [decode_of_not_assigned h]
    exact unassignedNop_mem_nop_cons _

/-- Settles O6, by the decoder's immediate and the frame of a register write. -/
theorem constWritesSignExtendedImmediate : Obligations.ConstWritesSignExtendedImmediate := by
  refine ⟨fun w h => ?_, fun rd imm s => writesRegister_of_exec (exec_const rd imm s)⟩
  rw [decode_of_opField defaultOpcodeMap_wf (op := .const) h, ← immField_eq_signExtend]
  rfl

end Sys2Proof.Proofs
end

section
/-! The execution unit and CMP: the results as integers modulo 2^32, the outputs, and what the
instructions write and leave unchanged (R102 to R112). -/

namespace Sys2Proof

/-! ### Words and the integers they stand for -/

theorem ofNat_toNat_add (a b : Word) : BitVec.ofNat 32 (a.toNat + b.toNat) = a + b := by
  simp [BitVec.ofNat_add]

theorem ofInt_toNat_sub (a b : Word) : BitVec.ofInt 32 ((a.toNat : Int) - (b.toNat : Int)) = a - b := by
  rw [Int.sub_eq_add_neg, BitVec.ofInt_add, BitVec.ofInt_neg, BitVec.ofInt_natCast,
    BitVec.ofInt_natCast, BitVec.ofNat_toNat, BitVec.ofNat_toNat, BitVec.setWidth_eq,
    BitVec.setWidth_eq, ← BitVec.sub_eq_add_neg]

theorem ofNat_toNat_mul (a b : Word) : BitVec.ofNat 32 (a.toNat * b.toNat) = a * b := by
  simp [BitVec.ofNat_mul]

theorem ofInt_toInt_mul (a b : Word) : BitVec.ofInt 32 (a.toInt * b.toInt) = a * b := by
  rw [BitVec.ofInt_mul, BitVec.ofInt_toInt, BitVec.ofInt_toInt]

/-! ### Signed overflow -/

theorem toInt_not_outside (w : Word) : ¬(w.toInt ≥ 2 ^ (32 - 1) ∨ w.toInt < -2 ^ (32 - 1)) :=
  not_or.2 ⟨not_le.2 BitVec.toInt_lt, not_lt.2 (BitVec.le_toInt w)⟩

/-- A sum outside the signed range is not the signed reading of a word; one inside is. -/
theorem saddOverflow_iff (a b : Word) :
    a.saddOverflow b = true ↔ (a + b).toInt ≠ a.toInt + b.toInt := by
  refine ⟨fun h heq => toInt_not_outside (a + b) ?_,
    fun hne => by_contra fun hin => hne (BitVec.toInt_add_of_not_saddOverflow hin)⟩
  rw [heq]
  simpa only [BitVec.saddOverflow, Bool.or_eq_true, decide_eq_true_eq] using h

/-- A difference outside the signed range is not the signed reading of a word; one inside is. -/
theorem ssubOverflow_iff (a b : Word) :
    a.ssubOverflow b = true ↔ (a - b).toInt ≠ a.toInt - b.toInt := by
  refine ⟨fun h heq => toInt_not_outside (a - b) ?_,
    fun hne => by_contra fun hin => hne (BitVec.toInt_sub_of_not_ssubOverflow hin)⟩
  rw [heq]
  simpa only [BitVec.ssubOverflow, Bool.or_eq_true, decide_eq_true_eq] using h

/-! ### The quotient rounded toward zero (R108) -/

theorem natAbs_tdiv_mul_le (a b : Int) : (a.tdiv b * b).natAbs ≤ a.natAbs := by
  rw [Int.natAbs_mul, Int.natAbs_tdiv]
  exact Nat.div_mul_le_self _ _

/-- What rounding toward zero drops is the remainder. -/
theorem natAbs_sub_tdiv_mul (a b : Int) : (a - a.tdiv b * b).natAbs = a.natAbs % b.natAbs := by
  rw [Int.mul_comm, ← Int.tmod_def, Int.natAbs_tmod]

/-- What is no further from `a` than 0 is has the sign of `a`. -/
theorem mul_nonneg_of_natAbs_sub_le {m a : Int} (h : (a - m).natAbs ≤ a.natAbs) : 0 ≤ m * a := by
  rcases le_total 0 a with ha | ha
  · exact mul_nonneg (by omega) ha
  · exact mul_nonneg_of_nonpos_of_nonpos (by omega) ha

end Sys2Proof

namespace Sys2Proof.Machine

/-! ### The unit's results and outputs -/

theorem divResult_of_zero (a : Word) {b : Word} (h : b.toInt = 0) : divResult a b = 0 := by
  rw [divResult, if_pos h]
  rfl

theorem divResult_of_ne_zero (a : Word) {b : Word} (h : b.toInt ≠ 0) :
    divResult a b = BitVec.ofInt 32 (a.toInt.tdiv b.toInt) := by
  rw [divResult, if_neg h]

/-- The sign rule of R105 is signed overflow of the sum. -/
theorem aluOverflow_add (a b : Word) : aluOverflow .add a b = a.saddOverflow b :=
  (BitVec.saddOverflow_eq a b).symm

/-- The sign rule of R106 is signed overflow of the difference. -/
theorem aluOverflow_sub (a b : Word) : aluOverflow .sub a b = a.ssubOverflow b := by
  rw [BitVec.ssubOverflow_eq]
  unfold aluOverflow
  cases a.msb <;> cases b.msb <;> simp

theorem aluOverflow_of_bitwise {op : AluOp} (h : op ∈ [AluOp.and, .or, .xor]) (a b : Word) :
    aluOverflow op a b = false := by
  simp only [List.mem_cons, List.not_mem_nil, or_false] at h
  obtain rfl | rfl | rfl := h <;> rfl

theorem compareSigned_eq_equal_iff (a b : Word) : compareSigned a b = .equal ↔ a.toInt = b.toInt := by
  unfold compareSigned
  split_ifs <;> simp [*]

theorem compareSigned_eq_less_iff (a b : Word) : compareSigned a b = .less ↔ a.toInt < b.toInt := by
  unfold compareSigned
  split_ifs <;> simp [*]

theorem compareSigned_eq_greater_iff (a b : Word) :
    compareSigned a b = .greater ↔ b.toInt < a.toInt := by
  unfold compareSigned
  split_ifs <;> simp <;> omega

/-! ### The instructions -/

/-- A register-class instruction writes its unit's result and advances (R102). -/
theorem writesRegister_of_aluInstr {i : Instr} {op : AluOp} {rd rs1 rs2 : RegIdx} {s : State} {v : Word}
    (h : exec i s = .next (aluInstr op rd rs1 rs2 s)) (hv : aluResult op (x s rs1) (x s rs2) = v) :
    WritesRegister i s rd v :=
  writesRegister_of_exec (hv ▸ h)

theorem exec_add (rd rs1 rs2 : RegIdx) (s : State) :
    exec (.add rd rs1 rs2) s = .next (aluInstr .add rd rs1 rs2 s) := rfl

theorem exec_sub (rd rs1 rs2 : RegIdx) (s : State) :
    exec (.sub rd rs1 rs2) s = .next (aluInstr .sub rd rs1 rs2 s) := rfl

theorem exec_mul (rd rs1 rs2 : RegIdx) (s : State) :
    exec (.mul rd rs1 rs2) s = .next (aluInstr .mul rd rs1 rs2 s) := rfl

theorem exec_div (rd rs1 rs2 : RegIdx) (s : State) :
    exec (.div rd rs1 rs2) s = .next (aluInstr .div rd rs1 rs2 s) := rfl

theorem exec_and (rd rs1 rs2 : RegIdx) (s : State) :
    exec (.and rd rs1 rs2) s = .next (aluInstr .and rd rs1 rs2 s) := rfl

theorem exec_or (rd rs1 rs2 : RegIdx) (s : State) :
    exec (.or rd rs1 rs2) s = .next (aluInstr .or rd rs1 rs2 s) := rfl

theorem exec_xor (rd rs1 rs2 : RegIdx) (s : State) :
    exec (.xor rd rs1 rs2) s = .next (aluInstr .xor rd rs1 rs2 s) := rfl

/-- CMP only advances, whatever its comparison says (R112). -/
theorem exec_cmp (rs1 rs2 : RegIdx) (s : State) : exec (.cmp rs1 rs2) s = .next (advance s) :=
  execCmp_eq rs1 rs2 s

end Sys2Proof.Machine

namespace Sys2Proof.Proofs
open Sys2Proof.Machine

/-- Settles O10: the quotient is the one rounded toward zero, and what it leaves is the remainder. -/
theorem divWritesTruncatedQuotient : Obligations.DivWritesTruncatedQuotient := by
  refine ⟨fun w h => decode_of_opField defaultOpcodeMap_wf (op := .div) h,
    fun rd rs1 rs2 s hz => writesRegister_of_aluInstr (exec_div ..) (divResult_of_zero _ hz),
    fun rd rs1 rs2 s hnz => ?_, fun a b => ⟨rfl, rfl, rfl⟩⟩
  have hdropped := natAbs_sub_tdiv_mul (x s rs1).toInt (x s rs2).toInt
  refine ⟨(x s rs1).toInt.tdiv (x s rs2).toInt,
    writesRegister_of_aluInstr (exec_div ..) (divResult_of_ne_zero _ hnz), natAbs_tdiv_mul_le _ _,
    ?_, mul_nonneg_of_natAbs_sub_le ?_⟩
  · rw [hdropped]
    exact Nat.mod_lt _ (Int.natAbs_pos.2 hnz)
  · rw [hdropped]
    exact Nat.mod_le _ _

/-- Settles O24: the sign rules are signed overflow, and a word holds every value in the signed range. -/
theorem addSubOverflowIsSignedOverflow : Obligations.AddSubOverflowIsSignedOverflow := fun a b =>
  ⟨(Bool.eq_iff_iff.1 (aluOverflow_add a b)).trans (saddOverflow_iff a b),
    (Bool.eq_iff_iff.1 (aluOverflow_sub a b)).trans (ssubOverflow_iff a b)⟩

/-- Settles O7, by the sum of words as the sum of their values modulo 2^32. -/
theorem addWritesSumModulo : Obligations.AddWritesSumModulo := by
  refine ⟨fun w h => decode_of_opField defaultOpcodeMap_wf (op := .add) h,
    fun rd rs1 rs2 s => writesRegister_of_aluInstr (exec_add ..) (ofNat_toNat_add _ _).symm,
    fun a b r hr => ?_⟩
  rw [ofNat_toNat_add] at hr
  subst hr
  rfl

/-- Settles O8, by the difference of words as the difference of their values modulo 2^32. -/
theorem subWritesDifferenceModulo : Obligations.SubWritesDifferenceModulo := by
  refine ⟨fun w h => decode_of_opField defaultOpcodeMap_wf (op := .sub) h,
    fun rd rs1 rs2 s => writesRegister_of_aluInstr (exec_sub ..) (ofInt_toNat_sub _ _).symm,
    fun a b r hr => ?_⟩
  rw [ofInt_toNat_sub] at hr
  subst hr
  rfl

/-- Settles O9: the low 32 bits of the product do not depend on the reading of the operands. -/
theorem mulWritesLowProduct : Obligations.MulWritesLowProduct :=
  ⟨fun _ h => decode_of_opField defaultOpcodeMap_wf (op := .mul) h,
    fun _ _ _ _ => writesRegister_of_aluInstr (exec_mul ..) (ofNat_toNat_mul _ _).symm,
    fun a b => ⟨(ofNat_toNat_mul a b).trans (ofInt_toInt_mul a b).symm, rfl, rfl⟩⟩

/-- Settles O11, by the frame of a register-class instruction. -/
theorem bitwiseInstructionsWriteBitwiseResults : Obligations.BitwiseInstructionsWriteBitwiseResults :=
  ⟨fun _ h => decode_of_opField defaultOpcodeMap_wf (op := .and) h,
    fun _ h => decode_of_opField defaultOpcodeMap_wf (op := .or) h,
    fun _ h => decode_of_opField defaultOpcodeMap_wf (op := .xor) h,
    fun _ _ _ _ => ⟨writesRegister_of_aluInstr (exec_and ..) rfl,
      writesRegister_of_aluInstr (exec_or ..) rfl, writesRegister_of_aluInstr (exec_xor ..) rfl⟩,
    fun _ hop a b => ⟨rfl, rfl, aluOverflow_of_bitwise hop a b⟩⟩

/-- Settles O12, by the trichotomy of the signed readings and the frame of an advance. -/
theorem cmpComparesSignedAndDiscards : Obligations.CmpComparesSignedAndDiscards :=
  ⟨fun _ h => decode_of_opField defaultOpcodeMap_wf (op := .cmp) h,
    fun a b => ⟨compareSigned_eq_equal_iff a b, compareSigned_eq_less_iff a b,
      compareSigned_eq_greater_iff a b⟩,
    fun rs1 rs2 s => movesPc_of_exec (exec_cmp rs1 rs2 s)⟩

end Sys2Proof.Proofs
end

section
/-! LDR and STR in every state, coherent or not: the effective address, and what a load and a store
leave in the registers, memory, the cache and the queue (R40, R51 to R53, R57, R114 to R116). -/

namespace Sys2Proof.Machine

/-! ### The effective address -/

/-- R114: the wrapped sum of words is the sum of their values modulo 2^32. -/
theorem effectiveAddress_eq_ofNat (base imm : Word) :
    effectiveAddress base imm = BitVec.ofNat 32 (base.toNat + imm.toNat) :=
  (ofNat_toNat_add base imm).symm

/-- R8: a well-formed configuration has at most 2^31 words of memory. -/
theorem memWords_le_of_wf {c : Config} (h : c.wf = true) : c.memWords ≤ 2 ^ 31 := by
  simp only [Config.wf, Bool.and_eq_true, decide_eq_true_eq] at h
  obtain ⟨⟨-, hle⟩, -⟩ := h
  exact hle

/-- R40: a word that is negative by its signed reading lies past every well-formed memory. -/
theorem memWords_le_toNat_of_neg {c : Config} (hc : c.wf = true) {ea : Word} (h : ea.toInt < 0) :
    c.memWords ≤ ea.toNat := by
  have hsize := memWords_le_of_wf hc
  have hneg := BitVec.toInt_neg_iff.1 h
  omega

/-! ### The parts of the state after a load -/

theorem afterLdr_mem (rd rs1 : RegIdx) (imm : Word) (s : State) :
    (afterLdr rd rs1 imm s).mem = (cacheRead s (effectiveAddress (x s rs1) imm)).state.mem := rfl

/-- A load queues its read request behind the others (R57, R115). -/
theorem afterLdr_mcQueue (rd rs1 : RegIdx) (imm : Word) (s : State) :
    (afterLdr rd rs1 imm s).mcQueue =
      s.mcQueue ++ [loadRequest s (effectiveAddress (x s rs1) imm)] := by
  obtain ⟨m, c, b, he⟩ := afterLdr_eq rd rs1 imm s
  rw [he]

/-- A load writes no register but its destination (R18, R115). -/
theorem afterLdr_onlyRegister (rd rs1 : RegIdx) (imm : Word) (s : State) :
    OnlyRegister s (afterLdr rd rs1 imm s) s.ctx.threadId rd := by
  intro tid r hr
  refine exec_readReg_of_not_destination (exec_ldr rd rs1 imm s) ?_
  rintro ⟨htid, hd⟩
  exact hr.elim (· htid) (· (Option.some.inj hd).symm)

/-- A read that hits returns the line's word and only counts (R51). -/
theorem cacheRead_of_hit {s : State} {a : Word} {l : Line} (ha : a.toNat < s.cfg.memWords)
    (hl : lineAt? s (cacheIndex s.cfg a) = some l) (ht : l.tag = cacheTag s.cfg a) :
    cacheRead s a = { data := l.data[(cacheOffset a).val], hit := true, state := countHit s } := by
  rw [cacheRead_of_lt ha, makeResident_of_hit (residentLine?_eq_some_iff.2 ⟨hl, ht⟩)]

/-! ### The parts of the state after a store -/

/-- A store queues its write request behind the others (R57, R116). -/
theorem afterStr_mcQueue (rd rs1 : RegIdx) (imm : Word) (s : State) :
    (afterStr rd rs1 imm s).mcQueue =
      s.mcQueue ++ [storeRequest s (effectiveAddress (x s rs1) imm) (x s rd)] := by
  obtain ⟨m, c, he⟩ := afterStr_eq rd rs1 imm s
  rw [he]

/-! ### The line that an access makes resident -/

theorem residentLine?_eq_none {s : State} {a : Word}
    (h : ∀ l, lineAt? s (cacheIndex s.cfg a) = some l → l.tag ≠ cacheTag s.cfg a) :
    residentLine? s a = none := by
  refine Option.eq_none_iff_forall_not_mem.2 fun l hr => ?_
  obtain ⟨hl, ht⟩ := residentLine?_eq_some_iff.1 hr
  exact h l hl ht

/-- The line that a miss makes resident holds the words of memory, the victim written back (R50). -/
theorem makeResident_data_of_miss {s : State} {a : Word} (h : residentLine? s a = none) (k : Fin 4) :
    (makeResident s a).line.data[k.val] =
      globalRead (makeResident s a).state (a.toNat - a.toNat % 4 + k.val) := by
  rw [makeResident_of_miss h]
  exact filledLine_data (evictedFor s a) a k

/-- Making a line resident leaves every line at another index (R48, R50). -/
theorem lineAt?_makeResident_of_ne {s : State} {a : Word} {j : Nat} (hj : j ≠ cacheIndex s.cfg a) :
    lineAt? (makeResident s a).state j = lineAt? s j := by
  unfold lineAt?
  cases h : residentLine? s a with
  | some l => rw [makeResident_of_hit h, countHit_lines]
  | none =>
    rw [makeResident_of_miss h, setLine_lines, Table.get?_put_of_ne _ _ hj, evictedFor_cache,
      countMiss_lines]

/-! ### An in-range write -/

theorem writtenLine_data_offset (l : Line) (a v : Word) :
    (writtenLine l a v).data[(cacheOffset a).val] = v :=
  Vector.getElem_set_self _

theorem writtenLine_data_of_ne (l : Line) (v : Word) {a : Word} {k : Fin 4} (h : k ≠ cacheOffset a) :
    (writtenLine l a v).data[k.val] = l.data[k.val] :=
  Vector.getElem_set_ne (cacheOffset a).isLt k.isLt fun he => h (Fin.ext he.symm)

/-- On a hit, a write keeps the line's other words (R52). -/
theorem writtenLine_data_of_hit {s : State} {a : Word} (v : Word) {l : Line}
    (hl : lineAt? s (cacheIndex s.cfg a) = some l) (ht : l.tag = cacheTag s.cfg a) {k : Fin 4}
    (hk : k ≠ cacheOffset a) :
    (writtenLine (makeResident s a).line a v).data[k.val] = l.data[k.val] := by
  rw [writtenLine_data_of_ne _ _ hk, makeResident_of_hit (residentLine?_eq_some_iff.2 ⟨hl, ht⟩)]

section
variable {s : State} {a : Word} (ha : a.toNat < s.cfg.memWords) (v : Word)
include ha

/-- A write leaves the resident line with its word replaced (R52). -/
theorem lineAt?_cacheWrite_self :
    lineAt? (cacheWrite s a v).state (cacheIndex s.cfg a) =
      some (writtenLine (makeResident s a).line a v) := by
  rw [cacheWrite_of_lt ha]
  exact Table.get?_put_self _ _ _

/-- A write leaves every line at another index (R52). -/
theorem lineAt?_cacheWrite_of_ne {j : Nat} (hj : j ≠ cacheIndex s.cfg a) :
    lineAt? (cacheWrite s a v).state j = lineAt? s j := by
  rw [cacheWrite_of_lt ha, ← lineAt?_makeResident_of_ne hj]
  exact Table.get?_put_of_ne _ _ hj

/-- A write changes its own word of the memory that making its line resident leaves (R52). -/
theorem globalRead_cacheWrite (b : Nat) :
    globalRead (cacheWrite s a v).state b =
      if b = a.toNat then v else globalRead (makeResident s a).state b := by
  have hcfg : (makeResident s a).state.cfg = s.cfg := by rw [makeResident_eq]
  rw [cacheWrite_of_lt ha, globalRead_globalWrite, setLine_cfg, hcfg]
  exact if_congr ⟨fun h => h.1, fun h => ⟨h, h ▸ ha⟩⟩ rfl rfl

/-- On a miss, the line's other words are those of memory (R50, R52). -/
theorem writtenLine_data_of_miss
    (hmiss : ∀ l, lineAt? s (cacheIndex s.cfg a) = some l → l.tag ≠ cacheTag s.cfg a) {k : Fin 4}
    (hk : k ≠ cacheOffset a) :
    (writtenLine (makeResident s a).line a v).data[k.val] =
      globalRead (cacheWrite s a v).state (a.toNat - a.toNat % 4 + k.val) := by
  have hother : a.toNat - a.toNat % 4 + k.val ≠ a.toNat := fun he =>
    hk (Fin.ext (show k.val = a.toNat % 4 by omega))
  rw [writtenLine_data_of_ne _ _ hk, makeResident_data_of_miss (residentLine?_eq_none hmiss),
    globalRead_cacheWrite ha, if_neg hother]

end

end Sys2Proof.Machine

namespace Sys2Proof.Proofs
open Sys2Proof.Machine

/-- Settles O13: a well-formed memory ends where the negative words begin. -/
theorem effectiveAddressWrapsAndNegativeIsOutOfRange :
    Obligations.EffectiveAddressWrapsAndNegativeIsOutOfRange := by
  refine ⟨fun base imm => BitVec.toNat_add base imm, inRange_iff, fun s ea hwf hneg => ?_⟩
  exact decide_eq_false (Nat.not_lt.2 (memWords_le_toNat_of_neg hwf hneg))

/-- Settles O14: the load's parts are those of the cache read, which a hit and an address out of range
each evaluate. -/
theorem ldrReadsThroughCacheAndQueuesRequest : Obligations.LdrReadsThroughCacheAndQueuesRequest := by
  refine ⟨fun w h => ?_, fun rd rs1 imm ea s hea => ?_⟩
  · rw [decode_of_opField defaultOpcodeMap_wf (op := .ldr) h, ← immField_eq_signExtend]
    rfl
  · rw [← effectiveAddress_eq_ofNat] at hea
    subst hea
    have hexec := exec_ldr rd rs1 imm s
    have hdata := x_afterLdr rd rs1 imm s
    refine ⟨_, hexec, hdata, afterLdr_onlyRegister rd rs1 imm s, afterLdr_mem rd rs1 imm s,
      afterLdr_cache rd rs1 imm s, fun hlt l hl ht => ?_, fun hge => ?_, afterLdr_mcQueue rd rs1 imm s,
      afterLdr_ctx rd rs1 imm s, exec_sameEngine hexec⟩
    · rw [hdata, afterLdr_mem, afterLdr_cache, cacheRead_of_hit hlt hl ht]
      exact ⟨rfl, rfl, rfl⟩
    · rw [hdata, afterLdr_mem, afterLdr_cache, cacheRead_of_ge hge]
      exact ⟨rfl, rfl, rfl⟩

/-- Settles O16: the store's memory and cache are those of the cache write, whose line is the resident
one with the stored word in its place. -/
theorem strWritesThroughCacheAndQueuesRequest : Obligations.StrWritesThroughCacheAndQueuesRequest := by
  refine ⟨fun w h => ?_, fun rd rs1 imm ea s hea => ?_⟩
  · rw [decode_of_opField defaultOpcodeMap_wf (op := .str) h, ← immField_eq_signExtend]
    rfl
  · rw [← effectiveAddress_eq_ofNat] at hea
    subst hea
    have hexec := exec_str rd rs1 imm s
    obtain ⟨hctx, hrf⟩ := afterStr_ctx_rf rd rs1 imm s
    refine ⟨_, hexec, afterStr_mem rd rs1 imm s, afterStr_cache rd rs1 imm s, fun hlt => ⟨?_, ?_, ?_⟩,
      fun hge => ?_, afterStr_mcQueue rd rs1 imm s, hrf, hctx, exec_sameEngine hexec⟩
    · exact (globalRead_cacheWrite hlt (x s rd) _).trans (if_pos rfl)
    · refine ⟨_, lineAt?_cacheWrite_self hlt (x s rd), rfl, makeResident_line_tag s _,
        writtenLine_data_offset _ _ _, fun k hk => ⟨fun l' hl' ht' => ?_, fun hmiss => ?_⟩⟩
      · exact writtenLine_data_of_hit (x s rd) hl' ht' hk
      · exact writtenLine_data_of_miss hlt (x s rd) hmiss hk
    · exact fun j hj => lineAt?_cacheWrite_of_ne hlt (x s rd) hj
    · rw [afterStr_mem, afterStr_cache, cacheWrite_of_ge hge]
      exact ⟨rfl, rfl⟩

end Sys2Proof.Proofs
end

section
/-! The branches and RET: which way a branch goes by the signed reading of its register, and how a
thread halts (R117 to R125). -/

namespace Sys2Proof

/-- The decoder passes R74's sign extension to an instruction with an immediate. -/
theorem decode_of_immediate {op : Opcode} {w : Word} {f : Word → Instr}
    (h : opField w = defaultOpcodeMap.byteOf op) (hf : decodeOp op w = f (immField w)) :
    decode defaultOpcodeMap w = f ((w.setWidth 16).signExtend 32) := by
  rw [decode_of_opField defaultOpcodeMap_wf h, hf, immField_eq_signExtend]

theorem toInt_eq_zero_iff (v : Word) : v.toInt = 0 ↔ v = 0 :=
  BitVec.toInt_inj (y := 0)

end Sys2Proof

namespace Sys2Proof.Machine

/-! ### The branch conditions by the signed reading (R118) -/

theorem takenZ_iff (v : Word) : takenZ v = true ↔ v.toInt = 0 :=
  beq_iff_eq.trans (toInt_eq_zero_iff v).symm

theorem takenN_iff (v : Word) : takenN v = true ↔ v.toInt < 0 := by
  rw [takenN, BitVec.msb_eq_toInt, decide_eq_true_eq]

theorem takenNZ_notZero_iff (v : Word) : takenNZ .notZero v = true ↔ v.toInt ≠ 0 :=
  bne_iff_ne.trans (toInt_eq_zero_iff v).not.symm

/-- The second reading of BRnz is BRn or BRz (R122). -/
theorem takenNZ_negOrZero_iff (v : Word) : takenNZ .negOrZero v = true ↔ v.toInt ≤ 0 := by
  have hor : takenNZ .negOrZero v = (takenN v || takenZ v) := rfl
  rw [hor, Bool.or_eq_true, takenN_iff, takenZ_iff, le_iff_lt_or_eq]

/-- BRp is taken where neither BRn nor BRz is (R124). -/
theorem takenP_iff (v : Word) : takenP v = true ↔ 0 < v.toInt := by
  have hand : takenP v = (!takenN v && !takenZ v) := rfl
  rw [hand, Bool.and_eq_true, Bool.not_eq_true', Bool.not_eq_true', ← Bool.not_eq_true,
    ← Bool.not_eq_true, takenN_iff, takenZ_iff]
  omega

/-! ### The branches -/

/-- R117: the wrapped target is the sum of the PC's and the immediate's values modulo 2^32. -/
theorem branchTarget_eq_ofNat (pc imm : Word) :
    branchTarget pc imm = BitVec.ofNat 32 (pc.toNat + imm.toNat) :=
  (ofNat_toNat_add pc imm).symm

theorem exec_br (imm : Word) (s : State) : exec (.br imm) s = .next (branchIf true imm s) := rfl

theorem exec_brz (rs1 : RegIdx) (imm : Word) (s : State) :
    exec (.brz rs1 imm) s = .next (branchIf (takenZ (x s rs1)) imm s) := rfl

theorem exec_brnz (rs1 : RegIdx) (imm : Word) (s : State) :
    exec (.brnz rs1 imm) s = .next (branchIf (takenNZ s.cfg.brnzReading (x s rs1)) imm s) := rfl

theorem exec_brn (rs1 : RegIdx) (imm : Word) (s : State) :
    exec (.brn rs1 imm) s = .next (branchIf (takenN (x s rs1)) imm s) := rfl

theorem exec_brp (rs1 : RegIdx) (imm : Word) (s : State) :
    exec (.brp rs1 imm) s = .next (branchIf (takenP (x s rs1)) imm s) := rfl

/-- A branch with the condition `P` goes to its target where `P` holds, else to the next
instruction, and changes nothing else (R117, R118). -/
theorem movesPc_of_branchIf {i : Instr} {s : State} {imm : Word} {taken : Bool} {P : Prop} [Decidable P]
    (h : exec i s = .next (branchIf taken imm s)) (hP : taken = true ↔ P) :
    MovesPc i s (if P then BitVec.ofNat 32 (s.ctx.pc.toNat + imm.toNat) else s.ctx.pc + 1) := by
  rw [branchIf_eq, branchTarget_eq_ofNat] at h
  rw [← if_congr hP rfl rfl]
  exact movesPc_of_exec h

/-! ### RET -/

theorem exec_ret (s : State) : exec .ret s = .next (deactivate s) := rfl

/-- Only an instruction with a destination has a load to settle (U1). -/
theorem settleLoad_of_no_destination {i : Instr} (h : destination? i = none) (ws : List Word)
    (s : State) : settleLoad i ws s = s := by
  unfold settleLoad
  rw [h]

/-- A lane whose thread is at a RET leaves the thread deactivated, its context otherwise as entered
(R94, R125). -/
theorem stepLane_of_ret {s : State} {l : Lane} {th : Thread} {w : Word}
    (hth : threadAt? s l.place = some th) (ha : th.active = true) (hw : fetch? s th.pc = some w)
    (hret : decode s.cfg.opcodeMap w = .ret) :
    stepLane s l = .next (leaveThread (deactivate (enterThread s th)) l.place) := by
  rw [stepLane_of_fetch hth ha hw, hret, exec_ret, andThen_next, settleLoad_of_no_destination rfl]

end Sys2Proof.Machine

namespace Sys2Proof.Proofs
open Sys2Proof.Machine

/-- Settles O20: each condition is a comparison of the register's signed reading with 0. -/
theorem conditionalBranchesTestTheirRegister : Obligations.ConditionalBranchesTestTheirRegister := by
  refine ⟨fun w => ⟨fun h => decode_of_immediate (op := .brz) h rfl,
    fun h => decode_of_immediate (op := .brnz) h rfl, fun h => decode_of_immediate (op := .brn) h rfl,
    fun h => decode_of_immediate (op := .brp) h rfl⟩, fun rs1 imm target s htarget => ?_⟩
  subst htarget
  refine ⟨movesPc_of_branchIf (exec_brz ..) (takenZ_iff _), fun hreading => ?_, fun hreading => ?_,
    movesPc_of_branchIf (exec_brn ..) (takenN_iff _), movesPc_of_branchIf (exec_brp ..) (takenP_iff _)⟩
  · exact movesPc_of_branchIf (exec_brnz ..) (hreading ▸ takenNZ_notZero_iff _)
  · exact movesPc_of_branchIf (exec_brnz ..) (hreading ▸ takenNZ_negOrZero_iff _)

/-- Settles O19: BR is the branch that is always taken. -/
theorem brGoesToTarget : Obligations.BrGoesToTarget :=
  ⟨fun _ h => decode_of_immediate (op := .br) h rfl,
    fun imm s => movesPc_of_branchIf (P := True) (exec_br imm s) (iff_of_true rfl trivial)⟩

/-- Settles O21: what leaving the thread writes back to it is the deactivated context and its bank. -/
theorem retHaltsTheThreadInPlace : Obligations.RetHaltsTheThreadInPlace := by
  refine ⟨fun w h => decode_of_opField defaultOpcodeMap_wf (op := .ret) h,
    fun s => ⟨_, exec_ret s, rfl, rfl, ⟨rfl, rfl, rfl⟩, exec_sameEngine (exec_ret s)⟩,
    fun s l th w hth ha hw hret => ?_⟩
  have hstep := stepLane_of_ret hth ha hw hret
  have hentered : threadAt? (deactivate (enterThread s th)) l.place = some th := hth
  refine ⟨_, hstep, ?_, fun q hq => stepLane_threadAt?_of_ne hstep hq, rfl, ⟨rfl, rfl, rfl⟩⟩
  rw [threadAt?_leaveThread, hentered]
  rfl

end Sys2Proof.Proofs
end

section
/-! What a step leaves to the threads that do not run (R95, R138), and that nothing stops it (R126). -/

namespace Sys2Proof.Machine

/-- No lane of a cycle stands at a place that the cycle was not planned for (R92). -/
theorem ne_place_of_mem_planLanes {s : State} {lanes : List ThreadRef} {r : ThreadRef} (hr : r ∉ lanes)
    {l : Lane} (hl : l ∈ planLanes s lanes) : r ≠ l.place := by
  have hplace : l.place ∈ (planLanes s lanes).map (·.place) := List.mem_map_of_mem hl
  rw [planLanes_places] at hplace
  exact (ne_of_mem_of_not_mem hplace hr).symm

/-- Lanes at other places do not change a thread, unique ids or not. -/
theorem runLanes_threadAt?_of_not_mem {s t : State} {ls : List Lane} (h : runLanes ls s = .next t)
    {r : ThreadRef} (hne : ∀ l ∈ ls, r ≠ l.place) : threadAt? t r = threadAt? s r :=
  runLanes_induction (P := fun u => threadAt? u r = threadAt? s r)
    (fun l hl _ _ hv hu => (stepLane_threadAt?_of_ne hv (hne l hl)).trans hu) h rfl

theorem threadAt?_getNextWarp (s : State) (r : ThreadRef) :
    threadAt? (getNextWarp s).state r = threadAt? s r := by
  rw [getNextWarp_eq]
  rfl

variable {s t : State} {k : Nat} {r : ThreadRef}

/-- A running step does not change a thread outside the picked warp (R138). -/
theorem step_threadAt?_of_not_member (hh : halted s = false) (hk : (getNextWarp s).warp = some k)
    (h : step s = .next t) (hr : r ∉ membersOf s k) : threadAt? t r = threadAt? s r := by
  obtain ⟨u, hrun, rfl⟩ := step_runs_lanes hh hk h
  rw [endCycle_threadAt?, runLanes_threadAt?_of_not_mem hrun fun _ => ne_place_of_mem_planLanes hr,
    threadAt?_getNextWarp]

/-- A running step does not change the registers of a thread outside the picked warp: where ids are
unique, no lane writes its bank (R95, R138). -/
theorem step_bankOf_of_not_member (hh : halted s = false) (hk : (getNextWarp s).warp = some k)
    (h : step s = .next t) (hr : r ∉ membersOf s k) (hu : UniqueIds s) {th : Thread}
    (hth : threadAt? s r = some th) : bankOf t.rf th.threadId = bankOf s.rf th.threadId := by
  obtain ⟨u, hrun, rfl⟩ := step_runs_lanes hh hk h
  obtain ⟨-, -, hbank⟩ := runLanes_thread_of_not_mem hrun hu.getNextWarp
    ((threadAt?_getNextWarp s r).trans hth) fun _ => ne_place_of_mem_planLanes hr
  rw [endCycle_rf, hbank, getNextWarp_eq]

end Sys2Proof.Machine

namespace Sys2Proof.Proofs
open Sys2Proof.Machine

/-- Settles O41: the lanes of the step stand at the picked warp's places, and a lane changes the thread
and the bank of its own place only. -/
theorem otherWarpsDoNotRun : Obligations.OtherWarpsDoNotRun :=
  fun _ _ _ _ _ hh hk hstep hr hth =>
    ⟨(step_threadAt?_of_not_member hh hk hstep hr).trans hth,
      fun hu => readReg_of_bankOf_eq (step_bankOf_of_not_member hh hk hstep hr hu hth)⟩

/-- Settles O23: each meaning answers a next state, so each lane, the lanes together and the cycle do. -/
theorem instructionsAndStepsNeverStop : Obligations.InstructionsAndStepsNeverStop :=
  ⟨exec_answers_next, executeCycle_answers_next⟩

end Sys2Proof.Proofs
end

section
/-! What reset and construction leave (R36, R141, R142). -/

namespace Sys2Proof.Machine

/-- A thread without registers reads 0 (R17). -/
theorem readReg_of_unallocated {s : State} {tid : Nat} (h : Table.get? s.rf tid = none) (r : RegIdx) :
    readReg s tid r = 0 :=
  (registerRead_of_lt s tid r.isLt).symm.trans (registerRead_of_unallocated h r.val)

theorem globalRead_of_empty {s : State} (h : s.mem = []) (a : Nat) : globalRead s a = 0 := by
  rw [globalRead, h, Memory.load_empty]

theorem lineAt?_of_empty {s : State} (h : s.cache.lines = []) (i : Nat) : lineAt? s i = none := by
  rw [lineAt?, h, Table.get?]

/-- Construction is a fixed point of reset: it has loaded no program that a reset could keep (R141). -/
theorem hostReset_construct (c : Config) (n : Nat) : hostReset (construct c n) = construct c n := rfl

end Sys2Proof.Machine

namespace Sys2Proof.Proofs
open Sys2Proof.Machine

/-- Settles O54: reset empties the register file, memory and the cache, and what an empty table reads
as is 0 or no line; every other field is a field of power-on or of the state before. -/
theorem hostResetClearsAllButProgram : Obligations.HostResetClearsAllButProgram := by
  refine ⟨fun s => ?_, fun c n => ⟨rfl, rfl, rfl, hostReset_construct c n⟩⟩
  have hreg : ∀ tid r, readReg (hostReset s) tid r = 0 := fun _ => readReg_of_unallocated rfl
  have hmem : ∀ a, globalRead (hostReset s) a = 0 := globalRead_of_empty rfl
  have hline : ∀ i, lineAt? (hostReset s) i = none := lineAt?_of_empty rfl
  exact ⟨rfl, rfl, rfl, rfl, rfl, rfl, rfl, rfl, hreg, hmem, hline, rfl, rfl, rfl, rfl⟩

end Sys2Proof.Proofs
end
